-- ==== Sys2Proof/Word.lean ====
section
/-! DEFINITION. The widths of the framer (00_scope.md R8): a byte is 8 bits, an address or a value 32 bits. -/

namespace Sys2Proof

/-- A byte (R8); bit 0 is the least significant bit (R11). -/
abbrev Byte := BitVec 8

/-- A base address, a write value or a decoded integer: 32 bits (R8). -/
abbrev Word := BitVec 32

end Sys2Proof
end

