-- ==== Sys2Proof/Config.lean ====
section
/-! DEFINITION. The fixed constants of the framer (00_scope.md R6), the device addresses it names (20_memory.md R58) and its
implementation parameters (00_scope.md R7). -/

namespace Sys2Proof

namespace Config

/-- Frame-start marker, byte 0 of every frame (R6). -/
abbrev sof : Byte := 0x01#8
/-- Frame-end marker, the last byte of every frame (R6). -/
abbrev eof : Byte := 0x03#8
/-- Reply control byte, acknowledge (R6). -/
abbrev ack : Byte := 0x06#8
/-- Reply control byte, negative-acknowledge (R6). -/
abbrev nak : Byte := 0x15#8
/-- Flags bit: 1 = read, 0 = write (R6). -/
abbrev flagReadBit : Nat := 3
/-- Flags bit: checksum byte present (R6). -/
abbrev flagCksBit : Nat := 2
/-- Flags bit: 4-byte address present (R6). -/
abbrev flagExtBit : Nat := 0
/-- Index of the length byte in a frame (R6). -/
abbrev lenIndex : Nat := 2
/-- Index of the first payload byte of a reply data frame (R6). -/
abbrev payloadIndex : Nat := 3
/-- Size of the data field of every write frame (R6). -/
abbrev writeDataBytes : Nat := 4
/-- A base address at or above this takes the 4-byte address form (R6). -/
abbrev extThreshold : Nat := 65536
/-- Byte offset of a register's 4-byte value or size field (R6, R59). -/
abbrev fieldOffset : Byte := 4#8
/-- Byte offset of the variable-length value of an info or string register (R6, R59). -/
abbrev valueOffset : Byte := 8#8
/-- Least legal UserSetId (R6). -/
abbrev userSetMin : Int := 0
/-- Greatest legal UserSetId (R6). -/
abbrev userSetMax : Int := 3
/-- The value written to an "execute" style register (R6). -/
abbrev commandValue : Word := 1#32
/-- TX_BUF_BYTES, fixed: the longest request frame (R7, R26, D4). -/
abbrev txBufBytes : Nat := 13

/-- User-set selector (R58). -/
abbrev userSetSelector : Word := 0x00060040#32
/-- User-set load command (R58). -/
abbrev userSetLoadCommand : Word := 0x00060000#32
/-- User-set save command (R58). -/
abbrev userSetSaveCommand : Word := 0x00060020#32
/-- Default-user-set selector (R58). -/
abbrev defaultUserSetSelector : Word := 0x00060060#32
/-- Default-user-set-on-power-up override: in the map, used by no operation (R58, R215). -/
abbrev defaultUserSetOverride : Word := 0x00060080#32
/-- Tap-geometry register (R58). -/
abbrev tapGeometry : Word := 0x0720#32

/-- USE_CHECKSUM as State.reset has it. R7 leaves it OPEN (D6: "no default is imposed"), so nothing in Lean can tell which
value it is. DESIGN CHOICE, safe (log 2). -/
opaque useChecksum : Bool

/-- A text decoding other than the identity (R7 TEXT_DECODING, D7): any function from bytes to the bytes of the text.
Nothing in Lean can tell which. DESIGN CHOICE, safe (log 3). -/
opaque customText : List Byte → List Byte

end Config

/-- ADDR_WIDTH_MODE (R7, D1). -/
inductive AddrWidthMode where
  | intended         -- the 4-byte form exactly for base addresses of 65536 and above
  | legacyShortOnly  -- always the 2-byte form
deriving DecidableEq, Repr

/-- ETX_MODE (R7, D2). -/
inductive EtxMode where
  | lengthQualified  -- an end marker counts only behind the payload
  | anyEtx           -- any end marker behind the start marker counts
deriving DecidableEq, Repr

/-- TEXT_DECODING (R7, D7). -/
inductive TextDecoding where
  | identity
  | custom           -- the opaque Config.customText
deriving DecidableEq, Repr

/-- The implementation parameters (R7), fixed for the life of a model (R20, R38). No rule depends on rxTimeoutUnits: it
is only handed to the transport with each request for a byte (R186, log 4). -/
structure Params where
  addrWidthMode  : AddrWidthMode
  etxMode        : EtxMode
  rxBufBytes     : Nat
  rxTimeoutUnits : Nat
  useChecksum    : Bool
  textDecoding   : TextDecoding
deriving DecidableEq, Repr

/-- The defaults of R7; USE_CHECKSUM has none and stands as the opaque constant. -/
def Params.default : Params where
  addrWidthMode  := .intended
  etxMode        := .lengthQualified
  rxBufBytes     := 260
  rxTimeoutUnits := 1000
  useChecksum    := Config.useChecksum
  textDecoding   := .identity

/-- What R7 asks of the parameters: RX_BUF_BYTES is "natural, at least 260". -/
def Params.wf (p : Params) : Bool := decide (260 ≤ p.rxBufBytes)

end Sys2Proof
end

