-- ==== Sys2Proof/Machine/Flags.lean ====
section
/-! DEFINITION. The flags byte of a frame (30_encoding.md R74, 42_data_field.md R137) and the choice of the address width
(40_frame_encoder.md R102). The framer has no condition codes and no status flags (10_state.md R35). -/

namespace Sys2Proof.Machine

/-- The three named bits of a flags byte (R74). -/
structure FlagBits where
  read : Bool
  cks  : Bool
  ext  : Bool
deriving DecidableEq, Repr

/-- flags_pack of R74: READ in bit 3, CKS in bit 2, EXT in bit 0, every other bit zero (D16). -/
def flagsPack (read cks ext : Bool) : Byte :=
  ((BitVec.ofBool read).setWidth 8 <<< Config.flagReadBit) |||
    ((BitVec.ofBool cks).setWidth 8 <<< Config.flagCksBit) |||
    ((BitVec.ofBool ext).setWidth 8 <<< Config.flagExtBit)

/-- flags_unpack of R137: bits 7 to 4 and bit 1 carry no field. -/
def flagsUnpack (f : Byte) : FlagBits where
  read := f.getLsbD Config.flagReadBit
  cks  := f.getLsbD Config.flagCksBit
  ext  := f.getLsbD Config.flagExtBit

/-- Bits 7 to 4 and bit 1 are zero: what R85 requires of a request frame's flags byte. -/
def flagsUnnamedZero (f : Byte) : Bool := decide (f &&& 0xF2#8 = 0#8)

/-- addr_ext of R102: the unsigned comparison with 2^16, on the base address and without the offset (R76). -/
def addrExt (mode : AddrWidthMode) (baseAddress : Word) : Bool :=
  match mode with
  | .intended => decide (Config.extThreshold ≤ baseAddress.toNat)
  | .legacyShortOnly => false

/-- The number of address bytes for the EXT bit (R70). -/
def addrBytesCount (ext : Bool) : Nat := if ext then 4 else 2

end Sys2Proof.Machine
end

