-- ==== Sys2Proof/Machine/Operands.lean ====
section
/-! DEFINITION. The operand and field functions every unit shares: little-endian split and assemble (00_scope.md R13), the
exclusive-or fold (41_checksum.md R121), the data-field functions (42_data_field.md R130 to R135), the address field
(40_frame_encoder.md R103) and the layout of a request frame (30_encoding.md R70). -/

namespace Sys2Proof.Machine

/-- le_value of R13: the byte at the lowest index holds bits 7 to 0. -/
def leValue : List Byte → Nat
  | [] => 0
  | b :: bs => b.toNat + 256 * leValue bs

/-- le_bytes_4 of R13, R77: least significant byte first. -/
def leBytes4 (v : Word) : List Byte :=
  [v.extractLsb' 0 8, v.extractLsb' 8 8, v.extractLsb' 16 8, v.extractLsb' 24 8]

/-- le_bytes_2 of R13: the two bytes of a short address. -/
def leBytes2 (v : BitVec 16) : List Byte := [v.extractLsb' 0 8, v.extractLsb' 8 8]

/-- xor_fold of R121: the running exclusive-or, 0x00 for the empty sequence. -/
def xorFold (s : List Byte) : Byte := s.foldl (fun acc b => acc ^^^ b) 0#8

/-- INT_TO_FIELD of R130. -/
def intToField (value : Word) : List Byte := leBytes4 value

/-- PARSE_INT of R131: the first min(n, 4) bytes, zero-extended; the empty span decodes to 0 (D21). -/
def parseInt (bytes : List Byte) : Word := BitVec.ofNat 32 (leValue (bytes.take 4))

/-- PARSE_BOOL of R133: equality of the whole first byte with 1; an empty span has no meaning. -/
def parseBool : List Byte → Option Bool
  | [] => none
  | b :: _ => some (decide (b = 1#8))

/-- PARSE_TEXT of R134: TEXT_DECODING of the span, by default the span itself (D7). -/
def parseText (p : Params) (bytes : List Byte) : List Byte :=
  match p.textDecoding with
  | .identity => bytes
  | .custom => Config.customText bytes

/-- The first byte of MERGE_BOOL (R135): bit 0 becomes the flag, bits 7 to 1 stay. -/
def mergeBit0 (b : Byte) (flag : Bool) : Byte := (b &&& 0xFE#8) ||| (BitVec.ofBool flag).setWidth 8

/-- MERGE_BOOL of R135 on the bytes of a data field: only the first byte changes. -/
def mergeBool (field : List Byte) (flag : Bool) : List Byte :=
  match field with
  | [] => []
  | b :: rest => mergeBit0 b flag :: rest

/-- The low address byte of R103: the sum modulo 256, no carry into the next byte (D18). -/
def addrLow (baseAddress : Word) (offset : Byte) : Byte := baseAddress.extractLsb' 0 8 + offset

/-- addr_bytes of R103, with the byte selects of R139. -/
def addrBytes (baseAddress : Word) (offset : Byte) (ext : Bool) : List Byte :=
  if ext then
    [addrLow baseAddress offset, baseAddress.extractLsb' 8 8, baseAddress.extractLsb' 16 8, baseAddress.extractLsb' 24 8]
  else
    [addrLow baseAddress offset, baseAddress.extractLsb' 8 8]

/-- wire_address of R60: the base address with its low byte replaced. -/
def wireAddress (baseAddress : Word) (offset : Byte) : Word :=
  (baseAddress &&& 0xFFFFFF00#32) ||| (addrLow baseAddress offset).setWidth 32

/-- The fields of R70 in their order: start marker, flags, length, address and data, the checksum when it is present, end
marker. Nothing is escaped (R79). -/
def frame (flags dataLength : Byte) (addressAndData : List Byte) (cks : Bool) : List Byte :=
  let body := flags :: dataLength :: addressAndData
  Config.sof :: (body ++ ((if cks then [xorFold body] else []) ++ [Config.eof]))

/-- The frame BUILD_READ makes (R100), the length check apart. -/
def readFrame (mode : AddrWidthMode) (useChecksum : Bool) (dataLength : Byte) (baseAddress : Word) (offset : Byte) :
    List Byte :=
  frame (flagsPack true useChecksum (addrExt mode baseAddress)) dataLength
    (addrBytes baseAddress offset (addrExt mode baseAddress)) useChecksum

/-- The frame BUILD_WRITE makes (R110), the length check apart: the data field is always the 4 bytes of the value (R112). -/
def writeFrame (mode : AddrWidthMode) (useChecksum : Bool) (dataLength : Byte) (baseAddress : Word) (offset : Byte)
    (value : Word) : List Byte :=
  frame (flagsPack false useChecksum (addrExt mode baseAddress)) dataLength
    (addrBytes baseAddress offset (addrExt mode baseAddress) ++ leBytes4 value) useChecksum

/-- check_size of R207: a second-phase size must be 1 to 255. -/
def sizeFits (size : Word) : Bool := decide (size.toNat ≠ 0) && decide (size.toNat ≤ 255)

/-- The range check of R209: 0 to 3, signed. -/
def userSetInRange (id : Int) : Bool := decide (Config.userSetMin ≤ id) && decide (id ≤ Config.userSetMax)

end Sys2Proof.Machine
end

