-- ==== Sys2Proof/Syntax.lean ====
section
/-! DEFINITION. The syntax: one constructor for each of the 45 rows of spec/opcode_table.json, the transactions they arrive
in (10_state.md R39), and the receive events (43_link_state_machine.md R151). -/

namespace Sys2Proof

/-- A receive event (R151): the three results of the transport's readByte. -/
inductive RxEvent where
  | byte (b : Byte)
  | timeout
  | ioError
deriving DecidableEq, Repr

/-- The 45 rows of the table. -/
inductive Instr where
  /- The eight request frame forms (R72), with the fields of R71: the length byte, the address as the frame carries it, the
  data field, the checksum byte and the end marker, each read at its byte index (R93). -/
  | rdS (len : Byte) (addr : BitVec 16) (eof : Byte)
  | rdSC (len : Byte) (addr : BitVec 16) (cks eof : Byte)
  | rdX (len : Byte) (addr : Word) (eof : Byte)
  | rdXC (len : Byte) (addr : Word) (cks eof : Byte)
  | wrS (len : Byte) (addr : BitVec 16) (value : Word) (eof : Byte)
  | wrSC (len : Byte) (addr : BitVec 16) (value : Word) (cks eof : Byte)
  | wrX (len : Byte) (addr : Word) (value : Word) (eof : Byte)
  | wrXC (len : Byte) (addr : Word) (value : Word) (cks eof : Byte)
  /- The replies (R80, R81). -/
  | ack
  | nak
  | data (flags : Byte) (payload trailing : List Byte)
  /- The receive events (R153); a row that stands for several byte values carries the byte. -/
  | rxIdleSof
  | rxIdleAck
  | rxIdleNak
  | rxIdleOther (b : Byte)
  | rxAwaitOverflow (b : Byte)
  | rxAwaitData (b : Byte)
  | rxAwaitEtx
  | rxAwaitEtxShort
  | rxTimeout
  | rxIoError
  /- The operations of the OP interface (R90) with the operands of R22. -/
  | buildRead (useChecksum : Bool) (dataLength : Byte) (baseAddress : Word) (offset : Byte)
  | buildWrite (useChecksum : Bool) (dataLength : Byte) (baseAddress : Word) (offset : Byte) (value : Word)
  | checksum (bytes : List Byte)
  | parseInt (bytes : List Byte)
  | parseText (bytes : List Byte)
  | parseBool (bytes : List Byte)
  | intToField (value : Word)
  | mergeBool (b0 b1 b2 b3 : Byte) (flag : Bool)
  | readExchange
  | writeExchange
  | opUnassigned (code : BitVec 4)
  /- The pseudo-operations of the host layer (R92). -/
  | readEnum (address : Word)
  | readBool (address : Word)
  | readInfo (address : Word)
  | readString (address : Word)
  | writeEnum (address : Word) (value : Word)
  | writeBool (address : Word) (flag : Bool)
  | writeCommandReg (address : Word)
  | userSetSelect (id : Int)
  | userSetDefaultSelect (id : Int)
  | userSetLoad (id : Int) (doSelect : Bool)
  | userSetSave (id : Int) (doSelect : Bool)
  | userSetGetCurrent
  | userSetGetDefault
deriving DecidableEq, Repr

/-- What a transaction is presented as. The spec keeps the namespaces apart (select codes R90, bytes on the RX interface R83,
frames R93); the same byte means different rows in different ones. DESIGN CHOICE (log 9, log 10). -/
inductive Channel where
  | op      -- an operation of the OP interface: a select code, then its operands
  | host    -- a pseudo-operation of the host layer
  | frame   -- a request frame, given as its bytes
  | reply   -- a whole reply of the device, given as its bytes
  | rx      -- one receive event
deriving DecidableEq, Repr

/-- One transaction, "taken whole or not at all" (R39). -/
structure Transaction where
  ch    : Channel
  bytes : List Byte
deriving DecidableEq, Repr

/-- What the classification of a received byte depends on besides its value (R83, R153, R159, R160). -/
structure RxCtx where
  awaiting : Bool  -- rx_state = AwaitingEnd
  full     : Bool  -- rx_count = RX_BUF_BYTES
  ends     : Bool  -- end_recognised(rx_count) for an end marker arriving now
  sliceOk  : Bool  -- rx_len_valid = 1 and 3 + rx_len <= rx_count, the end marker stored
deriving DecidableEq, Repr

/-- The classification right after reset: Idle, nothing accumulated (R260). -/
def RxCtx.reset : RxCtx where
  awaiting := false
  full     := false
  ends     := false
  sliceOk  := false

end Sys2Proof
end

