-- ==== Sys2Proof/WellFormed.lean ====
section
/-! DEFINITION. Which terms of the syntax are well-formed instructions, and in which states a receive event's row is the
class of its byte (30_encoding.md R83). -/

namespace Sys2Proof

/-- The bytes of a request frame from the flags byte up to the checksum, by its parts (R78). -/
def frameBody (flags len : Byte) (addressAndData : List Byte) : List Byte := flags :: len :: addressAndData

/-- What R85 requires of a frame's fields, the checksum apart: dataLength not 0 and the end marker 0x03. -/
def frameFieldsOk (len eof : Byte) : Bool := decide (len ≠ 0#8) && decide (eof = Config.eof)

/-- The checks on the fields of an instruction: a request frame is one R85 accepts; a reply data frame has a length the
length byte can hold, and flags, payload and trailing bytes of any value (R81, R84); a noise byte is none of the three
control values (R158); an unassigned code is 0xA to 0xF (R90); a UserSetId fits the 32 bits it is presented in (log 21). -/
def Instr.wf : Instr → Bool
  | .rdS len _ eof => frameFieldsOk len eof
  | .rdSC len addr cks eof =>
    frameFieldsOk len eof && decide (cks = Machine.xorFold (frameBody 0x0C#8 len (Machine.leBytes2 addr)))
  | .rdX len _ eof => frameFieldsOk len eof
  | .rdXC len addr cks eof =>
    frameFieldsOk len eof && decide (cks = Machine.xorFold (frameBody 0x0D#8 len (Machine.leBytes4 addr)))
  | .wrS len _ _ eof => frameFieldsOk len eof
  | .wrSC len addr value cks eof =>
    frameFieldsOk len eof &&
      decide (cks = Machine.xorFold (frameBody 0x04#8 len (Machine.leBytes2 addr ++ Machine.leBytes4 value)))
  | .wrX len _ _ eof => frameFieldsOk len eof
  | .wrXC len addr value cks eof =>
    frameFieldsOk len eof &&
      decide (cks = Machine.xorFold (frameBody 0x05#8 len (Machine.leBytes4 addr ++ Machine.leBytes4 value)))
  | .ack => true
  | .nak => true
  | .data _ payload _ => decide (payload.length ≤ 255)
  | .rxIdleSof => true
  | .rxIdleAck => true
  | .rxIdleNak => true
  | .rxIdleOther b => decide (b ≠ Config.sof) && decide (b ≠ Config.ack) && decide (b ≠ Config.nak)
  | .rxAwaitOverflow _ => true
  | .rxAwaitData _ => true
  | .rxAwaitEtx => true
  | .rxAwaitEtxShort => true
  | .rxTimeout => true
  | .rxIoError => true
  | .buildRead _ _ _ _ => true
  | .buildWrite _ _ _ _ _ => true
  | .checksum _ => true
  | .parseInt _ => true
  | .parseText _ => true
  | .parseBool _ => true
  | .intToField _ => true
  | .mergeBool _ _ _ _ _ => true
  | .readExchange => true
  | .writeExchange => true
  | .opUnassigned code => decide (10 ≤ code.toNat)
  | .readEnum _ => true
  | .readBool _ => true
  | .readInfo _ => true
  | .readString _ => true
  | .writeEnum _ _ => true
  | .writeBool _ _ => true
  | .writeCommandReg _ => true
  | .userSetSelect id => decide (-2147483648 ≤ id) && decide (id < 2147483648)
  | .userSetDefaultSelect id => decide (-2147483648 ≤ id) && decide (id < 2147483648)
  | .userSetLoad id _ => decide (-2147483648 ≤ id) && decide (id < 2147483648)
  | .userSetSave id _ => decide (-2147483648 ≤ id) && decide (id < 2147483648)
  | .userSetGetCurrent => true
  | .userSetGetDefault => true

/-- The state condition of a receive event's row (R153); every other instruction is admitted in every state. -/
def Instr.admitted (c : RxCtx) : Instr → Bool
  | .rxIdleSof => !c.awaiting
  | .rxIdleAck => !c.awaiting
  | .rxIdleNak => !c.awaiting
  | .rxIdleOther _ => !c.awaiting
  | .rxAwaitOverflow _ => c.awaiting && c.full
  | .rxAwaitData b => c.awaiting && !c.full && !(decide (b = Config.eof) && c.ends)
  | .rxAwaitEtx => c.awaiting && !c.full && c.ends && c.sliceOk
  | .rxAwaitEtxShort => c.awaiting && !c.full && c.ends && !c.sliceOk
  | .rdS _ _ _ => true
  | .rdSC _ _ _ _ => true
  | .rdX _ _ _ => true
  | .rdXC _ _ _ _ => true
  | .wrS _ _ _ _ => true
  | .wrSC _ _ _ _ _ => true
  | .wrX _ _ _ _ => true
  | .wrXC _ _ _ _ _ => true
  | .ack => true
  | .nak => true
  | .data _ _ _ => true
  | .rxTimeout => true
  | .rxIoError => true
  | .buildRead _ _ _ _ => true
  | .buildWrite _ _ _ _ _ => true
  | .checksum _ => true
  | .parseInt _ => true
  | .parseText _ => true
  | .parseBool _ => true
  | .intToField _ => true
  | .mergeBool _ _ _ _ _ => true
  | .readExchange => true
  | .writeExchange => true
  | .opUnassigned _ => true
  | .readEnum _ => true
  | .readBool _ => true
  | .readInfo _ => true
  | .readString _ => true
  | .writeEnum _ _ => true
  | .writeBool _ _ => true
  | .writeCommandReg _ => true
  | .userSetSelect _ => true
  | .userSetDefaultSelect _ => true
  | .userSetLoad _ _ => true
  | .userSetSave _ _ => true
  | .userSetGetCurrent => true
  | .userSetGetDefault => true

end Sys2Proof
end

