-- ==== Sys2Proof/Decode.lean ====
section
/-! DEFINITION. Decoding a transaction into an instruction, total on any bytes and rejecting by name, and the encoder. The
request frames follow 30_encoding.md R72 and R93, the replies R80 to R82, the classes of a received byte R83, the select
codes R90. The operand layout behind a select code, the codes of the host layer and the two tags of the events that are not
bytes are the model's own (DESIGN CHOICE, log 10): the spec gives them no encoding. -/

namespace Sys2Proof

/-- Why a transaction encodes nothing. -/
inductive DecodeError where
  | empty          -- no byte at all
  | selectCode     -- the first byte is no 4-bit select code (R90) or no code of the host layer
  | operandBytes   -- not the operand bytes the operation takes
  | booleanByte    -- a boolean operand that is neither 0 nor 1
  | frameForm      -- the first two bytes match none of the eight forms (R93)
  | frameLength    -- not the number of bytes the form has (R73)
  | replyForm      -- neither a control byte nor a whole reply data frame (R80, R81)
  | eventTag       -- no receive event (R151)
deriving DecidableEq, Repr

/-- A boolean operand byte. -/
def decodeFlag (b : Byte) : Except DecodeError Bool :=
  if b = 0#8 then .ok false else if b = 1#8 then .ok true else .error .booleanByte

/-- The byte of a boolean operand. -/
def encodeFlag (b : Bool) : Byte := (BitVec.ofBool b).setWidth 8

/-- Two little-endian bytes (R76, short form). -/
def word16 (b0 b1 : Byte) : BitVec 16 := BitVec.ofNat 16 (Machine.leValue [b0, b1])

/-- Four little-endian bytes (R13). -/
def word32 (b0 b1 b2 b3 : Byte) : Word := BitVec.ofNat 32 (Machine.leValue [b0, b1, b2, b3])

/-- The bytes of a UserSetId: 32 bits, two's complement (log 21). -/
def encodeId (id : Int) : List Byte := Machine.leBytes4 (BitVec.ofInt 32 id)

/-- The UserSetId of four bytes (log 21). -/
def decodeId (b0 b1 b2 b3 : Byte) : Int := (word32 b0 b1 b2 b3).toInt

/-- The bytes a request form has behind its flags byte (R71, R72). -/
def formTail (flags : Byte) : Nat :=
  let f := Machine.flagsUnpack flags
  (if f.read then 4 else 8) + Machine.addrBytesCount f.ext + (if f.cks then 1 else 0) - 2

/-- R93: match the first two bytes, then take each field at its byte index. -/
def decodeFrame : List Byte → Except DecodeError Instr
  | [] => .error .empty
  | [_] => .error .frameForm
  | start :: flags :: rest =>
    if start = Config.sof then
      match flags.toNat with
      | 0x08 =>
        match rest with
        | [n, a0, a1, e] => .ok (.rdS n (word16 a0 a1) e)
        | _ => .error .frameLength
      | 0x0C =>
        match rest with
        | [n, a0, a1, k, e] => .ok (.rdSC n (word16 a0 a1) k e)
        | _ => .error .frameLength
      | 0x09 =>
        match rest with
        | [n, a0, a1, a2, a3, e] => .ok (.rdX n (word32 a0 a1 a2 a3) e)
        | _ => .error .frameLength
      | 0x0D =>
        match rest with
        | [n, a0, a1, a2, a3, k, e] => .ok (.rdXC n (word32 a0 a1 a2 a3) k e)
        | _ => .error .frameLength
      | 0x00 =>
        match rest with
        | [n, a0, a1, v0, v1, v2, v3, e] => .ok (.wrS n (word16 a0 a1) (word32 v0 v1 v2 v3) e)
        | _ => .error .frameLength
      | 0x04 =>
        match rest with
        | [n, a0, a1, v0, v1, v2, v3, k, e] => .ok (.wrSC n (word16 a0 a1) (word32 v0 v1 v2 v3) k e)
        | _ => .error .frameLength
      | 0x01 =>
        match rest with
        | [n, a0, a1, a2, a3, v0, v1, v2, v3, e] => .ok (.wrX n (word32 a0 a1 a2 a3) (word32 v0 v1 v2 v3) e)
        | _ => .error .frameLength
      | 0x05 =>
        match rest with
        | [n, a0, a1, a2, a3, v0, v1, v2, v3, k, e] => .ok (.wrXC n (word32 a0 a1 a2 a3) (word32 v0 v1 v2 v3) k e)
        | _ => .error .frameLength
      | _ => .error .frameForm
    else .error .frameForm

/-- R80, R81: one control byte, or a data frame: its payload, then trailing bytes of any value (R84), then the end marker. Where
the link state machine ends the frame is R82, not the layout. -/
def decodeReply : List Byte → Except DecodeError Instr
  | [] => .error .empty
  | [b] => if b = Config.ack then .ok .ack else if b = Config.nak then .ok .nak else .error .replyForm
  | start :: flags :: rest =>
    if start = Config.sof then
      match rest with
      | [] => .error .replyForm
      | n :: body =>
        if n.toNat < body.length ∧ body.getLast? = some Config.eof then
          .ok (.data flags (body.take n.toNat) (body.drop n.toNat).dropLast)
        else .error .replyForm
    else .error .replyForm

/-- The class of a received byte by its value and the state it arrives in (R83, R153); the order of the tests is R241 (d). -/
def classifyByte (c : RxCtx) (b : Byte) : Instr :=
  if c.awaiting then
    if c.full then .rxAwaitOverflow b
    else if b = Config.eof ∧ c.ends = true then
      (if c.sliceOk then .rxAwaitEtx else .rxAwaitEtxShort)
    else .rxAwaitData b
  else if b = Config.sof then .rxIdleSof
  else if b = Config.ack then .rxIdleAck
  else if b = Config.nak then .rxIdleNak
  else .rxIdleOther b

/-- The row of a receive event (R153). -/
def classify (c : RxCtx) : RxEvent → Instr
  | .byte b => classifyByte c b
  | .timeout => .rxTimeout
  | .ioError => .rxIoError

/-- A receive event: tag 0 and the byte, tag 1 Timeout, tag 2 IoError (log 10). -/
def decodeEvent : List Byte → Except DecodeError RxEvent
  | [] => .error .empty
  | [t] => if t = 1#8 then .ok .timeout else if t = 2#8 then .ok .ioError else .error .eventTag
  | [t, b] => if t = 0#8 then .ok (.byte b) else .error .eventTag
  | _ => .error .eventTag

/-- The OP interface: the select code of R90 in the low four bits of the first byte, then the operands of R22 in the order of
R90, numbers little-endian, a byte sequence as the rest of the transaction (log 10). -/
def decodeOp : List Byte → Except DecodeError Instr
  | [] => .error .empty
  | code :: ops =>
    match code.toNat with
    | 0x0 =>
      match ops with
      | [c, n, a0, a1, a2, a3, o] => (decodeFlag c).map fun f => .buildRead f n (word32 a0 a1 a2 a3) o
      | _ => .error .operandBytes
    | 0x1 =>
      match ops with
      | [c, n, a0, a1, a2, a3, o, v0, v1, v2, v3] =>
        (decodeFlag c).map fun f => .buildWrite f n (word32 a0 a1 a2 a3) o (word32 v0 v1 v2 v3)
      | _ => .error .operandBytes
    | 0x2 => .ok (.checksum ops)
    | 0x3 => .ok (.parseInt ops)
    | 0x4 => .ok (.parseText ops)
    | 0x5 => .ok (.parseBool ops)
    | 0x6 =>
      match ops with
      | [v0, v1, v2, v3] => .ok (.intToField (word32 v0 v1 v2 v3))
      | _ => .error .operandBytes
    | 0x7 =>
      match ops with
      | [b0, b1, b2, b3, f] => (decodeFlag f).map fun g => .mergeBool b0 b1 b2 b3 g
      | _ => .error .operandBytes
    | 0x8 => if ops = [] then .ok .readExchange else .error .operandBytes
    | 0x9 => if ops = [] then .ok .writeExchange else .error .operandBytes
    | k =>
      if k < 16 then (if ops = [] then .ok (.opUnassigned (BitVec.ofNat 4 k)) else .error .operandBytes)
      else .error .selectCode

/-- The host layer: codes 0 to 12 in the order of R92, then the operands of R92 (log 10). -/
def decodeHost : List Byte → Except DecodeError Instr
  | [] => .error .empty
  | code :: ops =>
    match code.toNat with
    | 0 =>
      match ops with
      | [a0, a1, a2, a3] => .ok (.readEnum (word32 a0 a1 a2 a3))
      | _ => .error .operandBytes
    | 1 =>
      match ops with
      | [a0, a1, a2, a3] => .ok (.readBool (word32 a0 a1 a2 a3))
      | _ => .error .operandBytes
    | 2 =>
      match ops with
      | [a0, a1, a2, a3] => .ok (.readInfo (word32 a0 a1 a2 a3))
      | _ => .error .operandBytes
    | 3 =>
      match ops with
      | [a0, a1, a2, a3] => .ok (.readString (word32 a0 a1 a2 a3))
      | _ => .error .operandBytes
    | 4 =>
      match ops with
      | [a0, a1, a2, a3, v0, v1, v2, v3] => .ok (.writeEnum (word32 a0 a1 a2 a3) (word32 v0 v1 v2 v3))
      | _ => .error .operandBytes
    | 5 =>
      match ops with
      | [a0, a1, a2, a3, f] => (decodeFlag f).map fun g => .writeBool (word32 a0 a1 a2 a3) g
      | _ => .error .operandBytes
    | 6 =>
      match ops with
      | [a0, a1, a2, a3] => .ok (.writeCommandReg (word32 a0 a1 a2 a3))
      | _ => .error .operandBytes
    | 7 =>
      match ops with
      | [d0, d1, d2, d3] => .ok (.userSetSelect (decodeId d0 d1 d2 d3))
      | _ => .error .operandBytes
    | 8 =>
      match ops with
      | [d0, d1, d2, d3] => .ok (.userSetDefaultSelect (decodeId d0 d1 d2 d3))
      | _ => .error .operandBytes
    | 9 =>
      match ops with
      | [d0, d1, d2, d3, f] => (decodeFlag f).map fun g => .userSetLoad (decodeId d0 d1 d2 d3) g
      | _ => .error .operandBytes
    | 10 =>
      match ops with
      | [d0, d1, d2, d3, f] => (decodeFlag f).map fun g => .userSetSave (decodeId d0 d1 d2 d3) g
      | _ => .error .operandBytes
    | 11 => if ops = [] then .ok .userSetGetCurrent else .error .operandBytes
    | 12 => if ops = [] then .ok .userSetGetDefault else .error .operandBytes
    | _ => .error .selectCode

/-- A transaction of the RX interface; the others are operations of the host (R39). -/
def Channel.isRx : Channel → Bool
  | .op => false
  | .host => false
  | .frame => false
  | .reply => true
  | .rx => true

/-- The instruction of a transaction; only a receive event's row depends on the state it arrives in (R83). -/
def decode (c : RxCtx) (t : Transaction) : Except DecodeError Instr :=
  match t.ch with
  | .op => decodeOp t.bytes
  | .host => decodeHost t.bytes
  | .frame => decodeFrame t.bytes
  | .reply => decodeReply t.bytes
  | .rx => (decodeEvent t.bytes).map (classify c)

/-- The transaction of a receive event (log 10). -/
def encodeEvent : RxEvent → Transaction
  | .byte b => ⟨.rx, [0#8, b]⟩
  | .timeout => ⟨.rx, [1#8]⟩
  | .ioError => ⟨.rx, [2#8]⟩

/-- The encoder: the transaction of an instruction, from the tables of R72, R80, R81, R83 and R90. -/
def encode : Instr → Transaction
  | .rdS n a e => ⟨.frame, Config.sof :: 0x08#8 :: n :: (Machine.leBytes2 a ++ [e])⟩
  | .rdSC n a k e => ⟨.frame, Config.sof :: 0x0C#8 :: n :: (Machine.leBytes2 a ++ [k, e])⟩
  | .rdX n a e => ⟨.frame, Config.sof :: 0x09#8 :: n :: (Machine.leBytes4 a ++ [e])⟩
  | .rdXC n a k e => ⟨.frame, Config.sof :: 0x0D#8 :: n :: (Machine.leBytes4 a ++ [k, e])⟩
  | .wrS n a v e => ⟨.frame, Config.sof :: 0x00#8 :: n :: (Machine.leBytes2 a ++ Machine.leBytes4 v ++ [e])⟩
  | .wrSC n a v k e => ⟨.frame, Config.sof :: 0x04#8 :: n :: (Machine.leBytes2 a ++ Machine.leBytes4 v ++ [k, e])⟩
  | .wrX n a v e => ⟨.frame, Config.sof :: 0x01#8 :: n :: (Machine.leBytes4 a ++ Machine.leBytes4 v ++ [e])⟩
  | .wrXC n a v k e => ⟨.frame, Config.sof :: 0x05#8 :: n :: (Machine.leBytes4 a ++ Machine.leBytes4 v ++ [k, e])⟩
  | .ack => ⟨.reply, [Config.ack]⟩
  | .nak => ⟨.reply, [Config.nak]⟩
  | .data f payload trailing =>
    ⟨.reply, Config.sof :: f :: BitVec.ofNat 8 payload.length :: (payload ++ (trailing ++ [Config.eof]))⟩
  | .rxIdleSof => encodeEvent (.byte Config.sof)
  | .rxIdleAck => encodeEvent (.byte Config.ack)
  | .rxIdleNak => encodeEvent (.byte Config.nak)
  | .rxIdleOther b => encodeEvent (.byte b)
  | .rxAwaitOverflow b => encodeEvent (.byte b)
  | .rxAwaitData b => encodeEvent (.byte b)
  | .rxAwaitEtx => encodeEvent (.byte Config.eof)
  | .rxAwaitEtxShort => encodeEvent (.byte Config.eof)
  | .rxTimeout => encodeEvent .timeout
  | .rxIoError => encodeEvent .ioError
  | .buildRead c n a o => ⟨.op, 0x0#8 :: encodeFlag c :: n :: (Machine.leBytes4 a ++ [o])⟩
  | .buildWrite c n a o v => ⟨.op, 0x1#8 :: encodeFlag c :: n :: (Machine.leBytes4 a ++ o :: Machine.leBytes4 v)⟩
  | .checksum bytes => ⟨.op, 0x2#8 :: bytes⟩
  | .parseInt bytes => ⟨.op, 0x3#8 :: bytes⟩
  | .parseText bytes => ⟨.op, 0x4#8 :: bytes⟩
  | .parseBool bytes => ⟨.op, 0x5#8 :: bytes⟩
  | .intToField v => ⟨.op, 0x6#8 :: Machine.leBytes4 v⟩
  | .mergeBool b0 b1 b2 b3 f => ⟨.op, [0x7#8, b0, b1, b2, b3, encodeFlag f]⟩
  | .readExchange => ⟨.op, [0x8#8]⟩
  | .writeExchange => ⟨.op, [0x9#8]⟩
  | .opUnassigned code => ⟨.op, [code.setWidth 8]⟩
  | .readEnum a => ⟨.host, 0#8 :: Machine.leBytes4 a⟩
  | .readBool a => ⟨.host, 1#8 :: Machine.leBytes4 a⟩
  | .readInfo a => ⟨.host, 2#8 :: Machine.leBytes4 a⟩
  | .readString a => ⟨.host, 3#8 :: Machine.leBytes4 a⟩
  | .writeEnum a v => ⟨.host, 4#8 :: (Machine.leBytes4 a ++ Machine.leBytes4 v)⟩
  | .writeBool a f => ⟨.host, 5#8 :: (Machine.leBytes4 a ++ [encodeFlag f])⟩
  | .writeCommandReg a => ⟨.host, 6#8 :: Machine.leBytes4 a⟩
  | .userSetSelect id => ⟨.host, 7#8 :: encodeId id⟩
  | .userSetDefaultSelect id => ⟨.host, 8#8 :: encodeId id⟩
  | .userSetLoad id f => ⟨.host, 9#8 :: (encodeId id ++ [encodeFlag f])⟩
  | .userSetSave id f => ⟨.host, 10#8 :: (encodeId id ++ [encodeFlag f])⟩
  | .userSetGetCurrent => ⟨.host, [11#8]⟩
  | .userSetGetDefault => ⟨.host, [12#8]⟩

/-- What request_decode of R85 recovers: the fields of a request frame, with the wire address (R60), not the pair of base
address and offset. A read frame has no value. -/
structure Request where
  read        : Bool
  cks         : Bool
  ext         : Bool
  dataLength  : Byte
  wireAddress : Word
  value       : Option Word
deriving DecidableEq, Repr

/-- request_decode of R85: the strict inverse of R70 to R79, with every require of the rule. -/
def requestDecode (s : List Byte) : Option Request :=
  let flags := s.getD 1 0#8
  let f := Machine.flagsUnpack flags
  let a := Machine.addrBytesCount f.ext
  let dataLength := s.getD Config.lenIndex 0#8
  if 6 ≤ s.length ∧ s.head? = some Config.sof ∧ Machine.flagsUnnamedZero flags = true ∧
      s.length = (if f.read then 4 else 8) + a + (if f.cks then 1 else 0) ∧
      s.getLast? = some Config.eof ∧ dataLength ≠ 0#8 ∧
      (f.cks = false ∨ Machine.xorFold (s.dropLast.drop 1) = 0#8) then
    some
      { read := f.read, cks := f.cks, ext := f.ext, dataLength := dataLength
        wireAddress := BitVec.ofNat 32 (Machine.leValue ((s.drop 3).take a))
        value := if f.read then none else some (BitVec.ofNat 32 (Machine.leValue ((s.drop (3 + a)).take 4))) }
  else none

/-- Whether a build makes this request frame under an ADDR_WIDTH_MODE: a build with the wire address as base address and
offset 0 chooses the same address width. "Under ADDR_WIDTH_MODE = INTENDED a frame with ext = 1 and wire_address < 65536 is never
produced by the encoder" (R85), and under LEGACY_SHORT_ONLY none with ext = 1 is (R102). -/
def Request.isBuilt (mode : AddrWidthMode) (r : Request) : Bool :=
  decide (r.ext = Machine.addrExt mode r.wireAddress)

/-- The request a build encodes as these bytes, if one does. -/
def builtRequest (mode : AddrWidthMode) (s : List Byte) : Option Request :=
  match requestDecode s with
  | some r => if r.isBuilt mode then some r else none
  | none => none

/-- The bytes of a table word: 16-bit words from bit 0 up, each with its first-sent byte in bits 15 to 8, as the table's
match of a request frame is numbered, (byte 0 << 8) or byte 1 (R93, log 12). -/
def tableBytes : Nat → Nat → List Byte
  | 0, _ => []
  | k + 1, w => BitVec.ofNat 8 (w / 256) :: BitVec.ofNat 8 w :: tableBytes k (w / 65536)

/-- How many operand bytes of zeros stand behind a select code: the operands of R22, and the 4 bytes of a data field for a
byte sequence (log 12). -/
def zeroOperandBytes (code : Nat) : Nat :=
  match code with
  | 0x0 => 7
  | 0x1 => 11
  | 0x2 => 4
  | 0x3 => 4
  | 0x4 => 4
  | 0x5 => 4
  | 0x6 => 4
  | 0x7 => 5
  | _ => 0

/-- The transaction that presents a word of the opcode table, every bit above nbits zero (log 12). A word of at most 8 bits
is a select code when it is below 16, the reply byte 0x15, else a received byte; a longer one is a request frame. -/
def tableTransaction (nbits w : Nat) : Transaction :=
  if nbits ≤ 8 then
    if w < 16 then ⟨.op, BitVec.ofNat 8 w :: List.replicate (zeroOperandBytes w) 0#8⟩
    else if w = 0x15 then ⟨.reply, [Config.nak]⟩
    else ⟨.rx, [0#8, BitVec.ofNat 8 w]⟩
  else
    let bytes := tableBytes ((nbits + 15) / 16) (w % 2 ^ nbits) ++ List.replicate 13 0#8
    ⟨.frame, bytes.take (2 + formTail (bytes.getD 1 0#8))⟩

/-- The instruction the decoder reads from a word of the opcode table, in the state reset leaves (log 12). -/
def decodeTableWord (nbits w : Nat) : Option Instr :=
  match decode RxCtx.reset (tableTransaction nbits w) with
  | .ok i => some i
  | .error _ => none

end Sys2Proof
end

