-- ==== Sys2Proof/Machine/State.lean ====
section
/-! DEFINITION. The state of the machine: the registers and buffers of 10_state.md R21, the parameters of 00_scope.md R7, and
the model's own fields for the four interfaces of R39 and the blocking call (INVENTORY.md lists each). -/

namespace Sys2Proof.Machine

/-- A buffer: (index, byte) pairs with strictly rising indexes. An index that is not listed holds no value (R37). -/
abbrev Memory := List Host.Cell

/-- The two states of the link state machine (R28). -/
inductive RxState where
  | idle
  | awaitingEnd
deriving DecidableEq, Repr

/-- xchg_state (R33). -/
inductive XchgState where
  | free
  | sending
  | awaitRead
  | awaitWrite
deriving DecidableEq, Repr

/-- The reason of a ProtocolError (R152, R230). -/
inductive FrameFault where
  | overflow
  | shortFrame
deriving DecidableEq, Repr

/-- A terminal outcome of the link state machine (R152). ProtocolError carries the reason, the expected length if it was
captured, and the actual count. -/
inductive LinkOutcome where
  | acknowledged
  | negativeAcknowledged
  | frameComplete (payload : List Byte)
  | protocolError (reason : FrameFault) (expected : Option Byte) (actual : Nat)
  | timeout
  | ioError
deriving DecidableEq, Repr

/-- A diagnostic event (R250). -/
inductive Diag where
  | unexpectedByte (b : Byte)
  | sizeWarning (size : Word)
deriving DecidableEq, Repr

/-- The status of an operation: Ok or one of the seven error kinds (R230). -/
inductive Status where
  | ok
  | invalidLength
  | emptyInput
  | outOfRange
  | nak
  | timeout
  | ioError
  | protocolError (reason : FrameFault) (expected : Option Byte) (actual : Nat)
deriving DecidableEq, Repr

/-- The result of an operation (R22). -/
inductive OpResult where
  | none
  | byte (b : Byte)
  | word (w : Word)
  | bool (b : Bool)
  | bytes (bs : List Byte)
deriving DecidableEq, Repr

/-- A completion on the OP interface: "its status and result" (R39). -/
structure Completion where
  status : Status
  result : OpResult
deriving DecidableEq, Repr

/-- The transport's answer to one offered byte (R39, R183). -/
inductive TxAnswer where
  | accepted
  | failed
deriving DecidableEq, Repr

/-- The blocking call in progress and where it stands: what is done with the outcome that resolves the exchange in flight
(R187, R188, R202 to R214). The model's own: the source has a call stack here. DESIGN CHOICE (log 15). -/
inductive HostTask where
  | idle                                    -- no operation in progress
  | readExchange                            -- READ_EXCHANGE: give the payload
  | writeExchange                           -- WRITE_EXCHANGE: give the boolean
  | readEnum                                -- R202, R213, R214: decode the payload as an integer
  | readBool                                -- R203: decode it as a boolean
  | infoSize (address : Word)               -- R204 readInfo, first phase
  | infoData                                -- R204 readInfo, second phase
  | stringSize (address : Word)             -- R204 readString, first phase
  | stringData                              -- R204 readString, second phase
  | boolRead (address : Word) (flag : Bool) -- R206 writeBool, the read
  | writeFinal                              -- R205, R206, R208, R209, R210: give the boolean
  | selectThen (command : Word)             -- R211, R212: the select; then write the command register
deriving DecidableEq, Repr

/-- The state of the link state machine: "rx_state, RXB, rx_count, rx_len, rx_len_valid" (R150). -/
structure Link where
  rxState    : RxState
  rxb        : Memory
  rxCount    : Nat
  rxLen      : Byte
  rxLenValid : Bool
deriving DecidableEq, Repr

/-- The whole machine. -/
structure State where
  -- the implementation parameters, written by nothing (R7, R20, R38; log 1)
  params    : Params
  -- the spec's own state (R21)
  txb       : Memory
  txLen     : Nat
  txIdx     : Nat
  link      : Link
  xchg      : XchgState
  -- the blocking call in progress (log 15)
  task      : HostTask
  -- the OP interface: what is presented, and the last completion (R39; log 9, log 13)
  port      : List Transaction
  done      : Option Completion
  -- the TX interface: the transport's coming answers, and the bytes it has accepted (R39; log 7, log 14)
  txAnswers : List TxAnswer
  txWire    : List Byte
  -- the RX interface: the coming receive events, and the outcome of the last transition (R39, R152; log 7, log 14)
  rxQueue   : List RxEvent
  lsmOut    : Option LinkOutcome
  -- the DIAG interface: what was emitted (R39, R250; log 14)
  diag      : List Diag
deriving DecidableEq, Repr

/-- Why the model stops because the specified behaviour was left. -/
inductive Fault where
  /-- A read of an index of TXB or RXB that holds no value, raised by every read of a buffer (R37, U17). Safe: the model stops
  where the spec gives no value. -/
  | bufferNoValue
  /-- A read of rx_len while rx_len_valid = 0, raised by the end-marker test and the host's read (R37, U17). Safe. -/
  | rxLenNoValue
  /-- A write of an index outside the 13 bytes of TXB or the RX_BUF_BYTES bytes of RXB, raised by every write of a buffer
  (R26, R30, R50). No state that meets R168 reaches it. Safe. -/
  | bufferRange
deriving DecidableEq, Repr

/-- Why a step has no meaning. -/
inductive Refusal where
  /-- An instruction without a meaning: raised by an arm of exec alone. Safe. -/
  | notModelled (mnemonic : String)
  /-- A select code 0xA to 0xF "selects nothing" and is refused (R90, U15), raised by OP.UNASSIGNED. Safe. -/
  | unassignedSelectCode
  /-- An exchange invoked with tx_len = 0 (R182, U14), raised by READ_EXCHANGE and WRITE_EXCHANGE. Safe. -/
  | noFrameBuilt
  /-- An operation issued while an exchange is in flight (R23, R182, U14, U16), raised by every operation. Safe. -/
  | operationInProgress
  /-- PARSE_BOOL of an empty span (R133, U12), raised by PARSE_BOOL and by readBool on an empty payload. Safe. -/
  | parseBoolEmpty
  /-- A byte sequence that is no request frame: request_decode refuses it (R85, R93, U1), raised by the eight frame forms. Safe. -/
  | notARequestFrame
  /-- A request frame that no build makes under the ADDR_WIDTH_MODE in force (R21, R26, R85, R102), raised by the eight frame
  forms. Safe. -/
  | notBuiltInThisMode
  /-- A receive event that was not asked for: events are requested only while an exchange waits for its reply (R39, R186, R240),
  raised by the replies and the receive events. Safe (log 20). -/
  | eventNotRequested
  /-- A presented transaction that encodes nothing, raised by the step. Safe. -/
  | undecodable (e : DecodeError)
deriving DecidableEq, Repr

/-- What a meaning answers. -/
abbrev Res := Host.Outcome State Fault Refusal

/-- The link state machine right after reset (R260). rx_len holds no value there: no read shows the 0 that stands in it.
DESIGN CHOICE (log 5). -/
def Link.reset : Link where
  rxState    := .idle
  rxb        := []
  rxCount    := 0
  rxLen      := 0#8
  rxLenValid := false

/-- The machine right after reset (R260), with the default parameters of R7, nothing presented and the environment silent. -/
def State.reset : State where
  params    := Params.default
  txb       := []
  txLen     := 0
  txIdx     := 0
  link      := Link.reset
  xchg      := .free
  task      := .idle
  port      := []
  done      := none
  txAnswers := []
  txWire    := []
  rxQueue   := []
  lsmOut    := none
  diag      := []

end Sys2Proof.Machine
end

