-- ==== Sys2Proof/Machine/Ops.lean ====
section
/-! DEFINITION. The named operations over the buffers and the registers: MemRead and MemWrite (00_scope.md section 7), the
host's reads (10_state.md R21, R26, R30), completing an operation, RAISING AN ERROR (60_exceptions.md R242, the framer's whole
form of taking an exception), storing a frame (40_frame_encoder.md R100), and reset (70_reset_and_hazards.md R260). There is no
return from an error: R243 says there is nothing to restore. -/

namespace Sys2Proof.Machine

/-- Go on from a next state; a fault or a refusal ends the run. -/
def Res.andThen (r : Res) (f : State → Res) : Res :=
  match r with
  | .next s => f s
  | .fault e => .fault e
  | .refused e => .refused e

/-! ### Buffers -/

/-- What an index that is not listed reads as: it "holds no value" (R21, R37; log 6). -/
def Memory.unlisted : Option Byte := none

/-- The byte at an index, if it holds one. -/
def Memory.read : Memory → Nat → Option Byte
  | [], _ => Memory.unlisted
  | (k, b) :: rest, i => if k = i then some b else Memory.read rest i

/-- Store one byte, keeping the indexes strictly rising. -/
def Memory.write : Memory → Nat → Byte → Memory
  | [], i, b => [(i, b)]
  | (k, c) :: rest, i, b =>
    if i < k then (i, b) :: (k, c) :: rest
    else if i = k then (i, b) :: rest
    else (k, c) :: Memory.write rest i b

/-- Store a byte sequence at indexes i, i + 1, ... -/
def Memory.writeAll (m : Memory) (i : Nat) : List Byte → Memory
  | [] => m
  | b :: bs => Memory.writeAll (m.write i b) (i + 1) bs

/-- The n bytes at indexes i, i + 1, ..., if each holds a value. -/
def Memory.readAll (m : Memory) (i : Nat) : Nat → Option (List Byte)
  | 0 => some []
  | n + 1 =>
    match m.read i, m.readAll (i + 1) n with
    | some b, some bs => some (b :: bs)
    | _, _ => none

/-- Indexes at or above n hold no value any more (R24, R30). -/
def Memory.dropFrom (m : Memory) (n : Nat) : Memory := m.filter fun c => decide (c.1 < n)

/-- The canonical form: indexes strictly rising, so that equal buffers are equal lists. -/
def Memory.wf : Memory → Bool
  | [] => true
  | [_] => true
  | (i, _) :: (j, b) :: rest => decide (i < j) && Memory.wf ((j, b) :: rest)

/-- MemRead(space, i, n): an index that holds no value is a fault (R37, U17). -/
def memRead (m : Memory) (i n : Nat) : Except Fault (List Byte) :=
  match m.readAll i n with
  | some bs => .ok bs
  | none => .error .bufferNoValue

/-- MemWrite(space, i, n, s) in a buffer of the given size: an index outside it does not exist (R50). -/
def memWrite (size : Nat) (m : Memory) (i : Nat) (s : List Byte) : Except Fault Memory :=
  if i + s.length ≤ size then .ok (m.writeAll i s) else .error .bufferRange

/-- rx_len, readable when rx_len_valid = 1 (R21, R31, R37). -/
def Link.readLen (l : Link) : Except Fault Byte :=
  if l.rxLenValid then .ok l.rxLen else .error .rxLenNoValue

/-- The host's read of TXB, with i + n <= tx_len (R26). It has no side effect (R57). -/
def hostReadTxb (s : State) (i n : Nat) : Except Fault (List Byte) :=
  if i + n ≤ s.txLen then memRead s.txb i n else .error .bufferNoValue

/-- The host's read of RXB, with i + n <= rx_count (R30). -/
def hostReadRxb (s : State) (i n : Nat) : Except Fault (List Byte) :=
  if i + n ≤ s.link.rxCount then memRead s.link.rxb i n else .error .bufferNoValue

/-- The host's read of rx_len (R21). -/
def hostReadRxLen (s : State) : Except Fault Byte := s.link.readLen

/-! ### Completing and raising -/

/-- An operation ends successfully with a result (00_scope.md section 7, return). -/
def complete (r : OpResult) (s : State) : Res := .next { s with done := some ⟨.ok, r⟩, task := .idle }

/-- An operation ends with an error kind (00_scope.md section 7, raise). R242: it "saves nothing, switches no mode, masks
nothing and transfers control nowhere inside the framer: the operation returns with its status". -/
def raiseError (k : Status) (s : State) : Res := .next { s with done := some ⟨k, .none⟩, task := .idle }

/-- The numeric status codes (R230, D32). -/
def Status.code : Status → Nat
  | .ok => 0
  | .invalidLength => 1
  | .emptyInput => 2
  | .outOfRange => 3
  | .nak => 4
  | .timeout => 5
  | .ioError => 6
  | .protocolError _ _ _ => 7

/-- Issue an operation on the OP interface, which carries one at a time: while an exchange is in flight it is occupied and the
model refuses (R23, R182, R270, U16; log 16). The completion of an earlier operation is gone then (R22; log 13). -/
def issue (f : State → Res) (s : State) : Res :=
  if s.xchg = .free then f { s with done := none } else .refused .operationInProgress

/-! ### The transmit buffer -/

/-- The last lines of R100 and R110: the frame goes to TXB from index 0 and tx_len becomes its length; indexes at or above
tx_len hold no value (R24). -/
def storeFrame (bytes : List Byte) (s : State) : Except Fault State :=
  match memWrite Config.txBufBytes s.txb 0 bytes with
  | .ok m => .ok { s with txb := m.dropFrom bytes.length, txLen := bytes.length }
  | .error e => .error e

/-- A build (R100, R110): the length check is "the first thing a build does and the only check it makes" (R101, R111); a build
that fails changes nothing (R25). -/
def build (dataLength : Byte) (bytes : List Byte) (s : State) (onOk : State → Res) : Res :=
  if dataLength = 0#8 then raiseError .invalidLength s
  else
    match storeFrame bytes s with
    | .ok s' => onOk s'
    | .error e => .fault e

/-! ### Outputs that are a function of the state -/

/-- The byte offered on TX, if the serialiser offers one (R183). -/
def txOffer (s : State) : Option Byte :=
  if s.xchg = .sending ∧ s.txIdx < s.txLen then s.txb.read s.txIdx else none

/-- The request for a receive event on RX and the timeout it carries: only while an exchange waits for its reply (R186). -/
def rxRequest (s : State) : Option Nat :=
  match s.xchg with
  | .free => none
  | .sending => none
  | .awaitRead => some s.params.rxTimeoutUnits
  | .awaitWrite => some s.params.rxTimeoutUnits

/-! ### Reset -/

/-- Reset of a machine that has run (R260, R261): the framer's state as State.reset has it. The parameters, what the transport
holds and has accepted, and what the host still has to present are not the framer's and stay (log 22). -/
def hardReset (s : State) : State :=
  { State.reset with
    params := s.params, port := s.port, txAnswers := s.txAnswers, txWire := s.txWire, rxQueue := s.rxQueue, diag := s.diag }

end Sys2Proof.Machine
end

