-- ==== Sys2Proof/Machine/LinkMachine.lean ====
section
/-! DEFINITION. The link state machine (43_link_state_machine.md): one receive event in, one transition, at most one outcome
and one diagnostic out (R150). -/

namespace Sys2Proof.Machine

/-- What one transition gives: the next state of the machine, the outcome and the diagnostic it emitted, if any (R150). -/
structure LinkResult where
  link    : Link
  outcome : Option LinkOutcome
  diag    : Option Diag
deriving DecidableEq, Repr

/-- Idle, start marker (R154). RXB holds index 0 alone from here on (R30). -/
def Link.acceptSof (p : Params) (l : Link) : Except Fault LinkResult :=
  match memWrite p.rxBufBytes l.rxb 0 [Config.sof] with
  | .ok m =>
    .ok { link := { l with rxb := m.dropFrom 1, rxCount := 1, rxLenValid := false, rxState := .awaitingEnd }
          outcome := none, diag := none }
  | .error e => .error e

/-- End with an outcome: the machine is in Idle, everything else stays (R152, R155, R156, R161, R166). -/
def Link.finish (l : Link) (o : LinkOutcome) : LinkResult where
  link    := { l with rxState := .idle }
  outcome := some o
  diag    := none

/-- Idle, any other byte: noise, 0x03 included (R157, R158). -/
def Link.noise (l : Link) (b : Byte) : LinkResult where
  link    := { l with rxState := .idle }
  outcome := none
  diag    := some (.unexpectedByte b)

/-- AwaitingEnd, the first lines of R159: store the byte at index rx_count, count it, capture the byte at index 2. -/
def Link.accumulate (p : Params) (l : Link) (b : Byte) : Except Fault Link :=
  match memWrite p.rxBufBytes l.rxb l.rxCount [b] with
  | .ok m =>
    .ok { l with
      rxb := m
      rxCount := l.rxCount + 1
      rxLen := if l.rxCount = Config.lenIndex then b else l.rxLen
      rxLenValid := if l.rxCount = Config.lenIndex then true else l.rxLenValid }
  | .error e => .error e

/-- end_recognised(i) of R159; the machine is the one after the store. -/
def Link.endRecognised (p : Params) (l : Link) (i : Nat) : Except Fault Bool :=
  match p.etxMode with
  | .anyEtx => .ok true
  | .lengthQualified =>
    if i < Config.payloadIndex then .ok false
    else
      match l.readLen with
      | .ok n => .ok (decide (Config.payloadIndex + n.toNat ≤ i))
      | .error e => .error e

/-- The expected length a ProtocolError carries: rx_len if it was captured (R152; log 23). -/
def Link.expected (l : Link) : Option Byte := if l.rxLenValid then some l.rxLen else none

/-- The end marker recognised at index i, already stored (R160, R162): the payload slice of R138 if it lies wholly before the
marker, ProtocolError(ShortFrame) otherwise. -/
def Link.endFrame (l : Link) (i : Nat) : Except Fault LinkResult :=
  if l.rxLenValid = true ∧ Config.payloadIndex + l.rxLen.toNat ≤ i then
    match memRead l.rxb Config.payloadIndex l.rxLen.toNat with
    | .ok payload => .ok (l.finish (.frameComplete payload))
    | .error e => .error e
  else .ok (l.finish (.protocolError .shortFrame l.expected l.rxCount))

/-- A byte in AwaitingEnd, in the order of R241 (d): buffer-full test (R161), store and capture (R159), end-marker test,
slice test (R160, R162). -/
def Link.awaitByte (p : Params) (l : Link) (b : Byte) : Except Fault LinkResult :=
  if l.rxCount = p.rxBufBytes then .ok (l.finish (.protocolError .overflow l.expected l.rxCount))
  else
    match l.accumulate p b with
    | .error e => .error e
    | .ok l' =>
      if b = Config.eof then
        match l'.endRecognised p l.rxCount with
        | .error e => .error e
        | .ok true => l'.endFrame l.rxCount
        | .ok false => .ok { link := l', outcome := none, diag := none }
      else .ok { link := l', outcome := none, diag := none }

/-- A byte in Idle (R154 to R158). -/
def Link.idleByte (p : Params) (l : Link) (b : Byte) : Except Fault LinkResult :=
  if b = Config.sof then l.acceptSof p
  else if b = Config.ack then .ok (l.finish .acknowledged)
  else if b = Config.nak then .ok (l.finish .negativeAcknowledged)
  else .ok (l.noise b)

/-- One transition (R153). -/
def Link.step (p : Params) (l : Link) : RxEvent → Except Fault LinkResult
  | .timeout => .ok (l.finish .timeout)
  | .ioError => .ok (l.finish .ioError)
  | .byte b =>
    match l.rxState with
    | .idle => l.idleByte p b
    | .awaitingEnd => l.awaitByte p b

/-- end_recognised for an end marker arriving now, false where it would read a rx_len that holds no value. -/
def Link.endsNow (p : Params) (l : Link) : Bool :=
  match p.etxMode with
  | .anyEtx => true
  | .lengthQualified =>
    decide (Config.payloadIndex ≤ l.rxCount) && l.rxLenValid &&
      decide (Config.payloadIndex + l.rxLen.toNat ≤ l.rxCount)

/-- The slice test for an end marker arriving now; one at index 2 is captured as the length first and fails it (R162). -/
def Link.sliceNow (l : Link) : Bool :=
  decide (l.rxCount ≠ Config.lenIndex) && l.rxLenValid &&
    decide (Config.payloadIndex + l.rxLen.toNat ≤ l.rxCount)

/-- What the class of the next received byte depends on (R83). -/
def Link.ctx (p : Params) (l : Link) : RxCtx where
  awaiting := decide (l.rxState = .awaitingEnd)
  full     := decide (l.rxCount = p.rxBufBytes)
  ends     := l.endsNow p
  sliceOk  := l.sliceNow

end Sys2Proof.Machine
end

