-- ==== Sys2Proof/Machine/Sequencer.lean ====
section
/-! DEFINITION. The exchange sequencer and the serialiser (44_exchange.md), one transaction of the environment at a time, and
what the host layer does with the outcome that resolves an exchange (45_register_sequences.md). -/

namespace Sys2Proof.Machine

/-- The state of waiting a blocking call is driven in (R33, R187, R188). -/
def HostTask.awaits : HostTask → XchgState
  | .idle => .awaitRead
  | .readExchange => .awaitRead
  | .writeExchange => .awaitWrite
  | .readEnum => .awaitRead
  | .readBool => .awaitRead
  | .infoSize _ => .awaitRead
  | .infoData => .awaitRead
  | .stringSize _ => .awaitRead
  | .stringData => .awaitRead
  | .boolRead _ _ => .awaitRead
  | .writeFinal => .awaitWrite
  | .selectThen _ => .awaitWrite

/-- finish() of R187, R190: xchg_state <- Free, tx_idx <- 0; the blocking call is over or goes on from its own place. -/
def finishExchange (s : State) : State := { s with xchg := .free, txIdx := 0, task := .idle }

/-- The first line of send_frame (R183): xchg_state <- Sending, tx_idx <- 0. -/
def beginExchange (t : HostTask) (s : State) : State := { s with xchg := .sending, txIdx := 0, task := t }

/-- BUILD_READ and the start of READ_EXCHANGE, as every read of the host layer begins (R202 to R206). -/
def startRead (dataLength : Byte) (address : Word) (offset : Byte) (t : HostTask) (s : State) : Res :=
  build dataLength (readFrame s.params.addrWidthMode s.params.useChecksum dataLength address offset) s
    fun s' => .next (beginExchange t s')

/-- BUILD_WRITE with length 4 and offset 4 and the start of WRITE_EXCHANGE, as every write of the host layer begins (R205, D29). -/
def startWrite (address value : Word) (t : HostTask) (s : State) : Res :=
  build 4#8 (writeFrame s.params.addrWidthMode s.params.useChecksum 4#8 address Config.fieldOffset value) s
    fun s' => .next (beginExchange t s')

/-- The second phase of readInfo and readString: check_size, then the read of `size` bytes at offset 8 (R204, R207). -/
def startSecondPhase (size address : Word) (t : HostTask) (s : State) : Res :=
  if sizeFits size then startRead (size.setWidth 8) address Config.valueOffset t s
  else raiseError .invalidLength s

/-- A pending read was resolved by FrameComplete(p) (R187): what the blocking call does with the payload. An empty payload of
readBool is refused (D22; log 11). -/
def resumeRead (t : HostTask) (p : List Byte) (s : State) : Res :=
  match t with
  | .idle => complete (.bytes p) s
  | .readExchange => complete (.bytes p) s
  | .readEnum => complete (.word (parseInt p)) s
  | .readBool =>
    match parseBool p with
    | some b => complete (.bool b) s
    | none => .refused .parseBoolEmpty
  | .infoSize a =>
    let size := parseInt p
    startSecondPhase size a .infoData
      (if 4 < size.toNat then { s with diag := s.diag ++ [.sizeWarning size] } else s)
  | .infoData => complete (.word (parseInt p)) s
  | .stringSize a => startSecondPhase (parseInt p) a .stringData s
  | .stringData => complete (.bytes (parseText s.params p)) s
  | .boolRead a f => startWrite a (parseInt (mergeBool (intToField (parseInt p)) f)) .writeFinal s
  | .writeExchange => complete (.bytes p) s
  | .writeFinal => complete (.bytes p) s
  | .selectThen _ => complete (.bytes p) s

/-- A pending write was resolved with a boolean (R188): a false result ends a sequence with false (R201, R211, R212). -/
def resumeWrite (t : HostTask) (ok : Bool) (s : State) : Res :=
  match t with
  | .selectThen command => if ok then startWrite command Config.commandValue .writeFinal s else complete (.bool false) s
  | .idle => complete (.bool ok) s
  | .readExchange => complete (.bool ok) s
  | .writeExchange => complete (.bool ok) s
  | .readEnum => complete (.bool ok) s
  | .readBool => complete (.bool ok) s
  | .infoSize _ => complete (.bool ok) s
  | .infoData => complete (.bool ok) s
  | .stringSize _ => complete (.bool ok) s
  | .stringData => complete (.bool ok) s
  | .boolRead _ _ => complete (.bool ok) s
  | .writeFinal => complete (.bool ok) s

/-- What an outcome does to a pending read (R187, R189). -/
def resolveRead (o : LinkOutcome) (s : State) : Res :=
  match o with
  | .frameComplete p => resumeRead s.task p (finishExchange s)
  | .acknowledged => .next s
  | .negativeAcknowledged => raiseError .nak (finishExchange s)
  | .protocolError r e a => raiseError (.protocolError r e a) (finishExchange s)
  | .timeout => raiseError .timeout (finishExchange s)
  | .ioError => raiseError .ioError (finishExchange s)

/-- What an outcome does to a pending write (R188, R189). -/
def resolveWrite (o : LinkOutcome) (s : State) : Res :=
  match o with
  | .frameComplete _ => .next s
  | .acknowledged => resumeWrite s.task true (finishExchange s)
  | .negativeAcknowledged => resumeWrite s.task false (finishExchange s)
  | .protocolError r e a => raiseError (.protocolError r e a) (finishExchange s)
  | .timeout => raiseError .timeout (finishExchange s)
  | .ioError => raiseError .ioError (finishExchange s)

/-- An outcome is delivered "to whoever drives" the machine (00_scope.md section 7), "to the operation that is waiting for it, by
return" (R240): the exchange that waits. -/
def resolve (o : LinkOutcome) (s : State) : Res :=
  match s.xchg with
  | .free => .next s
  | .sending => .next s
  | .awaitRead => resolveRead o s
  | .awaitWrite => resolveWrite o s

/-- One receive event, fully processed (R62 b): one transition of the link state machine, its outputs, and the sequencer's
answer to an outcome. -/
def processEvent (e : RxEvent) (s : State) : Res :=
  match s.link.step s.params e with
  | .error f => .fault f
  | .ok r =>
    let s' := { s with link := r.link, lsmOut := r.outcome, diag := s.diag ++ r.diag.toList }
    match r.outcome with
    | none => .next s'
    | some o => resolve o s'

/-- A receive event arrives "only in answer to the framer's request for the next byte" (R39), and requests are made "only while
xchg_state is AwaitRead or AwaitWrite" (R186): one that was not asked for is refused (log 20). -/
def receive (e : RxEvent) (s : State) : Res :=
  match s.xchg with
  | .free => .refused .eventNotRequested
  | .sending => .refused .eventNotRequested
  | .awaitRead => processEvent e s
  | .awaitWrite => processEvent e s

/-- One turn of the loop of R183: the byte at tx_idx is offered; an accepted byte is counted, and behind the last one the
exchange waits for its reply; a failed one ends the exchange with IoError. Nothing happens until the transport answers
(log 24). -/
def sendByte (s : State) : Res :=
  match memRead s.txb s.txIdx 1 with
  | .error f => .fault f
  | .ok bs =>
    match s.txAnswers with
    | [] => .next s
    | .accepted :: rest =>
      .next { s with
        txAnswers := rest
        txWire := s.txWire ++ bs
        txIdx := s.txIdx + 1
        xchg := if s.txIdx + 1 < s.txLen then .sending else s.task.awaits }
    | .failed :: rest => raiseError .ioError (finishExchange { s with txAnswers := rest })

/-- One turn of the loop of R164: the next receive event, if the environment has given one; else the framer is blocked (R247). -/
def takeEvent (s : State) : Res :=
  match s.rxQueue with
  | [] => .next s
  | e :: rest => receive e { s with rxQueue := rest }

/-- One transaction of the environment with an exchange in flight (R39, R183, R186). -/
def tick (s : State) : Res :=
  match s.xchg with
  | .free => .next s
  | .sending => if s.txIdx < s.txLen then sendByte s else .next { s with xchg := s.task.awaits }
  | .awaitRead => takeEvent s
  | .awaitWrite => takeEvent s

/-- At most n transactions, until the operation in progress returns. -/
def drainFor : Nat → State → Res
  | 0, s => .next s
  | n + 1, s => if s.xchg = .free then .next s else (tick s).andThen (drainFor n)

/-- A blocking call (R10: "the steps of one exchange as a single sequential run"): it goes on until it returns or the
environment has given no further answer; each transaction uses up one of the listed answers (log 8). -/
def drain (s : State) : Res := drainFor (s.txAnswers.length + s.rxQueue.length) s

/-- A reply of the device, byte by byte, as the driving loop takes it (R164): it stops at the first outcome, and the bytes
that were not asked for wait in the transport, first in line (R184, R186; log 18). -/
def deliverReply : List Byte → State → Res
  | [], s => .next s
  | b :: bs, s =>
    (receive (.byte b) s).andThen fun s' =>
      if s'.lsmOut.isSome then .next { s' with rxQueue := bs.map .byte ++ s'.rxQueue }
      else deliverReply bs s'

end Sys2Proof.Machine
end

