-- ==== Sys2Proof/Machine/Frames.lean ====
section
/-! DEFINITION. The eight request frame forms (30_encoding.md R72): presenting a frame does what the build that makes it does
(the opcode table's `built_by`; 40_frame_encoder.md R100 and R110), after the length check of R101 and R111. TXB is "written only
by the build operations" (10_state.md R26): a byte sequence that request_decode (R85) refuses, and a frame that no build makes
under the ADDR_WIDTH_MODE in force, are refused (log 17). -/

namespace Sys2Proof.Machine

/-- A frame, given as its bytes, goes to TXB. -/
def presentFrame (dataLength : Byte) (bytes : List Byte) (s : State) : Res :=
  issue (fun s' =>
    if dataLength ≠ 0#8 ∧ requestDecode bytes = none then .refused .notARequestFrame
    else if dataLength ≠ 0#8 ∧ builtRequest s'.params.addrWidthMode bytes = none then .refused .notBuiltInThisMode
    else build dataLength bytes s' (complete .none)) s

/-- RD.S (R72, R100): read, 2-byte address, no checksum, 6 bytes. -/
def execRdS (len : Byte) (addr : BitVec 16) (eof : Byte) (s : State) : Res :=
  presentFrame len (encode (.rdS len addr eof)).bytes s

/-- RD.SC (R72, R100): read, 2-byte address, checksum, 7 bytes. -/
def execRdSC (len : Byte) (addr : BitVec 16) (cks eof : Byte) (s : State) : Res :=
  presentFrame len (encode (.rdSC len addr cks eof)).bytes s

/-- RD.X (R72, R100): read, 4-byte address, no checksum, 8 bytes. -/
def execRdX (len : Byte) (addr : Word) (eof : Byte) (s : State) : Res :=
  presentFrame len (encode (.rdX len addr eof)).bytes s

/-- RD.XC (R72, R100): read, 4-byte address, checksum, 9 bytes. -/
def execRdXC (len : Byte) (addr : Word) (cks eof : Byte) (s : State) : Res :=
  presentFrame len (encode (.rdXC len addr cks eof)).bytes s

/-- WR.S (R72, R110): write, 2-byte address, no checksum, 10 bytes. -/
def execWrS (len : Byte) (addr : BitVec 16) (value : Word) (eof : Byte) (s : State) : Res :=
  presentFrame len (encode (.wrS len addr value eof)).bytes s

/-- WR.SC (R72, R110): write, 2-byte address, checksum, 11 bytes. -/
def execWrSC (len : Byte) (addr : BitVec 16) (value : Word) (cks eof : Byte) (s : State) : Res :=
  presentFrame len (encode (.wrSC len addr value cks eof)).bytes s

/-- WR.X (R72, R110): write, 4-byte address, no checksum, 12 bytes. -/
def execWrX (len : Byte) (addr : Word) (value : Word) (eof : Byte) (s : State) : Res :=
  presentFrame len (encode (.wrX len addr value eof)).bytes s

/-- WR.XC (R72, R110): write, 4-byte address, checksum, 13 bytes. -/
def execWrXC (len : Byte) (addr : Word) (value : Word) (cks eof : Byte) (s : State) : Res :=
  presentFrame len (encode (.wrXC len addr value cks eof)).bytes s

end Sys2Proof.Machine
end

