-- ==== Sys2Proof/Machine/HostLayer.lean ====
section
/-! DEFINITION. The thirteen pseudo-operations of the host layer (45_register_sequences.md, 30_encoding.md R92). Each starts
its first exchange; what follows an outcome is resumeRead and resumeWrite. -/

namespace Sys2Proof.Machine

/-- A sequence that begins with the 4-byte read at offset 4 (R202, R203, R204, R206). -/
def readSequence (address : Word) (t : HostTask) (s : State) : Res :=
  issue (fun s' => (startRead 4#8 address Config.fieldOffset t s').andThen drain) s

/-- A sequence that begins with a write (R205, R208). -/
def writeSequence (address value : Word) (t : HostTask) (s : State) : Res :=
  issue (fun s' => (startWrite address value t s').andThen drain) s

/-- The range check and the selector write of R209 and R210: OutOfRange "before any build and any I/O". -/
def selectSequence (selector : Word) (id : Int) (t : HostTask) (s : State) : Res :=
  issue (fun s' =>
    if userSetInRange id then (startWrite selector (BitVec.ofInt 32 id) t s').andThen drain
    else raiseError .outOfRange s') s

/-- readEnum (R202). -/
def execReadEnum (address : Word) (s : State) : Res := readSequence address .readEnum s

/-- readBool (R203). -/
def execReadBool (address : Word) (s : State) : Res := readSequence address .readBool s

/-- readInfo (R204, R207). -/
def execReadInfo (address : Word) (s : State) : Res := readSequence address (.infoSize address) s

/-- readString (R204, R207). -/
def execReadString (address : Word) (s : State) : Res := readSequence address (.stringSize address) s

/-- writeEnum (R205). -/
def execWriteEnum (address value : Word) (s : State) : Res := writeSequence address value .writeFinal s

/-- writeBool (R206). -/
def execWriteBool (address : Word) (flag : Bool) (s : State) : Res := readSequence address (.boolRead address flag) s

/-- writeCommandReg (R208). -/
def execWriteCommandReg (address : Word) (s : State) : Res := writeSequence address Config.commandValue .writeFinal s

/-- userSetSelect (R209). -/
def execUserSetSelect (id : Int) (s : State) : Res := selectSequence Config.userSetSelector id .writeFinal s

/-- userSetDefaultSelect (R210). -/
def execUserSetDefaultSelect (id : Int) (s : State) : Res := selectSequence Config.defaultUserSetSelector id .writeFinal s

/-- userSetLoad (R211): with doSelect = false the id is neither checked nor used (D31). -/
def execUserSetLoad (id : Int) (doSelect : Bool) (s : State) : Res :=
  if doSelect then selectSequence Config.userSetSelector id (.selectThen Config.userSetLoadCommand) s
  else writeSequence Config.userSetLoadCommand Config.commandValue .writeFinal s

/-- userSetSave (R212). -/
def execUserSetSave (id : Int) (doSelect : Bool) (s : State) : Res :=
  if doSelect then selectSequence Config.userSetSelector id (.selectThen Config.userSetSaveCommand) s
  else writeSequence Config.userSetSaveCommand Config.commandValue .writeFinal s

/-- userSetGetCurrent (R213). -/
def execUserSetGetCurrent (s : State) : Res := readSequence Config.userSetSelector .readEnum s

/-- userSetGetDefault (R214). -/
def execUserSetGetDefault (s : State) : Res := readSequence Config.defaultUserSetSelector .readEnum s

end Sys2Proof.Machine
end

