-- ==== Sys2Proof/Machine/Operations.lean ====
section
/-! DEFINITION. The operations of the OP interface (30_encoding.md R90): the builds (40_frame_encoder.md), the checksum
(41_checksum.md), the data-field unit (42_data_field.md) and the two exchanges (44_exchange.md). -/

namespace Sys2Proof.Machine

/-- BUILD_READ (R100 to R106). -/
def execBuildRead (useChecksum : Bool) (dataLength : Byte) (baseAddress : Word) (offset : Byte) (s : State) : Res :=
  issue (fun s' =>
    build dataLength (readFrame s'.params.addrWidthMode useChecksum dataLength baseAddress offset) s' (complete .none)) s

/-- BUILD_WRITE (R110 to R114). -/
def execBuildWrite (useChecksum : Bool) (dataLength : Byte) (baseAddress : Word) (offset : Byte) (value : Word) (s : State) :
    Res :=
  issue (fun s' =>
    build dataLength (writeFrame s'.params.addrWidthMode useChecksum dataLength baseAddress offset value) s'
      (complete .none)) s

/-- CHECKSUM (R120): EmptyInput when and only when the input has no bytes. -/
def execChecksum (bytes : List Byte) (s : State) : Res :=
  issue (fun s' => if bytes = [] then raiseError .emptyInput s' else complete (.byte (xorFold bytes)) s') s

/-- PARSE_INT (R131). -/
def execParseInt (bytes : List Byte) (s : State) : Res :=
  issue (complete (.word (parseInt bytes))) s

/-- PARSE_TEXT (R134). -/
def execParseText (bytes : List Byte) (s : State) : Res :=
  issue (fun s' => complete (.bytes (parseText s'.params bytes)) s') s

/-- PARSE_BOOL (R133): "require len(bytes) >= 1 -- otherwise the operation has no meaning: a model refuses it". -/
def execParseBool (bytes : List Byte) (s : State) : Res :=
  issue (fun s' =>
    match parseBool bytes with
    | some b => complete (.bool b) s'
    | none => .refused .parseBoolEmpty) s

/-- INT_TO_FIELD (R130). -/
def execIntToField (value : Word) (s : State) : Res :=
  issue (complete (.bytes (intToField value))) s

/-- MERGE_BOOL (R135). -/
def execMergeBool (b0 b1 b2 b3 : Byte) (flag : Bool) (s : State) : Res :=
  issue (complete (.bytes (mergeBool [b0, b1, b2, b3] flag))) s

/-- The precondition both exchanges share (R182) and the blocking call. -/
def runExchange (t : HostTask) (s : State) : Res :=
  issue (fun s' => if s'.txLen = 0 then .refused .noFrameBuilt else drain (beginExchange t s')) s

/-- READ_EXCHANGE (R187). -/
def execReadExchange (s : State) : Res := runExchange .readExchange s

/-- WRITE_EXCHANGE (R188). -/
def execWriteExchange (s : State) : Res := runExchange .writeExchange s

/-- OP.UNASSIGNED (R90, D17): "Codes 0xA to 0xF select nothing; a host never issues them, and a model refuses them". -/
def execOpUnassigned (_code : BitVec 4) (_s : State) : Res := .refused .unassignedSelectCode

end Sys2Proof.Machine
end

