-- ==== Sys2Proof/Machine/Receive.lean ====
section
/-! DEFINITION. The three replies (30_encoding.md R80, R81) and the ten receive events (43_link_state_machine.md R153). A
reply is the events of its bytes (log 18). Events are taken while an exchange waits, and refused otherwise (R186; log 20). A
receive event is one transition; a byte belongs to the row its value and the state give it (R83), so that a row met in another
state is the row of that state (log 19). -/

namespace Sys2Proof.Machine

/-- ACK (R80, R155). -/
def execAck (s : State) : Res := deliverReply [Config.ack] s

/-- NAK (R80, R156). -/
def execNak (s : State) : Res := deliverReply [Config.nak] s

/-- DATA (R81, R160): start marker, flags byte, length byte, payload, trailing bytes, end marker. A trailing byte equal to the end
marker ends the frame there, and the bytes behind it wait in the transport (R169 f, R272; log 18). -/
def execData (flags : Byte) (payload trailing : List Byte) (s : State) : Res :=
  deliverReply (encode (.data flags payload trailing)).bytes s

/-- RX.IDLE.SOF (R154): in Idle, a frame begins. -/
def execRxIdleSof (s : State) : Res := receive (.byte Config.sof) s

/-- RX.IDLE.ACK (R155): in Idle, emits Acknowledged. -/
def execRxIdleAck (s : State) : Res := receive (.byte Config.ack) s

/-- RX.IDLE.NAK (R156): in Idle, emits NegativeAcknowledged. -/
def execRxIdleNak (s : State) : Res := receive (.byte Config.nak) s

/-- RX.IDLE.OTHER (R157, R158): in Idle, noise. -/
def execRxIdleOther (b : Byte) (s : State) : Res := receive (.byte b) s

/-- RX.AWAIT.OVERFLOW (R161): in AwaitingEnd with the buffer full, the byte is dropped and the frame abandoned. -/
def execRxAwaitOverflow (b : Byte) (s : State) : Res := receive (.byte b) s

/-- RX.AWAIT.DATA (R159, R163): in AwaitingEnd, the byte is stored, and captured as the length at index 2. -/
def execRxAwaitData (b : Byte) (s : State) : Res := receive (.byte b) s

/-- RX.AWAIT.ETX (R160): in AwaitingEnd, the end marker behind the payload, emits FrameComplete. -/
def execRxAwaitEtx (s : State) : Res := receive (.byte Config.eof) s

/-- RX.AWAIT.ETX_SHORT (R162): in AwaitingEnd under ANY_ETX, an end marker before the payload is whole. -/
def execRxAwaitEtxShort (s : State) : Res := receive (.byte Config.eof) s

/-- RX.TIMEOUT (R166), in any state. -/
def execRxTimeout (s : State) : Res := receive .timeout s

/-- RX.IOERROR (R166), in any state. -/
def execRxIoError (s : State) : Res := receive .ioError s

end Sys2Proof.Machine
end

