-- ==== Sys2Proof/Machine/Dispatch.lean ====
section
/-! DEFINITION. The dispatch: one arm per constructor of Instr. -/

namespace Sys2Proof.Machine

def exec (i : Instr) (s : State) : Host.Outcome State Fault Refusal :=
  match i with
  | .rdS len addr eof => Sys2Proof.Machine.execRdS len addr eof s
  | .rdSC len addr cks eof => Sys2Proof.Machine.execRdSC len addr cks eof s
  | .rdX len addr eof => Sys2Proof.Machine.execRdX len addr eof s
  | .rdXC len addr cks eof => Sys2Proof.Machine.execRdXC len addr cks eof s
  | .wrS len addr value eof => Sys2Proof.Machine.execWrS len addr value eof s
  | .wrSC len addr value cks eof => Sys2Proof.Machine.execWrSC len addr value cks eof s
  | .wrX len addr value eof => Sys2Proof.Machine.execWrX len addr value eof s
  | .wrXC len addr value cks eof => Sys2Proof.Machine.execWrXC len addr value cks eof s
  | .ack => Sys2Proof.Machine.execAck s
  | .nak => Sys2Proof.Machine.execNak s
  | .data flags payload trailing => Sys2Proof.Machine.execData flags payload trailing s
  | .rxIdleSof => Sys2Proof.Machine.execRxIdleSof s
  | .rxIdleAck => Sys2Proof.Machine.execRxIdleAck s
  | .rxIdleNak => Sys2Proof.Machine.execRxIdleNak s
  | .rxIdleOther b => Sys2Proof.Machine.execRxIdleOther b s
  | .rxAwaitOverflow b => Sys2Proof.Machine.execRxAwaitOverflow b s
  | .rxAwaitData b => Sys2Proof.Machine.execRxAwaitData b s
  | .rxAwaitEtx => Sys2Proof.Machine.execRxAwaitEtx s
  | .rxAwaitEtxShort => Sys2Proof.Machine.execRxAwaitEtxShort s
  | .rxTimeout => Sys2Proof.Machine.execRxTimeout s
  | .rxIoError => Sys2Proof.Machine.execRxIoError s
  | .buildRead c n a o => Sys2Proof.Machine.execBuildRead c n a o s
  | .buildWrite c n a o v => Sys2Proof.Machine.execBuildWrite c n a o v s
  | .checksum bytes => Sys2Proof.Machine.execChecksum bytes s
  | .parseInt bytes => Sys2Proof.Machine.execParseInt bytes s
  | .parseText bytes => Sys2Proof.Machine.execParseText bytes s
  | .parseBool bytes => Sys2Proof.Machine.execParseBool bytes s
  | .intToField value => Sys2Proof.Machine.execIntToField value s
  | .mergeBool b0 b1 b2 b3 flag => Sys2Proof.Machine.execMergeBool b0 b1 b2 b3 flag s
  | .readExchange => Sys2Proof.Machine.execReadExchange s
  | .writeExchange => Sys2Proof.Machine.execWriteExchange s
  | .opUnassigned code => Sys2Proof.Machine.execOpUnassigned code s
  | .readEnum address => Sys2Proof.Machine.execReadEnum address s
  | .readBool address => Sys2Proof.Machine.execReadBool address s
  | .readInfo address => Sys2Proof.Machine.execReadInfo address s
  | .readString address => Sys2Proof.Machine.execReadString address s
  | .writeEnum address value => Sys2Proof.Machine.execWriteEnum address value s
  | .writeBool address flag => Sys2Proof.Machine.execWriteBool address flag s
  | .writeCommandReg address => Sys2Proof.Machine.execWriteCommandReg address s
  | .userSetSelect id => Sys2Proof.Machine.execUserSetSelect id s
  | .userSetDefaultSelect id => Sys2Proof.Machine.execUserSetDefaultSelect id s
  | .userSetLoad id doSelect => Sys2Proof.Machine.execUserSetLoad id doSelect s
  | .userSetSave id doSelect => Sys2Proof.Machine.execUserSetSave id doSelect s
  | .userSetGetCurrent => Sys2Proof.Machine.execUserSetGetCurrent s
  | .userSetGetDefault => Sys2Proof.Machine.execUserSetGetDefault s

end Sys2Proof.Machine
end

