-- ==== Sys2Proof/Machine/Fetch.lean ====
section
/-! DEFINITION. Taking the next presented transaction (10_state.md R39). The framer fetches nothing of its own accord (R34): a
transaction is presented to it. -/

namespace Sys2Proof.Machine

/-- Whether the framer takes a transaction now. With no exchange in flight it takes an operation and no receive event, which
nobody has requested (R186, R240); while the request is being sent, neither (R23, R183); while an exchange waits for its reply,
a receive event or a reply, behind every event the transport already holds (R39, R62 b, R184; log 9). -/
def accepts (s : State) (t : Transaction) : Bool :=
  match s.xchg with
  | .free => !t.ch.isRx
  | .sending => false
  | .awaitRead => t.ch.isRx && s.rxQueue.isEmpty
  | .awaitWrite => t.ch.isRx && s.rxQueue.isEmpty

/-- The first transaction the framer takes, and the others in their order: what is not taken waits on its own interface, a
receive event in the transport (R184, R186), an operation with the host (R23). -/
def takeFirst (s : State) : List Transaction → Option (Transaction × List Transaction)
  | [] => none
  | t :: rest =>
    if accepts s t then some (t, rest)
    else
      match takeFirst s rest with
      | some (u, others) => some (u, t :: others)
      | none => none

/-- The instruction of the transaction the framer takes, and the state with that transaction gone. -/
def fetch (s : State) : Option (Except DecodeError Instr × State) :=
  match takeFirst s s.port with
  | some (t, rest) => some (decode (s.link.ctx s.params) t, { s with port := rest })
  | none => none

/-- Ready to take a transaction on a channel: with no exchange in flight for an operation; for a receive event or a reply, with
READ_EXCHANGE waiting and nothing left in the transport (log 12). -/
def State.readyFor (s : State) (ch : Channel) : State :=
  if ch.isRx then { s with xchg := .awaitRead, task := .readExchange, txIdx := s.txLen, rxQueue := [] }
  else finishExchange s

end Sys2Proof.Machine
end

