-- ==== Sys2Proof/Machine/Step.lean ====
section
/-! DEFINITION. One step of the machine; which agent moves is plain data (00_scope.md R9, R10). -/

namespace Sys2Proof.Machine

/-- One step. A transaction the framer takes is decoded and run; with none taken, an exchange in flight goes on by one
transaction of the environment, blocked until there is one (R247), and without an exchange "the framer waits for an operation"
(R260). -/
def step (s : State) : Host.Outcome State Fault Refusal :=
  match fetch s with
  | some (.ok i, s') => exec i s'
  | some (.error e, _) => .refused (.undecodable e)
  | none => tick s

/-- The state in which the next step runs exactly the table word's instruction: its transaction is presented first, to a framer
that takes it (log 12). -/
def State.withFetchWord (s : State) (nbits w : Nat) : State :=
  let t := tableTransaction nbits w
  { s.readyFor t.ch with port := t :: s.port }

end Sys2Proof.Machine
end

