-- ==== Sys2Proof/Safety.lean ====
section
/-! DEFINITION. What a good state is (43_link_state_machine.md R168, 10_state.md R24 to R31), what a safe step is, and the
words the statements share. -/

namespace Sys2Proof.Machine

/-- The buffer holds a value at exactly the indexes below n (R24, R30). -/
abbrev Memory.exactly (m : Memory) (n : Nat) : Prop := m.map Prod.fst = List.range n

/-- The bytes a buffer holds, lowest index first. -/
def Memory.bytes (m : Memory) : List Byte := m.map Prod.snd

/-- R168 (a) and (b), with what R29, R30 and R31 say of the buffer, the count and the captured length. -/
abbrev Link.Inv (p : Params) (l : Link) : Prop :=
  l.rxb.exactly l.rxCount ∧
  l.rxCount ≤ p.rxBufBytes ∧
  (l.rxState = .awaitingEnd → 1 ≤ l.rxCount) ∧
  (1 ≤ l.rxCount → l.rxb.read 0 = some Config.sof) ∧
  (l.rxLenValid = true ↔ 3 ≤ l.rxCount) ∧
  (l.rxLenValid = true → l.rxb.read Config.lenIndex = some l.rxLen)

/-- The transmit side: TXB is empty or holds exactly one request frame, one that a build makes under the parameters (R21, R24,
R26, R72). -/
abbrev State.TxInv (s : State) : Prop :=
  s.txb.exactly s.txLen ∧ s.txLen ≤ Config.txBufBytes ∧
    (s.txLen ≠ 0 → builtRequest s.params.addrWidthMode s.txb.bytes ≠ none)

/-- The sequencing state (R27, R33, R182, R184): a blocking call is in progress exactly while an exchange is in flight; with one
in flight a frame is built, and the state of waiting is the one the call is driven in; the link state machine is in Idle unless an
exchange waits for its reply. -/
abbrev State.SeqInv (s : State) : Prop :=
  (s.xchg = .free ↔ s.task = .idle) ∧
  (s.xchg = .free → s.txIdx = 0) ∧
  (s.xchg = .sending → s.txIdx < s.txLen) ∧
  (s.xchg ≠ .free → s.txLen ≠ 0) ∧
  (s.xchg = .awaitRead ∨ s.xchg = .awaitWrite → s.xchg = s.task.awaits ∧ s.txIdx = s.txLen) ∧
  (s.xchg = .free ∨ s.xchg = .sending → s.link.rxState = .idle)

/-- The invariant every step keeps. -/
abbrev State.Inv (s : State) : Prop :=
  s.params.wf = true ∧ s.TxInv ∧ s.link.Inv s.params ∧ s.SeqInv

/-- Both buffers are in canonical form. -/
abbrev State.memWf (s : State) : Prop := s.txb.wf = true ∧ s.link.rxb.wf = true

/-- A step that stops with a fault leaves the specified behaviour; a safe step does not. -/
abbrev SafeStep (s : State) : Prop := ∀ f, step s ≠ .fault f

/-- The bytes of a reply data frame without trailing bytes (R81). -/
def dataFrame (flags : Byte) (payload : List Byte) : List Byte :=
  Config.sof :: flags :: BitVec.ofNat 8 payload.length :: (payload ++ [Config.eof])

/-- A successful build makes these bytes (R26, R100, R110). -/
def madeByABuild (mode : AddrWidthMode) (bytes : List Byte) : Prop :=
  ∃ (cks : Bool) (n : Byte) (base : Word) (off : Byte) (value : Word), n ≠ 0#8 ∧
    (bytes = readFrame mode cks n base off ∨ bytes = writeFrame mode cks n base off value)

/-- The environment's script for one exchange: the transport accepts n bytes, and then these receive events come first. -/
abbrev scripted (s : State) (n : Nat) (answers : List TxAnswer) (events : List RxEvent) (later : List RxEvent) : Prop :=
  s.txAnswers = List.replicate n TxAnswer.accepted ++ answers ∧ s.rxQueue = events ++ later

/-- Bytes as receive events. -/
def asEvents (bytes : List Byte) : List RxEvent := bytes.map RxEvent.byte

/-- The diagnostics of a run of noise: an UnexpectedByte for every byte that is no acknowledge (R158, R250). -/
def noiseDiags (bytes : List Byte) : List Diag := (bytes.filter fun b => decide (b ≠ Config.ack)).map Diag.unexpectedByte

end Sys2Proof.Machine
end

