-- ==== Sys2Proof/Certificates/Slice0/Obligations.lean ====
section
/-! DEFINITION. The statements for the provers. Each docstring names the rules of spec/ it formalises; where a statement rests
on a convention of the model, it names the log entry. -/

open Sys2Proof Sys2Proof.Machine

/-! ### Encoding -/

/-- DECODE AND ENCODE AGREE, for every instruction: decoding what the encoder writes gives the instruction back, with every
operand at every value its encoding admits, in every state that admits its row (R72, R81, R83, R90; the operand layouts are
the model's own, log 10). -/
def Obligations.DecodeOfEncodeIsTheInstruction : Prop :=
  ∀ (c : RxCtx) (i : Instr), i.wf = true → i.admitted c = true → decode c (encode i) = .ok i

/-- A transaction the decoder accepts has one meaning and no byte of it is dropped: it is what the encoder writes for its
instruction, whose row the state admits (R83, R93; log 10). -/
def Obligations.AcceptedTransactionReencodesToItself : Prop :=
  ∀ (c : RxCtx) (t : Transaction) (i : Instr), decode c t = .ok i → encode i = t ∧ i.admitted c = true

/-- Words written out from the spec's encodings decode to the instructions they stand for (R72, R80, R81, R90; the vectors V1,
V2, V4, V12, V20, V22, V25, V26 and the reply of V72). -/
def Obligations.WrittenOutWordsDecode : Prop :=
  decode RxCtx.reset ⟨.frame, [0x01, 0x08, 0x04, 0x24, 0x07, 0x03]⟩ = .ok (.rdS 4 0x0724 3) ∧
  decode RxCtx.reset ⟨.frame, [0x01, 0x0C, 0x04, 0x24, 0x07, 0x2B, 0x03]⟩ = .ok (.rdSC 4 0x0724 0x2B 3) ∧
  decode RxCtx.reset ⟨.frame, [0x01, 0x09, 0xFF, 0x77, 0x56, 0x34, 0x12, 0x03]⟩ = .ok (.rdX 0xFF 0x12345677 3) ∧
  decode RxCtx.reset ⟨.frame, [0x01, 0x0D, 0x04, 0x44, 0x00, 0x06, 0x00, 0x4B, 0x03]⟩ =
    .ok (.rdXC 4 0x00060044 0x4B 3) ∧
  decode RxCtx.reset ⟨.frame, [0x01, 0x00, 0x04, 0x24, 0x07, 0x78, 0x56, 0x34, 0x12, 0x03]⟩ =
    .ok (.wrS 4 0x0724 0x12345678 3) ∧
  decode RxCtx.reset ⟨.frame, [0x01, 0x04, 0x04, 0x24, 0x07, 0x05, 0x00, 0x00, 0x00, 0x26, 0x03]⟩ =
    .ok (.wrSC 4 0x0724 5 0x26 3) ∧
  decode RxCtx.reset ⟨.frame, [0x01, 0x01, 0x04, 0x44, 0x00, 0x06, 0x00, 0x03, 0x00, 0x00, 0x00, 0x03]⟩ =
    .ok (.wrX 4 0x00060044 3 3) ∧
  decode RxCtx.reset ⟨.frame, [0x01, 0x05, 0x04, 0x44, 0x00, 0x06, 0x00, 0x02, 0x00, 0x00, 0x00, 0x41, 0x03]⟩ =
    .ok (.wrXC 4 0x00060044 2 0x41 3) ∧
  decode RxCtx.reset ⟨.reply, [0x06]⟩ = .ok .ack ∧
  decode RxCtx.reset ⟨.reply, [0x15]⟩ = .ok .nak ∧
  decode RxCtx.reset ⟨.reply, [0x01, 0x00, 0x04, 0x05, 0x00, 0x00, 0x00, 0x03]⟩ = .ok (.data 0 [5, 0, 0, 0] []) ∧
  decode RxCtx.reset ⟨.op, [0x08]⟩ = .ok .readExchange ∧
  decode RxCtx.reset ⟨.op, [0x0B]⟩ = .ok (.opUnassigned 0xB)

/-- The strict inverse of R85 recovers from every frame a build makes the kind, the two other flags, the length, the wire
address (R60; its low 16 bits in the short form, R76) and the value (R85, R100, R110). -/
def Obligations.RequestDecodeRecoversBuiltFields : Prop :=
  ∀ (mode : AddrWidthMode) (cks : Bool) (n : Byte) (base : Word) (off : Byte) (value : Word), n ≠ 0#8 →
    let ext := decide (mode = .intended ∧ 65536 ≤ base.toNat)
    let wire := if ext then wireAddress base off else wireAddress base off &&& 0x0000FFFF#32
    requestDecode (readFrame mode cks n base off) =
        some { read := true, cks := cks, ext := ext, dataLength := n, wireAddress := wire, value := none } ∧
      requestDecode (writeFrame mode cks n base off value) =
        some { read := false, cks := cks, ext := ext, dataLength := n, wireAddress := wire, value := some value }

/-- R83: the classes partition all 256 values in each state: a received byte has exactly one row. -/
def Obligations.ReceivedByteHasExactlyOneRow : Prop :=
  ∀ (c : RxCtx) (b : Byte),
    ∃! i : Instr, encode i = encodeEvent (.byte b) ∧ i.wf = true ∧ i.admitted c = true

/-! ### The step -/

/-- A STEP RUNS THE DECODED INSTRUCTION: of what is presented, the framer takes the first operation with no exchange in flight,
and the first receive event or reply while an exchange waits for one and the transport holds no earlier event; the step is exec
of the instruction it decodes to, on the state with that transaction gone, and one that encodes nothing is refused. With nothing
taken, the step is one transaction of the environment (R23, R39, R62, R184, R186, R240; that it is listed in the state is the
model's choice, log 9). -/
def Obligations.StepRunsThePresentedTransaction : Prop :=
  ∀ s : State,
    let taken (tr : Transaction) : Prop :=
      (s.xchg = .free ∧ (tr.ch = .op ∨ tr.ch = .host ∨ tr.ch = .frame)) ∨
        ((s.xchg = .awaitRead ∨ s.xchg = .awaitWrite) ∧ s.rxQueue = [] ∧ (tr.ch = .rx ∨ tr.ch = .reply))
    (∀ (before rest : List Transaction) (tr : Transaction), s.port = before ++ tr :: rest → (∀ u ∈ before, ¬ taken u) →
      taken tr →
      (∀ i, decode (s.link.ctx s.params) tr = .ok i → step s = exec i { s with port := before ++ rest }) ∧
        (∀ e, decode (s.link.ctx s.params) tr = .error e → step s = .refused (.undecodable e))) ∧
    ((∀ u ∈ s.port, ¬ taken u) → step s = tick s)

/-- While an exchange waits, a step takes the next receive event and runs the row its value and the state give it (R83, R153,
R164, R186; the environment's events are a list in the state, log 7). -/
def Obligations.WaitingStepRunsTheEventsRow : Prop :=
  ∀ (s : State) (e : RxEvent) (later : List RxEvent), s.xchg = .awaitRead ∨ s.xchg = .awaitWrite →
    s.rxQueue = e :: later →
      step s = exec (classify (s.link.ctx s.params) e) { s with rxQueue := later }

/-! ### The whole machine -/

/-- AN INVARIANT THAT EVERY STEP KEEPS: TXB is empty or holds exactly one request frame, one that a build makes under the
parameters (R21, R26); RXB holds exactly rx_count bytes, with R168 (a) and (b); the indexes are in their ranges; a blocking call
is in progress exactly while an exchange is in flight; and the link state machine is in Idle whenever no exchange waits for its
reply, so that it is in Idle when an exchange starts and when one has ended (R184, R190, R242). So does every instruction by itself
(R24, R27, R29, R30, R31, R168, R182). -/
def Obligations.StepKeepsGoodState : Prop :=
  (∀ s t, s.Inv → step s = .next t → t.Inv) ∧ (∀ i s t, s.Inv → exec i s = .next t → t.Inv)

/-- The state right after reset is good, and its buffers are in canonical form. -/
def Obligations.ResetIsGoodState : Prop := State.reset.Inv ∧ State.reset.memWf

/-- R260: what reset leaves, at power-up and from any state; with nothing presented the framer waits. -/
def Obligations.ResetLeavesTheStatedValues : Prop :=
  ∀ s : State, ∀ r ∈ [State.reset, hardReset s],
    r.link.rxState = .idle ∧ r.link.rxCount = 0 ∧ r.link.rxLenValid = false ∧ r.txLen = 0 ∧ r.txIdx = 0 ∧
      r.xchg = .free ∧ (∀ k, r.txb.read k = none) ∧ (∀ k, r.link.rxb.read k = none) ∧
      hostReadRxLen r = .error .rxLenNoValue ∧ (r.port = [] → step r = .next r)

/-- In a good state nothing faults: the framer never reads an index of a buffer that holds no value, nor rx_len while it is not
valid, and never writes outside a buffer (R37: "The source never reads them"). -/
def Obligations.GoodStatesNeverFault : Prop :=
  (∀ s, s.Inv → SafeStep s) ∧ (∀ i s e, s.Inv → exec i s ≠ .fault e)

/-- The parameters are "fixed before reset and not writable at run time" (R38), and nothing is presented by the framer itself:
the step only takes transactions away, one at a time (R34). -/
def Obligations.ParametersNeverChange : Prop :=
  (∀ s t, step s = .next t → t.params = s.params ∧
    (t.port = s.port ∨ ∃ before tr rest, s.port = before ++ tr :: rest ∧ t.port = before ++ rest)) ∧
    (∀ i s t, exec i s = .next t → t.params = s.params ∧ t.port = s.port)

/-- While the request is being sent, a step leaves TXB, tx_len, the whole link state machine, the receive events and what is
presented as they were (R65, R183: "No receive event is requested while xchg_state = Sending"). -/
def Obligations.SendingStepLeavesFrameAndReceiveSide : Prop :=
  ∀ s t, s.xchg = .sending → step s = .next t →
    t.txb = s.txb ∧ t.txLen = s.txLen ∧ t.link = s.link ∧ t.rxQueue = s.rxQueue ∧ t.lsmOut = s.lsmOut ∧
      t.port = s.port ∧ t.diag = s.diag

/-- R250: the diagnostics change neither state nor any result: with any other log to begin with, a step does the same in every
field but the log, and faults and refuses alike. -/
def Obligations.DiagnosticsChangeNothingElse : Prop :=
  ∀ (s : State) (d : List Diag),
    (∀ t, step s = .next t → ∃ added, t.diag = s.diag ++ added ∧
      step { s with diag := d } = .next { t with diag := d ++ added }) ∧
    (∀ e, step s = .fault e → step { s with diag := d } = .fault e) ∧
    (∀ e, step s = .refused e → step { s with diag := d } = .refused e)

/-- R26, R30, R37: the host reads exactly the indexes below the count; the others, and rx_len while it is not valid, hold no
value and the read is a fault, whatever an earlier message left. -/
def Obligations.HostReadsEndAtTheCount : Prop :=
  ∀ s : State, s.Inv →
    (∀ i n, (i + n ≤ s.txLen → ∃ bs, hostReadTxb s i n = .ok bs ∧ bs.length = n) ∧
      (s.txLen < i + n → hostReadTxb s i n = .error .bufferNoValue)) ∧
    (∀ i n, (i + n ≤ s.link.rxCount → ∃ bs, hostReadRxb s i n = .ok bs ∧ bs.length = n) ∧
      (s.link.rxCount < i + n → hostReadRxb s i n = .error .bufferNoValue)) ∧
    (s.link.rxLenValid = true → hostReadRxb s 2 1 = (hostReadRxLen s).map fun b => [b]) ∧
    (s.link.rxLenValid = false → hostReadRxLen s = .error .rxLenNoValue)

/-! ### Builds and frames -/

/-- BUILD_READ (R100): a length of zero raises InvalidLength and nothing is written; with any other it answers a next state in
which TXB holds, byte by byte, the frame of the form the base address and the checksum select (R102, R103, R104), and nothing
above it; every other field is as it was but the completion. -/
def Obligations.BuildReadStoresItsFrame : Prop :=
  ∀ (s : State) (cks : Bool) (n : Byte) (base : Word) (off : Byte), s.xchg = .free →
    let a0 := base.extractLsb' 0 8 + off
    let a1 := base.extractLsb' 8 8
    let a2 := base.extractLsb' 16 8
    let a3 := base.extractLsb' 24 8
    let bytes : List Byte :=
      if s.params.addrWidthMode = .intended ∧ 65536 ≤ base.toNat then
        (if cks then [0x01, 0x0D, n, a0, a1, a2, a3, 0x0D ^^^ n ^^^ a0 ^^^ a1 ^^^ a2 ^^^ a3, 0x03]
          else [0x01, 0x09, n, a0, a1, a2, a3, 0x03])
      else
        (if cks then [0x01, 0x0C, n, a0, a1, 0x0C ^^^ n ^^^ a0 ^^^ a1, 0x03]
          else [0x01, 0x08, n, a0, a1, 0x03])
    (n = 0#8 → exec (.buildRead cks n base off) s =
      .next { s with task := .idle, done := some ⟨.invalidLength, .none⟩ }) ∧
    (n ≠ 0#8 → ∃ t, exec (.buildRead cks n base off) s = .next t ∧
      t.txLen = bytes.length ∧ hostReadTxb t 0 t.txLen = .ok bytes ∧ (∀ k, t.txLen ≤ k → t.txb.read k = none) ∧
      t = { s with txb := t.txb, txLen := t.txLen, task := .idle, done := some ⟨.ok, .none⟩ })

/-- BUILD_WRITE (R110, R112): as BUILD_READ with the READ bit clear and the four little-endian bytes of the value behind the
address, whatever the length byte says. -/
def Obligations.BuildWriteStoresItsFrame : Prop :=
  ∀ (s : State) (cks : Bool) (n : Byte) (base : Word) (off : Byte) (value : Word), s.xchg = .free →
    let a0 := base.extractLsb' 0 8 + off
    let a1 := base.extractLsb' 8 8
    let a2 := base.extractLsb' 16 8
    let a3 := base.extractLsb' 24 8
    let v0 := value.extractLsb' 0 8
    let v1 := value.extractLsb' 8 8
    let v2 := value.extractLsb' 16 8
    let v3 := value.extractLsb' 24 8
    let bytes : List Byte :=
      if s.params.addrWidthMode = .intended ∧ 65536 ≤ base.toNat then
        (if cks then
            [0x01, 0x05, n, a0, a1, a2, a3, v0, v1, v2, v3,
              0x05 ^^^ n ^^^ a0 ^^^ a1 ^^^ a2 ^^^ a3 ^^^ v0 ^^^ v1 ^^^ v2 ^^^ v3, 0x03]
          else [0x01, 0x01, n, a0, a1, a2, a3, v0, v1, v2, v3, 0x03])
      else
        (if cks then
            [0x01, 0x04, n, a0, a1, v0, v1, v2, v3,
              0x04 ^^^ n ^^^ a0 ^^^ a1 ^^^ v0 ^^^ v1 ^^^ v2 ^^^ v3, 0x03]
          else [0x01, 0x00, n, a0, a1, v0, v1, v2, v3, 0x03])
    (n = 0#8 → exec (.buildWrite cks n base off value) s =
      .next { s with task := .idle, done := some ⟨.invalidLength, .none⟩ }) ∧
    (n ≠ 0#8 → ∃ t, exec (.buildWrite cks n base off value) s = .next t ∧
      t.txLen = bytes.length ∧ hostReadTxb t 0 t.txLen = .ok bytes ∧ (∀ k, t.txLen ≤ k → t.txb.read k = none) ∧
      t = { s with txb := t.txb, txLen := t.txLen, task := .idle, done := some ⟨.ok, .none⟩ })

/-- R101 and R111: dataLength = 0 raises InvalidLength whatever the other operands, and changes nothing but the completion;
every other operand value is accepted. -/
def Obligations.OnlyZeroLengthFailsABuild : Prop :=
  ∀ (s : State) (cks : Bool) (n : Byte) (base : Word) (off : Byte) (value : Word), s.xchg = .free →
    ∀ i ∈ [Instr.buildRead cks n base off, Instr.buildWrite cks n base off value],
      (n = 0#8 → exec i s = .next { s with task := .idle, done := some ⟨.invalidLength, .none⟩ }) ∧
      (n ≠ 0#8 → ∃ t, exec i s = .next t ∧ t.done = some ⟨.ok, .none⟩)

/-- R105 and R113: the shape of what a successful build leaves, with the value read back from the data field. -/
def Obligations.BuiltFrameShape : Prop :=
  ∀ (s : State) (cks : Bool) (n : Byte) (base : Word) (off : Byte) (value : Word), s.xchg = .free → n ≠ 0#8 →
    let a := if s.params.addrWidthMode = .intended ∧ 65536 ≤ base.toNat then 4 else 2
    let c := if cks then 1 else 0
    (∃ t, exec (.buildRead cks n base off) s = .next t ∧ t.txLen = 4 + a + c ∧
      hostReadTxb t 0 1 = .ok [0x01] ∧ hostReadTxb t (t.txLen - 1) 1 = .ok [0x03] ∧
      (∃ f, hostReadTxb t 1 1 = .ok [f] ∧ f.getLsbD 3 = true)) ∧
    (∃ t, exec (.buildWrite cks n base off value) s = .next t ∧ t.txLen = 8 + a + c ∧
      hostReadTxb t 0 1 = .ok [0x01] ∧ hostReadTxb t (t.txLen - 1) 1 = .ok [0x03] ∧
      (∃ f, hostReadTxb t 1 1 = .ok [f] ∧ f.getLsbD 3 = false) ∧
      (∃ d, hostReadTxb t (3 + a) 4 = .ok d ∧ leValue d = value.toNat))

/-- R60: the wire address is the base address with its low byte replaced; it is base + offset exactly when the low byte and the
offset add up to at most 255, which they do for every base address of R58 with the offsets 4 and 8; it is the address the frames
carry, its low 16 bits in the short form (R76). -/
def Obligations.WireAddressIsTheSumWithoutCarry : Prop :=
  (∀ (base : Word) (off : Byte),
    (wireAddress base off).toNat = base.toNat / 256 * 256 + (base.toNat % 256 + off.toNat) % 256 ∧
    (wireAddress base off = base + off.setWidth 32 ↔ base.toNat % 256 + off.toNat ≤ 255)) ∧
  (∀ base ∈ [Config.userSetSelector, Config.userSetLoadCommand, Config.userSetSaveCommand, Config.defaultUserSetSelector,
      Config.defaultUserSetOverride, Config.tapGeometry],
    ∀ off ∈ [Config.fieldOffset, Config.valueOffset], wireAddress base off = base + off.setWidth 32) ∧
  (∀ (mode : AddrWidthMode) (cks : Bool) (n : Byte) (base : Word) (off : Byte) (value : Word),
    ∀ f ∈ [readFrame mode cks n base off, writeFrame mode cks n base off value],
      if mode = .intended ∧ 65536 ≤ base.toNat then
        leValue ((f.drop 3).take 4) = (wireAddress base off).toNat
      else leValue ((f.drop 3).take 2) = (wireAddress base off).toNat % 65536)

/-- The eight request frame forms complete: a well-formed frame, in the extended form only where a build makes that form (under
INTENDED, with an address of 65536 and above: R85, R102), is stored in TXB whole, with tx_len its length, and nothing else changes
but the completion; and it is a frame that a build makes (R21, R26, R72, R100, R110; that a presented frame does what the build
does is the model's choice, log 17). -/
def Obligations.FrameFormIsStoredWhole : Prop :=
  ∀ (s : State) (i : Instr), s.xchg = .free → (encode i).ch = .frame → i.wf = true →
    (∀ r, requestDecode (encode i).bytes = some r → r.ext = true →
      s.params.addrWidthMode = .intended ∧ 65536 ≤ r.wireAddress.toNat) →
    (∃ t, exec i s = .next t ∧ t.txLen = (encode i).bytes.length ∧ hostReadTxb t 0 t.txLen = .ok (encode i).bytes ∧
      (∀ k, t.txLen ≤ k → t.txb.read k = none) ∧
      t = { s with txb := t.txb, txLen := t.txLen, task := .idle, done := some ⟨.ok, .none⟩ }) ∧
    madeByABuild s.params.addrWidthMode (encode i).bytes

/-- A request frame form that no build makes: the length check comes first (R101); what request_decode refuses is refused (R85),
and so is an extended form that no build makes under the ADDR_WIDTH_MODE in force (R21, R26, R85, R102; log 17). -/
def Obligations.IllFormedFrameFormStops : Prop :=
  ∀ (s : State) (i : Instr), s.xchg = .free → (encode i).ch = .frame →
    ((encode i).bytes[2]? = some 0#8 →
      exec i s = .next { s with task := .idle, done := some ⟨.invalidLength, .none⟩ }) ∧
    ((encode i).bytes[2]? ≠ some 0#8 → i.wf = false → exec i s = .refused .notARequestFrame) ∧
    (∀ r, requestDecode (encode i).bytes = some r → r.ext = true →
      ¬ (s.params.addrWidthMode = .intended ∧ 65536 ≤ r.wireAddress.toNat) →
      exec i s = .refused .notBuiltInThisMode ∧ ¬ madeByABuild s.params.addrWidthMode (encode i).bytes)

/-- A build is presenting the frame form it selects: the frame it makes decodes to a well-formed instruction of the table, and
that instruction does what the build does (R72, R93, R100, R110; log 17). -/
def Obligations.BuildIsPresentingItsForm : Prop :=
  ∀ (mode : AddrWidthMode) (cks : Bool) (n : Byte) (base : Word) (off : Byte) (value : Word), n ≠ 0#8 →
    (∃ i, decodeFrame (readFrame mode cks n base off) = .ok i ∧ i.wf = true ∧
      ∀ s : State, s.params.addrWidthMode = mode → exec (.buildRead cks n base off) s = exec i s) ∧
    (∃ i, decodeFrame (writeFrame mode cks n base off value) = .ok i ∧ i.wf = true ∧
      ∀ s : State, s.params.addrWidthMode = mode → exec (.buildWrite cks n base off value) s = exec i s)

/-! ### Checksum and data fields -/

/-- R120, R122: CHECKSUM of a sequence with at least one byte completes with the exclusive-or of its bytes, and bit k of its result
is the parity of bit k of all input bytes; of the empty sequence it raises EmptyInput. Nothing but the completion changes. -/
def Obligations.ChecksumBitsAreParities : Prop :=
  ∀ s : State, s.xchg = .free →
    (∀ (b : Byte) (rest : List Byte), ∃ v : Byte,
      exec (.checksum (b :: rest)) s = .next { s with task := .idle, done := some ⟨.ok, .byte v⟩ } ∧
      v = rest.foldl (fun acc x => acc ^^^ x) b ∧
      ∀ k, k < 8 → v.getLsbD k = decide ((b :: rest).countP (fun x => x.getLsbD k) % 2 = 1)) ∧
    exec (.checksum []) s = .next { s with task := .idle, done := some ⟨.emptyInput, .none⟩ }

/-- R124: a non-empty sequence with its checksum behind it folds to zero, and so does every frame built with a checksum, from
the flags byte to the checksum byte. -/
def Obligations.ChecksummedFramesFoldToZero : Prop :=
  (∀ B : List Byte, B ≠ [] → xorFold (B ++ [xorFold B]) = 0#8) ∧
  (∀ (mode : AddrWidthMode) (n : Byte) (base : Word) (off : Byte) (value : Word),
    ∀ f ∈ [readFrame mode true n base off, writeFrame mode true n base off value],
      xorFold ((f.drop 1).take (f.length - 2)) = 0#8) ∧
  (0x0C#8 ^^^ 0x04#8 ^^^ 0x24#8 ^^^ 0x07#8 ^^^ 0x2B#8 = 0x00#8)

/-- R125: the laws (a) to (e) of the fold. -/
def Obligations.XorFoldLaws : Prop :=
  (∀ b : Byte, xorFold [b] = b) ∧
  (∀ b : Byte, xorFold [b, b] = 0#8) ∧
  (∀ s t : List Byte, s.Perm t → xorFold s = xorFold t) ∧
  (∀ s t : List Byte, xorFold (s ++ t) = xorFold s ^^^ xorFold t) ∧
  (∀ s : List Byte, s.foldl (fun acc b => acc ^^^ b) 0#8 = xorFold s) ∧
  (∀ (s t : List Byte) (b : Byte) (k : Nat), k < 8 →
    xorFold (s ++ (b ^^^ (1#8 <<< k)) :: t) = xorFold (s ++ b :: t) ^^^ (1#8 <<< k))

/-- PARSE_INT (R131): it completes on a span of any length with the unsigned value of its first min(n, 4) bytes, lowest index
in bits 7 to 0. -/
def Obligations.ParseIntReadsTheFirstFourBytes : Prop :=
  ∀ (s : State) (bytes : List Byte), s.xchg = .free → ∃ v : Word,
    exec (.parseInt bytes) s = .next { s with task := .idle, done := some ⟨.ok, .word v⟩ } ∧
    v.toNat = (bytes.getD 0 0#8).toNat + 256 * (bytes.getD 1 0#8).toNat + 65536 * (bytes.getD 2 0#8).toNat +
      16777216 * (bytes.getD 3 0#8).toNat

/-- INT_TO_FIELD (R130): it completes with the four bytes of the value, least significant first. -/
def Obligations.IntToFieldSplitsTheValue : Prop :=
  ∀ (s : State) (v : Word), s.xchg = .free →
    exec (.intToField v) s =
      .next { s with task := .idle, done := some ⟨.ok, .bytes [BitVec.ofNat 8 v.toNat, BitVec.ofNat 8 (v.toNat / 256),
        BitVec.ofNat 8 (v.toNat / 65536), BitVec.ofNat 8 (v.toNat / 16777216)]⟩ }

/-- R132: the two round trips between a 32-bit value and its four bytes. -/
def Obligations.IntegerFieldRoundTrip : Prop :=
  (∀ x : Word, parseInt (intToField x) = x) ∧
  (∀ b : List Byte, b.length = 4 → intToField (parseInt b) = b)

/-- PARSE_BOOL (R133): equality of the whole first byte with 1, the other bytes ignored; an empty span is refused. -/
def Obligations.ParseBoolTestsTheWholeFirstByte : Prop :=
  ∀ s : State, s.xchg = .free →
    (∀ (b : Byte) (rest : List Byte), exec (.parseBool (b :: rest)) s =
      .next { s with task := .idle, done := some ⟨.ok, .bool (decide (b.toNat = 1))⟩ }) ∧
    exec (.parseBool []) s = .refused .parseBoolEmpty

/-- MERGE_BOOL (R135): it completes; bit 0 of the first byte becomes the flag, every other bit and byte stays, and doing it twice
is doing it once. -/
def Obligations.MergeBoolSetsOneBit : Prop :=
  ∀ (s : State) (b0 b1 b2 b3 : Byte) (flag : Bool), s.xchg = .free → ∃ c : Byte,
    exec (.mergeBool b0 b1 b2 b3 flag) s = .next { s with task := .idle, done := some ⟨.ok, .bytes [c, b1, b2, b3]⟩ } ∧
    c.getLsbD 0 = flag ∧ (∀ k, 0 < k → c.getLsbD k = b0.getLsbD k) ∧
    exec (.mergeBool c b1 b2 b3 flag) s = .next { s with task := .idle, done := some ⟨.ok, .bytes [c, b1, b2, b3]⟩ }

/-- R136: PARSE_BOOL and MERGE_BOOL are not inverse: after merging true the first byte is s[0] or 1, which parses as true only
when its other seven bits were zero. -/
def Obligations.BooleanReadAndMergeDisagree : Prop :=
  (∀ (b : Byte) (rest : List Byte), ∃ c, mergeBool (b :: rest) true = c :: rest ∧ c = b ||| 1#8 ∧
    (parseBool (c :: rest) = some true ↔ ∀ k, 0 < k → b.getLsbD k = false)) ∧
  parseBool (mergeBool [0xFE, 0, 0, 0] true) = some false ∧ mergeBool [0xFE, 0, 0, 0] true = [0xFF, 0, 0, 0]

/-- PARSE_TEXT (R134, D7): under the identity decoding all the bytes, in order, unchanged; under any other decoding what that
decoding gives (an unknown function, log 3). -/
def Obligations.ParseTextDecodesTheSpan : Prop :=
  ∀ (s : State) (bytes : List Byte), s.xchg = .free →
    (s.params.textDecoding = .identity → exec (.parseText bytes) s =
      .next { s with task := .idle, done := some ⟨.ok, .bytes bytes⟩ }) ∧
    (s.params.textDecoding = .custom → exec (.parseText bytes) s =
      .next { s with task := .idle, done := some ⟨.ok, .bytes (Config.customText bytes)⟩ })

/-! ### The link state machine -/

/-- The four rows of Idle, in an exchange that waits for its reply, which alone requests events (R186): what each writes, emits
and leaves (R154, R155, R156, R157, R158). A start marker and noise do the same in a read and in a write; an acknowledge leaves a
read waiting, a negative-acknowledge ends it with Nak, and each gives WRITE_EXCHANGE its answer (R187, R188, R189). -/
def Obligations.IdleByteRows : Prop :=
  ∀ s : State, s.link.rxState = .idle →
    (s.xchg = .awaitRead ∨ s.xchg = .awaitWrite →
      (1 ≤ s.params.rxBufBytes → ∃ t, exec .rxIdleSof s = .next t ∧
        t.link.rxState = .awaitingEnd ∧ t.link.rxCount = 1 ∧ t.link.rxLenValid = false ∧
        t.link.rxb.read 0 = some 0x01#8 ∧ (∀ k, 1 ≤ k → t.link.rxb.read k = none) ∧
        t = { s with link := t.link, lsmOut := none }) ∧
      (∀ b : Byte, b ≠ 0x01#8 → b ≠ 0x06#8 → b ≠ 0x15#8 → exec (.rxIdleOther b) s =
        .next { s with lsmOut := none, diag := s.diag ++ [.unexpectedByte b] })) ∧
    (s.xchg = .awaitRead →
      exec .rxIdleAck s = .next { s with lsmOut := some .acknowledged } ∧
      exec .rxIdleNak s = .next { s with
        lsmOut := some .negativeAcknowledged
        xchg := .free, txIdx := 0, task := .idle, done := some ⟨.nak, .none⟩ }) ∧
    (s.xchg = .awaitWrite → s.task = .writeExchange →
      exec .rxIdleAck s = .next { s with
        lsmOut := some .acknowledged
        xchg := .free, txIdx := 0, task := .idle, done := some ⟨.ok, .bool true⟩ } ∧
      exec .rxIdleNak s = .next { s with
        lsmOut := some .negativeAcknowledged
        xchg := .free, txIdx := 0, task := .idle, done := some ⟨.ok, .bool false⟩ })

/-- RX.AWAIT.DATA (R159, R163): in AwaitingEnd with room in the buffer, a byte that is no recognised end marker is stored at
index rx_count and counted, and captured as the length at index 2, in a read and in a write that waits (R186); every other index
of RXB, and everything outside the link state machine, stays. -/
def Obligations.AwaitDataRowStoresTheByte : Prop :=
  ∀ (s : State) (b : Byte), s.xchg = .awaitRead ∨ s.xchg = .awaitWrite → s.link.rxState = .awaitingEnd →
    s.link.rxCount < s.params.rxBufBytes →
    (3 ≤ s.link.rxCount → s.link.rxLenValid = true) →
    (b ≠ 0x03#8 ∨ (s.params.etxMode = .lengthQualified ∧
      (s.link.rxCount < 3 ∨ s.link.rxCount < 3 + s.link.rxLen.toNat))) →
    ∃ t, exec (.rxAwaitData b) s = .next t ∧
      t.link.rxState = .awaitingEnd ∧ t.link.rxCount = s.link.rxCount + 1 ∧
      t.link.rxb.read s.link.rxCount = some b ∧
      (∀ k, k ≠ s.link.rxCount → t.link.rxb.read k = s.link.rxb.read k) ∧
      (s.link.rxCount = 2 → t.link.rxLen = b ∧ t.link.rxLenValid = true) ∧
      (s.link.rxCount ≠ 2 → t.link.rxLen = s.link.rxLen ∧ t.link.rxLenValid = s.link.rxLenValid) ∧
      t = { s with link := t.link, lsmOut := none }

/-- RX.AWAIT.ETX (R160, R138), under both modes: the end marker behind the payload is stored, the payload slice is emitted and
the machine is in Idle; an exchange that waits for an acknowledge waits on, READ_EXCHANGE ends with the payload (R187, R189). -/
def Obligations.EndMarkerRowEmitsThePayload : Prop :=
  ∀ (s : State) (payload : List Byte), s.link.rxState = .awaitingEnd →
    s.link.rxCount < s.params.rxBufBytes → s.link.rxLenValid = true → 3 + s.link.rxLen.toNat ≤ s.link.rxCount →
    s.link.rxb.readAll 3 s.link.rxLen.toNat = some payload →
    (s.xchg = .awaitWrite ∨ (s.xchg = .awaitRead ∧ s.task = .readExchange)) →
    ∃ t, exec .rxAwaitEtx s = .next t ∧
      t.link = { s.link with rxState := .idle, rxb := t.link.rxb, rxCount := s.link.rxCount + 1 } ∧
      t.link.rxb.read s.link.rxCount = some 0x03#8 ∧
      (∀ k, k ≠ s.link.rxCount → t.link.rxb.read k = s.link.rxb.read k) ∧
      (s.xchg = .awaitWrite → t = { s with link := t.link, lsmOut := some (.frameComplete payload) }) ∧
      (s.xchg = .awaitRead → t = { s with
        link := t.link, lsmOut := some (.frameComplete payload)
        xchg := .free, txIdx := 0, task := .idle, done := some ⟨.ok, .bytes payload⟩ })

/-- RX.AWAIT.OVERFLOW and RX.AWAIT.ETX_SHORT (R161, R162), in an exchange that waits (R186): ProtocolError with its reason, the
expected length if it was captured (log 23) and the actual count; the overflowing byte is dropped, the early end marker is stored;
the exchange ends with that error (R189, R237). -/
def Obligations.ProtocolErrorRows : Prop :=
  ∀ (s : State), s.xchg = .awaitRead ∨ s.xchg = .awaitWrite → s.link.rxState = .awaitingEnd →
    let raised (l : Link) (reason : FrameFault) (expected : Option Byte) (actual : Nat) : State :=
      { s with
        link := l, lsmOut := some (.protocolError reason expected actual)
        xchg := .free, txIdx := 0, task := .idle, done := some ⟨.protocolError reason expected actual, .none⟩ }
    (s.link.rxCount = s.params.rxBufBytes → ∀ b : Byte, exec (.rxAwaitOverflow b) s =
      .next (raised { s.link with rxState := .idle } .overflow (if s.link.rxLenValid then some s.link.rxLen else none)
        s.link.rxCount)) ∧
    (s.params.etxMode = .anyEtx → s.link.rxCount < s.params.rxBufBytes →
      ¬ (s.link.rxCount ≠ 2 ∧ s.link.rxLenValid = true ∧ 3 + s.link.rxLen.toNat ≤ s.link.rxCount) →
      ∃ l : Link, exec .rxAwaitEtxShort s =
          .next (raised l .shortFrame
            (if s.link.rxCount = 2 then some 0x03#8 else if s.link.rxLenValid then some s.link.rxLen else none)
            (s.link.rxCount + 1)) ∧
        l.rxState = .idle ∧ l.rxCount = s.link.rxCount + 1 ∧ l.rxb.read s.link.rxCount = some 0x03#8 ∧
        (∀ k, k ≠ s.link.rxCount → l.rxb.read k = s.link.rxb.read k) ∧
        (s.link.rxCount = 2 → l.rxLen = 0x03#8 ∧ l.rxLenValid = true) ∧
        (s.link.rxCount ≠ 2 → l.rxLen = s.link.rxLen ∧ l.rxLenValid = s.link.rxLenValid))

/-- RX.TIMEOUT and RX.IOERROR (R166, R235, R236), in an exchange that waits (R186): from either state of the link state machine,
Idle and the outcome, what was accumulated kept; the exchange ends with that error, Free with tx_idx 0 (R187, R188, R190). -/
def Obligations.TransportEventRows : Prop :=
  ∀ s : State, s.xchg = .awaitRead ∨ s.xchg = .awaitWrite →
    exec .rxTimeout s = .next { s with
      link := { s.link with rxState := .idle }, lsmOut := some .timeout
      xchg := .free, txIdx := 0, task := .idle, done := some ⟨.timeout, .none⟩ } ∧
    exec .rxIoError s = .next { s with
      link := { s.link with rxState := .idle }, lsmOut := some .ioError
      xchg := .free, txIdx := 0, task := .idle, done := some ⟨.ioError, .none⟩ }

/-- R168: the invariants (a) to (d) of the link state machine after every event, from every state of it that meets them. -/
def Obligations.LinkMachineInvariants : Prop :=
  ∀ (s t : State) (e : RxEvent), s.params.wf = true → s.link.Inv s.params → receive e s = .next t →
    (t.link.rxState = .awaitingEnd →
      1 ≤ t.link.rxCount ∧ t.link.rxCount ≤ t.params.rxBufBytes ∧ t.link.rxb.read 0 = some 0x01#8) ∧
    (t.link.rxLenValid = true → 3 ≤ t.link.rxCount ∧ t.link.rxb.read 2 = some t.link.rxLen) ∧
    (t.lsmOut ≠ none → t.link.rxState = .idle) ∧
    (∀ p, t.lsmOut = some (.frameComplete p) →
      t.link.rxb.read 0 = some 0x01#8 ∧ t.link.rxb.read (t.link.rxCount - 1) = some 0x03#8 ∧
      4 + t.link.rxLen.toNat ≤ t.link.rxCount) ∧
    t.link.Inv t.params

/-- R165: from Idle, the reply 0x06 yields Acknowledged, 0x15 NegativeAcknowledged, and a data frame without trailing bytes its
payload: for every flags byte and payload under LENGTH_QUALIFIED, and under ANY_ETX exactly when no byte of it between the start
marker and the end marker is 0x03. The machine is driven by an exchange that waits, and what the outcome does to it is R187, R188
and R189: a read passes over an acknowledge and returns the payload, a write returns its answer and drops the payload. Otherwise
the first 0x03 behind the start marker ends the frame with ProtocolError(ShortFrame) and its count (R162), and the bytes behind it
wait in the transport (that they do is the model's choice, log 18). -/
def Obligations.RepliesYieldTheirOutcomes : Prop :=
  ∀ s : State, s.link.rxState = .idle → s.params.wf = true →
    (s.xchg = .awaitRead ∧ s.task = .readExchange) ∨ (s.xchg = .awaitWrite ∧ s.task = .writeExchange) →
    let ended (o : LinkOutcome) (c : Completion) (l : Link) : State :=
      { s with link := l, lsmOut := some o, xchg := .free, txIdx := 0, task := .idle, done := some c }
    (s.xchg = .awaitRead →
      exec .ack s = .next { s with lsmOut := some .acknowledged } ∧
      exec .nak s = .next (ended .negativeAcknowledged ⟨.nak, .none⟩ s.link)) ∧
    (s.xchg = .awaitWrite →
      exec .ack s = .next (ended .acknowledged ⟨.ok, .bool true⟩ s.link) ∧
      exec .nak s = .next (ended .negativeAcknowledged ⟨.ok, .bool false⟩ s.link)) ∧
    (∀ (f : Byte) (p : List Byte), p.length ≤ 255 →
      ∃ t, exec (.data f p []) s = .next t ∧ t.link.rxState = .idle ∧
        (s.params.etxMode = .lengthQualified → t.lsmOut = some (.frameComplete p)) ∧
        (s.params.etxMode = .anyEtx →
          (t.lsmOut = some (.frameComplete p) ↔ 0x03#8 ∉ f :: BitVec.ofNat 8 p.length :: p)) ∧
        (t.lsmOut = some (.frameComplete p) →
          (s.xchg = .awaitRead → t = ended (.frameComplete p) ⟨.ok, .bytes p⟩ t.link) ∧
          (s.xchg = .awaitWrite → t = { s with link := t.link, lsmOut := some (.frameComplete p) })) ∧
        (t.lsmOut ≠ some (.frameComplete p) →
          let reply := 0x01#8 :: f :: BitVec.ofNat 8 p.length :: (p ++ [0x03#8])
          let count := 2 + ((reply.drop 1).takeWhile (fun b => b ≠ 0x03#8)).length
          let expected := if count = 2 then none else some (BitVec.ofNat 8 p.length)
          t.link.rxCount = count ∧ t.link.rxb.readAll 0 count = some (reply.take count) ∧
          t = { ended (.protocolError .shortFrame expected count) ⟨.protocolError .shortFrame expected count, .none⟩ t.link with
            rxQueue := asEvents (reply.drop count) ++ s.rxQueue }))

/-- DATA, with trailing bytes of any value (R81, R82, R84, R154, R159, R160, R169 e, R169 f, R272), under LENGTH_QUALIFIED, and
under ANY_ETX when flags, length and payload hold no 0x03: a reply that fits the buffer is accumulated, byte for byte, up to the
first end marker behind its payload, and yields its payload; a read returns it, a write drops it and waits on (R187, R189). The
bytes behind an end marker among the trailing bytes wait in the transport, and nothing else changes (that the reply is put to the
framer whole, and that those bytes wait, is the model's choice, log 18). -/
def Obligations.DataReplyIsReassembled : Prop :=
  ∀ (s : State) (f : Byte) (payload trailing : List Byte), s.link.rxState = .idle →
    (s.xchg = .awaitRead ∧ s.task = .readExchange) ∨ s.xchg = .awaitWrite →
    s.params.etxMode = .lengthQualified ∨ 0x03#8 ∉ f :: BitVec.ofNat 8 payload.length :: payload → payload.length ≤ 255 →
    let kept := trailing.takeWhile (fun b => b ≠ 0x03#8)
    let unasked := (trailing ++ [0x03#8]).drop (kept.length + 1)
    4 + payload.length + kept.length ≤ s.params.rxBufBytes →
    ∃ t, exec (.data f payload trailing) s = .next t ∧
      t.link.rxState = .idle ∧ t.link.rxCount = 4 + payload.length + kept.length ∧
      t.link.rxb.readAll 0 t.link.rxCount =
        some (0x01#8 :: f :: BitVec.ofNat 8 payload.length :: (payload ++ kept ++ [0x03#8])) ∧
      (∀ k, t.link.rxCount ≤ k → t.link.rxb.read k = none) ∧
      hostReadRxLen t = .ok (BitVec.ofNat 8 payload.length) ∧
      (s.xchg = .awaitRead → t = { s with
        link := t.link, lsmOut := some (.frameComplete payload), rxQueue := asEvents unasked ++ s.rxQueue
        xchg := .free, txIdx := 0, task := .idle, done := some ⟨.ok, .bytes payload⟩ }) ∧
      (s.xchg = .awaitWrite → t = { s with
        link := t.link, lsmOut := some (.frameComplete payload), rxQueue := asEvents unasked ++ s.rxQueue })

/-! ### The exchange -/

/-- What is refused: an exchange with no frame built (R182); every operation, pseudo-operation and frame form while an exchange is
in flight (R23, R182, U16; for the frame forms the model's choice, log 16); an unassigned select code always (R90); and a receive
event or a reply that was not asked for, because no exchange waits (R39, R186, R240; that it is refused is the model's reading,
log 20). -/
def Obligations.RefusedOperations : Prop :=
  (∀ s : State, s.xchg = .free → s.txLen = 0 →
    exec .readExchange s = .refused .noFrameBuilt ∧ exec .writeExchange s = .refused .noFrameBuilt) ∧
  (∀ (s : State) (i : Instr), s.xchg ≠ .free →
    ((encode i).ch = .op ∨ (encode i).ch = .host ∨ (encode i).ch = .frame) → (∀ code, i ≠ .opUnassigned code) →
    exec i s = .refused .operationInProgress) ∧
  (∀ (s : State) (code : BitVec 4), exec (.opUnassigned code) s = .refused .unassignedSelectCode) ∧
  (∀ (s : State) (i : Instr), s.xchg = .free ∨ s.xchg = .sending →
    ((encode i).ch = .rx ∨ (encode i).ch = .reply) → exec i s = .refused .eventNotRequested)

/-- The serialiser (R183, R62 a): from the start of any exchange, when the transport accepts every byte, TXB goes out in index
order, each byte once and nothing else, and behind the last byte the exchange waits for its reply; no receive event was taken. -/
def Obligations.SerialiserSendsTheFrameInOrder : Prop :=
  ∀ (s : State) (t : HostTask) (bytes : List Byte) (answers : List TxAnswer), s.txLen ≠ 0 →
    s.txb.readAll 0 s.txLen = some bytes → s.txAnswers = List.replicate s.txLen TxAnswer.accepted ++ answers →
    drainFor s.txLen (beginExchange t s) =
      .next { s with
        txAnswers := answers, txWire := s.txWire ++ bytes, txIdx := s.txLen, task := t, xchg := t.awaits }

/-- A byte of the request that the transport fails ends the operation with IoError (R183, R192 f, R201): Free, tx_idx 0, the bytes
before it sent, no receive event taken, the request in TXB. Stated for the two exchanges, for the first request of each of the
thirteen pseudo-operations, and, for the requests behind it, for the send of any blocking call. -/
def Obligations.FailedSendRaisesIoError : Prop :=
  ∀ (s : State) (k : Nat) (answers : List TxAnswer),
    s.txAnswers = List.replicate k TxAnswer.accepted ++ .failed :: answers →
    (∀ bytes : List Byte, k < s.txLen → s.txb.readAll 0 s.txLen = some bytes →
      (s.xchg = .free → ∀ i ∈ [Instr.readExchange, Instr.writeExchange],
        exec i s = .next { s with
          txAnswers := answers, txWire := s.txWire ++ bytes.take k, txIdx := 0, task := .idle
          done := some ⟨.ioError, .none⟩ }) ∧
      (∀ call : HostTask, drainFor (k + 1) (beginExchange call s) = .next { s with
          xchg := .free, txAnswers := answers, txWire := s.txWire ++ bytes.take k, txIdx := 0, task := .idle
          done := some ⟨.ioError, .none⟩ })) ∧
    (∀ (a v : Word) (flag : Bool) (id anyId : Int), s.xchg = .free → 0 ≤ id → id ≤ 3 →
      let read (a : Word) := readFrame s.params.addrWidthMode s.params.useChecksum 4#8 a 4#8
      let write (a v : Word) := writeFrame s.params.addrWidthMode s.params.useChecksum 4#8 a 4#8 v
      ∀ e ∈ [(Instr.readEnum a, read a), (Instr.readBool a, read a), (Instr.readInfo a, read a),
          (Instr.readString a, read a), (Instr.writeBool a flag, read a), (Instr.userSetGetCurrent, read 0x00060040#32),
          (Instr.userSetGetDefault, read 0x00060060#32), (Instr.writeEnum a v, write a v),
          (Instr.writeCommandReg a, write a 1#32), (Instr.userSetSelect id, write 0x00060040#32 (BitVec.ofInt 32 id)),
          (Instr.userSetDefaultSelect id, write 0x00060060#32 (BitVec.ofInt 32 id)),
          (Instr.userSetLoad id true, write 0x00060040#32 (BitVec.ofInt 32 id)),
          (Instr.userSetSave id true, write 0x00060040#32 (BitVec.ofInt 32 id)),
          (Instr.userSetLoad anyId false, write 0x00060000#32 1#32),
          (Instr.userSetSave anyId false, write 0x00060020#32 1#32)],
        k < e.2.length →
        ∃ t, exec e.1 s = .next t ∧ hostReadTxb t 0 t.txLen = .ok e.2 ∧
          t = { s with
            txb := t.txb, txLen := e.2.length, txIdx := 0, task := .idle, done := some ⟨.ioError, .none⟩
            txAnswers := answers, txWire := s.txWire ++ e.2.take k })

/-- READ_EXCHANGE (R187, R189, R192 a, b): the request goes out, noise and acknowledges before the reply are passed over, and
the payload of the data frame is the result; the frame stays in TXB, the events behind the reply stay in the transport. Under
LENGTH_QUALIFIED, for every payload. -/
def Obligations.ReadExchangeReturnsThePayload : Prop :=
  ∀ (s : State) (bytes before : List Byte) (f : Byte) (payload : List Byte) (answers : List TxAnswer)
    (later : List RxEvent),
    s.xchg = .free → s.link.rxState = .idle → s.params.wf = true → s.params.etxMode = .lengthQualified →
    s.txLen ≠ 0 → s.txb.readAll 0 s.txLen = some bytes → payload.length ≤ 255 →
    (∀ b ∈ before, b ≠ 0x01#8 ∧ b ≠ 0x15#8) →
    scripted s s.txLen answers (asEvents (before ++ dataFrame f payload)) later →
    ∃ t, exec .readExchange s = .next t ∧ t.done = some ⟨.ok, .bytes payload⟩ ∧
      t.link.rxState = .idle ∧ t.link.rxCount = 4 + payload.length ∧
      t.link.rxb.readAll 0 t.link.rxCount = some (dataFrame f payload) ∧
      t = { s with
        link := t.link, txIdx := 0, task := .idle, done := t.done, txAnswers := answers, txWire := s.txWire ++ bytes
        rxQueue := later, lsmOut := some (.frameComplete payload), diag := s.diag ++ noiseDiags before }

/-- READ_EXCHANGE when the reply is a negative-acknowledge, a timeout or a transport error (R187, R189, R192 c, d): the error
kind of R230 and nothing of the payload; everything else as for a read that succeeds. -/
def Obligations.ReadExchangeRaisesWhatItMeets : Prop :=
  ∀ (s : State) (bytes before : List Byte) (answers : List TxAnswer) (later : List RxEvent),
    s.xchg = .free → s.link.rxState = .idle → s.txLen ≠ 0 → s.txb.readAll 0 s.txLen = some bytes →
    (∀ b ∈ before, b ≠ 0x01#8 ∧ b ≠ 0x15#8) →
    ∀ e ∈ [(RxEvent.byte 0x15#8, Status.nak, LinkOutcome.negativeAcknowledged),
        (RxEvent.timeout, Status.timeout, LinkOutcome.timeout), (RxEvent.ioError, Status.ioError, LinkOutcome.ioError)],
      scripted s s.txLen answers (asEvents before ++ [e.1]) later →
      exec .readExchange s = .next { s with
        txIdx := 0, task := .idle, done := some ⟨e.2.1, .none⟩, txAnswers := answers, txWire := s.txWire ++ bytes
        rxQueue := later, lsmOut := some e.2.2, diag := s.diag ++ noiseDiags before }

/-- WRITE_EXCHANGE (R188, R189, R192 a, d): behind noise, an acknowledge gives true, a negative-acknowledge false, a timeout or
a transport error raises that error; nothing of the link state machine changes. -/
def Obligations.WriteExchangeReturnsTheAnswer : Prop :=
  ∀ (s : State) (bytes before : List Byte) (answers : List TxAnswer) (later : List RxEvent),
    s.xchg = .free → s.link.rxState = .idle → s.txLen ≠ 0 → s.txb.readAll 0 s.txLen = some bytes →
    (∀ b ∈ before, b ≠ 0x01#8 ∧ b ≠ 0x06#8 ∧ b ≠ 0x15#8) →
    ∀ e ∈ [(RxEvent.byte 0x06#8, Completion.mk .ok (.bool true), LinkOutcome.acknowledged),
        (RxEvent.byte 0x15#8, Completion.mk .ok (.bool false), LinkOutcome.negativeAcknowledged),
        (RxEvent.timeout, Completion.mk .timeout .none, LinkOutcome.timeout),
        (RxEvent.ioError, Completion.mk .ioError .none, LinkOutcome.ioError)],
      scripted s s.txLen answers (asEvents before ++ [e.1]) later →
      exec .writeExchange s = .next { s with
        txIdx := 0, task := .idle, done := some e.2.1, txAnswers := answers, txWire := s.txWire ++ bytes
        rxQueue := later, lsmOut := some e.2.2, diag := s.diag ++ noiseDiags before }

/-- R189: the table of what each outcome does to a pending read and to a pending write: returned, raised, or ignored with the
loop going on. -/
def Obligations.OutcomesResolveAsTabled : Prop :=
  ∀ s : State,
    let ended (c : Completion) : Res :=
      .next { s with xchg := .free, txIdx := 0, task := .idle, done := some c }
    (s.xchg = .awaitRead → s.task = .readExchange →
      (∀ p, resolve (.frameComplete p) s = ended ⟨.ok, .bytes p⟩) ∧
      resolve .acknowledged s = .next s ∧
      resolve .negativeAcknowledged s = ended ⟨.nak, .none⟩ ∧
      (∀ r x a, resolve (.protocolError r x a) s = ended ⟨.protocolError r x a, .none⟩) ∧
      resolve .timeout s = ended ⟨.timeout, .none⟩ ∧ resolve .ioError s = ended ⟨.ioError, .none⟩) ∧
    (s.xchg = .awaitWrite → s.task = .writeExchange →
      (∀ p, resolve (.frameComplete p) s = .next s) ∧
      resolve .acknowledged s = ended ⟨.ok, .bool true⟩ ∧
      resolve .negativeAcknowledged s = ended ⟨.ok, .bool false⟩ ∧
      (∀ r x a, resolve (.protocolError r x a) s = ended ⟨.protocolError r x a, .none⟩) ∧
      resolve .timeout s = ended ⟨.timeout, .none⟩ ∧ resolve .ioError s = ended ⟨.ioError, .none⟩)

/-- However an exchange ends (R190, R242): when the operation has returned, xchg_state is Free, tx_idx 0 and rx_state Idle, and
TXB and tx_len hold the frame still, also when it ended with an error (R242); when it has not, the environment has given no
further answer (R247; log 8). -/
def Obligations.ExchangeEndsCleanOrIsBlocked : Prop :=
  ∀ i ∈ [Instr.readExchange, Instr.writeExchange], ∀ s t, s.Inv → exec i s = .next t →
    t.txb = s.txb ∧ t.txLen = s.txLen ∧
    (t.done ≠ none → t.xchg = .free ∧ t.txIdx = 0 ∧ t.link.rxState = .idle) ∧
    (t.done = none →
      (t.xchg = .sending ∧ t.txAnswers = []) ∨
        ((t.xchg = .awaitRead ∨ t.xchg = .awaitWrite) ∧ t.txIdx = t.txLen ∧ t.rxQueue = []))

/-- Every operation of the OP interface and of the host layer, whenever it answers a next state, has either returned (Free, with
a completion) or is blocked on an environment that has given no further answer (R10, R164, R247; log 8). -/
def Obligations.OperationReturnsOrIsBlocked : Prop :=
  ∀ (i : Instr) (s t : State), ((encode i).ch = .op ∨ (encode i).ch = .host) → s.Inv → exec i s = .next t →
    (t.xchg = .free ∧ t.done ≠ none) ∨
      (t.done = none ∧ ((t.xchg = .sending ∧ t.txAnswers = []) ∨
        ((t.xchg = .awaitRead ∨ t.xchg = .awaitWrite) ∧ t.rxQueue = [])))

/-- No forward progress is promised (R164, R280, U21): on noise and acknowledges alone a read exchange never returns: it uses
them all up and is blocked (R247). That exec answers a next state then, with the exchange in flight and no completion, is the
model's choice (log 8; the earlier completion is gone, log 13). -/
def Obligations.NoiseAloneResolvesNoRead : Prop :=
  ∀ (s : State) (bytes noise : List Byte) (answers : List TxAnswer),
    s.xchg = .free → s.link.rxState = .idle → s.txLen ≠ 0 → s.txb.readAll 0 s.txLen = some bytes →
    (∀ b ∈ noise, b ≠ 0x01#8 ∧ b ≠ 0x15#8) → scripted s s.txLen answers (asEvents noise) [] →
    ∃ t, exec .readExchange s = .next t ∧ t.done = none ∧ t.xchg = .awaitRead ∧ t.rxQueue = [] ∧
      t.link = s.link ∧ t.diag = s.diag ++ noiseDiags noise ∧ t.txWire = s.txWire ++ bytes

/-- The blocking call is the machine's own run (R10, R164, D12: a model may collapse an exchange into one function of an event
list and lose nothing): with nothing presented, k turns of a blocking call are k steps. -/
def Obligations.BlockingCallIsARunOfSteps : Prop :=
  ∀ (k : Nat) (s : State), s.port = [] → drainFor k s = Host.Core.run Sys2Proof.core k s

/-! ### The host layer -/

/-- readEnum, userSetGetCurrent and userSetGetDefault (R202, R213, R214): the read request for 4 bytes at offset 4 goes out and
the payload is decoded as an integer. -/
def Obligations.ReadEnumDecodesTheReply : Prop :=
  ∀ (s : State) (i : Instr) (a : Word) (f : Byte) (p : List Byte) (answers : List TxAnswer) (later : List RxEvent),
    (i = .readEnum a ∨ (i = .userSetGetCurrent ∧ a = 0x00060040#32) ∨ (i = .userSetGetDefault ∧ a = 0x00060060#32)) →
    s.xchg = .free → s.link.rxState = .idle → s.params.wf = true → s.params.etxMode = .lengthQualified →
    p.length ≤ 255 →
    let request := readFrame s.params.addrWidthMode s.params.useChecksum 4#8 a 4#8
    scripted s request.length answers (asEvents (dataFrame f p)) later →
    ∃ t, exec i s = .next t ∧ t.done = some ⟨.ok, .word (parseInt p)⟩ ∧
      hostReadTxb t 0 t.txLen = .ok request ∧
      t.link.rxState = .idle ∧ t.link.rxCount = 4 + p.length ∧ t.link.rxb.readAll 0 t.link.rxCount = some (dataFrame f p) ∧
      t = { s with
        txb := t.txb, txLen := request.length, txIdx := 0, task := .idle, link := t.link, done := t.done
        txAnswers := answers, txWire := s.txWire ++ request, rxQueue := later, lsmOut := some (.frameComplete p) }

/-- readBool (R203): the same read, decoded by the whole first byte; an empty payload has no meaning and is refused (D22). -/
def Obligations.ReadBoolDecodesTheReply : Prop :=
  ∀ (s : State) (a : Word) (f : Byte) (p : List Byte) (answers : List TxAnswer) (later : List RxEvent),
    s.xchg = .free → s.link.rxState = .idle → s.params.wf = true → s.params.etxMode = .lengthQualified →
    p.length ≤ 255 →
    let request := readFrame s.params.addrWidthMode s.params.useChecksum 4#8 a 4#8
    scripted s request.length answers (asEvents (dataFrame f p)) later →
    (∀ b rest, p = b :: rest → ∃ t, exec (.readBool a) s = .next t ∧
      t.done = some ⟨.ok, .bool (decide (b.toNat = 1))⟩ ∧ hostReadTxb t 0 t.txLen = .ok request ∧
      t.link.rxState = .idle ∧ t.link.rxCount = 4 + p.length ∧ t.link.rxb.readAll 0 t.link.rxCount = some (dataFrame f p) ∧
      t = { s with
        txb := t.txb, txLen := request.length, txIdx := 0, task := .idle, link := t.link, done := t.done
        txAnswers := answers, txWire := s.txWire ++ request, rxQueue := later
        lsmOut := some (.frameComplete p) }) ∧
    (p = [] → exec (.readBool a) s = .refused .parseBoolEmpty)

/-- readInfo and readString (R204, R207): the 4-byte size is read at offset 4, then `size` bytes at offset 8; the info is
decoded as an integer, with a warning when the size is above 4, the string as text. -/
def Obligations.TwoPhaseReadsTheSizedValue : Prop :=
  ∀ (s : State) (a : Word) (f1 f2 : Byte) (z p : List Byte) (answers : List TxAnswer) (later : List RxEvent),
    s.xchg = .free → s.link.rxState = .idle → s.params.wf = true → s.params.etxMode = .lengthQualified →
    z.length ≤ 255 → p.length ≤ 255 → 1 ≤ (parseInt z).toNat → (parseInt z).toNat ≤ 255 →
    let first := readFrame s.params.addrWidthMode s.params.useChecksum 4#8 a 4#8
    let second := readFrame s.params.addrWidthMode s.params.useChecksum (BitVec.ofNat 8 (parseInt z).toNat) a 8#8
    scripted s (first.length + second.length) answers (asEvents (dataFrame f1 z ++ dataFrame f2 p)) later →
    (∃ t, exec (.readInfo a) s = .next t ∧ t.done = some ⟨.ok, .word (parseInt p)⟩ ∧
      hostReadTxb t 0 t.txLen = .ok second ∧
      t.link.rxState = .idle ∧ t.link.rxCount = 4 + p.length ∧ t.link.rxb.readAll 0 t.link.rxCount = some (dataFrame f2 p) ∧
      t = { s with
        txb := t.txb, txLen := second.length, txIdx := 0, task := .idle, link := t.link, done := t.done
        txAnswers := answers, txWire := s.txWire ++ first ++ second, rxQueue := later
        lsmOut := some (.frameComplete p)
        diag := s.diag ++ (if 4 < (parseInt z).toNat then [.sizeWarning (parseInt z)] else []) }) ∧
    (∃ t, exec (.readString a) s = .next t ∧ t.done = some ⟨.ok, .bytes (parseText s.params p)⟩ ∧
      hostReadTxb t 0 t.txLen = .ok second ∧
      t.link.rxState = .idle ∧ t.link.rxCount = 4 + p.length ∧ t.link.rxb.readAll 0 t.link.rxCount = some (dataFrame f2 p) ∧
      t = { s with
        txb := t.txb, txLen := second.length, txIdx := 0, task := .idle, link := t.link, done := t.done
        txAnswers := answers, txWire := s.txWire ++ first ++ second, rxQueue := later
        lsmOut := some (.frameComplete p) })

/-- R207, D28: a size of 0 or above 255 ends a two-phase read with InvalidLength; the second exchange is not started. readInfo
emits SizeWarning for a size above 4 before that (R204, R241 c), readString none; RXB holds the reply with the size, and the link
state machine is in Idle (R190). -/
def Obligations.SizeThatDoesNotFitRaisesInvalidLength : Prop :=
  ∀ (s : State) (a : Word) (f : Byte) (z : List Byte) (answers : List TxAnswer) (later : List RxEvent),
    s.xchg = .free → s.link.rxState = .idle → s.params.wf = true → s.params.etxMode = .lengthQualified →
    z.length ≤ 255 → (parseInt z).toNat = 0 ∨ 255 < (parseInt z).toNat →
    let first := readFrame s.params.addrWidthMode s.params.useChecksum 4#8 a 4#8
    scripted s first.length answers (asEvents (dataFrame f z)) later →
    ∀ e ∈ [(Instr.readInfo a, if 255 < (parseInt z).toNat then [Diag.sizeWarning (parseInt z)] else []),
        (Instr.readString a, [])],
      ∃ t, exec e.1 s = .next t ∧ hostReadTxb t 0 t.txLen = .ok first ∧
        t.link.rxState = .idle ∧ t.link.rxCount = 4 + z.length ∧
        t.link.rxb.readAll 0 t.link.rxCount = some (dataFrame f z) ∧
        t = { s with
          txb := t.txb, txLen := first.length, txIdx := 0, task := .idle, link := t.link
          done := some ⟨.invalidLength, .none⟩, txAnswers := answers, txWire := s.txWire ++ first, rxQueue := later
          lsmOut := some (.frameComplete z), diag := s.diag ++ e.2 }

/-- The writes of one exchange (R205, R208, R209, R210, R211, R212): which register each writes, with which value, and that the
answer is the result: true for an acknowledge, false for a negative-acknowledge. A load or save without a select does not look
at its id (D31). -/
def Obligations.SingleWritesSendTheirFrame : Prop :=
  ∀ (s : State) (i : Instr) (a v : Word) (id : Int) (answers : List TxAnswer) (later : List RxEvent),
    (i = .writeEnum a v ∨ (i = .writeCommandReg a ∧ v = 1#32) ∨
      (i = .userSetSelect id ∧ a = 0x00060040#32 ∧ v = BitVec.ofInt 32 id ∧ 0 ≤ id ∧ id ≤ 3) ∨
      (i = .userSetDefaultSelect id ∧ a = 0x00060060#32 ∧ v = BitVec.ofInt 32 id ∧ 0 ≤ id ∧ id ≤ 3) ∨
      (i = .userSetLoad id false ∧ a = 0x00060000#32 ∧ v = 1#32) ∨
      (i = .userSetSave id false ∧ a = 0x00060020#32 ∧ v = 1#32)) →
    s.xchg = .free → s.link.rxState = .idle →
    let request := writeFrame s.params.addrWidthMode s.params.useChecksum 4#8 a 4#8 v
    ∀ e ∈ [(0x06#8, true, LinkOutcome.acknowledged), (0x15#8, false, LinkOutcome.negativeAcknowledged)],
      scripted s request.length answers [.byte e.1] later →
      ∃ t, exec i s = .next t ∧ hostReadTxb t 0 t.txLen = .ok request ∧
        t = { s with
          txb := t.txb, txLen := request.length, txIdx := 0, task := .idle, done := some ⟨.ok, .bool e.2.1⟩
          txAnswers := answers, txWire := s.txWire ++ request, rxQueue := later, lsmOut := some e.2.2 }

/-- R209, R210, R211, R212, R233: an id outside 0 to 3 raises OutOfRange before any build and any I/O: nothing but the
completion changes. -/
def Obligations.UserSetOutOfRangeTouchesNothing : Prop :=
  ∀ (s : State) (id : Int), s.xchg = .free → (id < 0 ∨ 3 < id) →
    ∀ i ∈ [Instr.userSetSelect id, Instr.userSetDefaultSelect id, Instr.userSetLoad id true, Instr.userSetSave id true],
      exec i s = .next { s with task := .idle, done := some ⟨.outOfRange, .none⟩ }

/-- userSetLoad and userSetSave with a select (R211, R212, D31): an acknowledged select is followed by the command write, whose
answer is the result; a refused select ends the sequence with false and the command register is not written. -/
def Obligations.LoadAndSaveSelectFirst : Prop :=
  ∀ (s : State) (i : Instr) (command : Word) (id : Int) (answers : List TxAnswer) (later : List RxEvent),
    (i = .userSetLoad id true ∧ command = 0x00060000#32 ∨ i = .userSetSave id true ∧ command = 0x00060020#32) →
    0 ≤ id → id ≤ 3 → s.xchg = .free → s.link.rxState = .idle →
    let select := writeFrame s.params.addrWidthMode s.params.useChecksum 4#8 0x00060040#32 4#8 (BitVec.ofInt 32 id)
    let go := writeFrame s.params.addrWidthMode s.params.useChecksum 4#8 command 4#8 1#32
    (∀ e ∈ [(0x06#8, true, LinkOutcome.acknowledged), (0x15#8, false, LinkOutcome.negativeAcknowledged)],
      scripted s (select.length + go.length) answers [.byte 0x06#8, .byte e.1] later →
      ∃ t, exec i s = .next t ∧ hostReadTxb t 0 t.txLen = .ok go ∧
        t = { s with
          txb := t.txb, txLen := go.length, txIdx := 0, task := .idle, done := some ⟨.ok, .bool e.2.1⟩
          txAnswers := answers, txWire := s.txWire ++ select ++ go, rxQueue := later, lsmOut := some e.2.2 }) ∧
    (scripted s select.length answers [.byte 0x15#8] later →
      ∃ t, exec i s = .next t ∧ hostReadTxb t 0 t.txLen = .ok select ∧
        t = { s with
          txb := t.txb, txLen := select.length, txIdx := 0, task := .idle, done := some ⟨.ok, .bool false⟩
          txAnswers := answers, txWire := s.txWire ++ select, rxQueue := later
          lsmOut := some .negativeAcknowledged })

/-- writeBool (R206, D30): the current value is read, brought to 4 bytes, its bit 0 set to the flag and every other bit kept,
and the result is written back; the answer to the write is the result. -/
def Obligations.WriteBoolChangesOneBit : Prop :=
  ∀ (s : State) (a : Word) (flag : Bool) (f : Byte) (p : List Byte) (answers : List TxAnswer) (later : List RxEvent),
    s.xchg = .free → s.link.rxState = .idle → s.params.wf = true → s.params.etxMode = .lengthQualified →
    p.length ≤ 255 →
    ∃ v : Word, v.getLsbD 0 = flag ∧ (∀ k, 0 < k → v.getLsbD k = (parseInt p).getLsbD k) ∧
      (let read := readFrame s.params.addrWidthMode s.params.useChecksum 4#8 a 4#8
       let write := writeFrame s.params.addrWidthMode s.params.useChecksum 4#8 a 4#8 v
       ∀ e ∈ [(0x06#8, true, LinkOutcome.acknowledged), (0x15#8, false, LinkOutcome.negativeAcknowledged)],
        scripted s (read.length + write.length) answers (asEvents (dataFrame f p) ++ [.byte e.1]) later →
        ∃ t, exec (.writeBool a flag) s = .next t ∧ hostReadTxb t 0 t.txLen = .ok write ∧
          t.link.rxState = .idle ∧ t.link.rxCount = 4 + p.length ∧
          t.link.rxb.readAll 0 t.link.rxCount = some (dataFrame f p) ∧
          t = { s with
            txb := t.txb, txLen := write.length, txIdx := 0, task := .idle, link := t.link
            done := some ⟨.ok, .bool e.2.1⟩, txAnswers := answers, txWire := s.txWire ++ read ++ write
            rxQueue := later, lsmOut := some e.2.2 })
end

