-- ==== Sys2Proof/Laws/Memory.lean ====
section
/-! SUPPORT. The laws of the buffers: read after write, the canonical form, and the buffers that hold exactly the indexes
below a count. -/

namespace Sys2Proof.Machine

theorem Memory.read_write_same (m : Memory) (i : Nat) (b : Byte) : (m.write i b).read i = some b := by
  induction m with
  | nil => simp [Memory.write, Memory.read]
  | cons c rest ih =>
    obtain ⟨k, d⟩ := c
    simp only [Memory.write]
    split
    · simp [Memory.read]
    · split
      · simp [Memory.read]
      · rename_i h; simp [Memory.read, ih, Ne.symm h]

theorem Memory.read_write_other (m : Memory) {i j : Nat} (b : Byte) (h : j ≠ i) : (m.write i b).read j = m.read j := by
  induction m with
  | nil => simp [Memory.write, Memory.read, Ne.symm h]
  | cons c rest ih =>
    obtain ⟨k, d⟩ := c
    simp only [Memory.write]
    split
    · simp [Memory.read, Ne.symm h]
    · split
      · rename_i hk; subst hk; simp [Memory.read, Ne.symm h]
      · simp [Memory.read, ih]

/-- What a byte reads as after one write. -/
theorem Memory.read_write (m : Memory) (i j : Nat) (b : Byte) :
    (m.write i b).read j = if j = i then some b else m.read j := by
  split
  · rename_i h; subst h; exact m.read_write_same _ b
  · rename_i h; exact m.read_write_other b h

/-- What a byte reads as after a byte sequence was stored. -/
theorem Memory.read_writeAll (m : Memory) (i j : Nat) (s : List Byte) :
    (m.writeAll i s).read j = if i ≤ j ∧ j < i + s.length then s[j - i]? else m.read j := by
  induction s generalizing m i with
  | nil => simp [Memory.writeAll, show ¬ (i ≤ j ∧ j < i) by omega]
  | cons b bs ih =>
    simp only [Memory.writeAll, ih, Memory.read_write, List.length_cons]
    by_cases h1 : i + 1 ≤ j ∧ j < i + 1 + bs.length
    · have h2 : i ≤ j ∧ j < i + (bs.length + 1) := by omega
      have h3 : j - i = (j - (i + 1)) + 1 := by omega
      simp [h1, h2, h3]
    · by_cases h4 : j = i
      · subst h4; simp
      · have h2 : ¬ (i ≤ j ∧ j < i + (bs.length + 1)) := by omega
        rw [if_neg h1, if_neg h2, if_neg h4]

theorem Memory.read_dropFrom (m : Memory) (n i : Nat) :
    (m.dropFrom n).read i = if i < n then m.read i else none := by
  induction m with
  | nil => simp [Memory.dropFrom, Memory.read, Memory.unlisted]
  | cons c rest ih =>
    obtain ⟨k, d⟩ := c
    simp only [Memory.dropFrom] at ih
    by_cases hk : k < n
    · simp only [Memory.dropFrom, List.filter, hk, decide_true, Memory.read, ih]
      by_cases hi : k = i
      · subst hi; simp [hk]
      · simp [hi]
    · simp only [Memory.dropFrom, List.filter, hk, decide_false, ih, Memory.read]
      by_cases hi : k = i
      · subst hi; simp [hk]
      · simp [hi]

/-- The canonical form, as a statement about the list of indexes. -/
theorem Memory.wf_iff (m : Memory) : m.wf = true ↔ (m.map Prod.fst).Pairwise (· < ·) := by
  induction m with
  | nil => simp [Memory.wf]
  | cons c rest ih =>
    obtain ⟨i, a⟩ := c
    cases rest with
    | nil => simp [Memory.wf]
    | cons d rest =>
      obtain ⟨j, b⟩ := d
      simp only [Memory.wf, Bool.and_eq_true, decide_eq_true_eq, ih, List.map_cons, List.pairwise_cons, List.mem_cons]
      constructor
      · rintro ⟨hij, h1, h2⟩
        refine ⟨?_, h1, h2⟩
        rintro x (rfl | hx)
        · exact hij
        · exact Nat.lt_trans hij (h1 x hx)
      · rintro ⟨h0, h1, h2⟩
        exact ⟨h0 j (Or.inl rfl), h1, h2⟩

/-- An index of a written buffer is the index written or one that was there. -/
theorem Memory.mem_write_fst {m : Memory} {i x : Nat} {b : Byte} (h : x ∈ (m.write i b).map Prod.fst) :
    x = i ∨ x ∈ m.map Prod.fst := by
  induction m with
  | nil => simp [Memory.write] at h; exact Or.inl h
  | cons c rest ih =>
    obtain ⟨k, d⟩ := c
    simp only [Memory.write] at h
    split at h
    · simpa using h
    · split at h
      · rename_i hk; subst hk; simp only [List.map_cons, List.mem_cons] at h ⊢
        rcases h with h | h
        · exact Or.inl h
        · exact Or.inr (Or.inr h)
      · simp only [List.map_cons, List.mem_cons] at h ⊢
        rcases h with h | h
        · exact Or.inr (Or.inl h)
        · rcases ih h with h | h
          · exact Or.inl h
          · exact Or.inr (Or.inr h)

theorem Memory.write_wf {m : Memory} (h : m.wf = true) (i : Nat) (b : Byte) : (m.write i b).wf = true := by
  rw [Memory.wf_iff] at *
  induction m with
  | nil => simp [Memory.write]
  | cons c rest ih =>
    obtain ⟨k, d⟩ := c
    simp only [List.map_cons, List.pairwise_cons] at h
    simp only [Memory.write]
    split
    · rename_i hik
      simp only [List.map_cons, List.pairwise_cons, List.mem_cons]
      refine ⟨?_, h⟩
      rintro x (rfl | hx)
      · exact hik
      · exact Nat.lt_trans hik (h.1 x hx)
    · split
      · rename_i hk; subst hk; simpa using h
      · rename_i h1 h2
        simp only [List.map_cons, List.pairwise_cons]
        refine ⟨?_, ih h.2⟩
        intro x hx
        rcases Memory.mem_write_fst hx with rfl | hx
        · omega
        · exact h.1 x hx

theorem Memory.writeAll_wf {m : Memory} (h : m.wf = true) (i : Nat) (s : List Byte) : (m.writeAll i s).wf = true := by
  induction s generalizing m i with
  | nil => exact h
  | cons b bs ih => exact ih (Memory.write_wf h i b) (i + 1)

theorem Memory.dropFrom_wf {m : Memory} (h : m.wf = true) (n : Nat) : (m.dropFrom n).wf = true := by
  rw [Memory.wf_iff] at *
  exact h.sublist (List.Sublist.map _ List.filter_sublist)

/-- A write inside the buffer keeps the canonical form. -/
theorem memWrite_wf {size i : Nat} {m m' : Memory} {s : List Byte} (h : m.wf = true)
    (hw : memWrite size m i s = .ok m') : m'.wf = true := by
  unfold memWrite at hw
  split at hw
  · cases hw; exact Memory.writeAll_wf h i s
  · cases hw

/-- MemWrite answers exactly when the indexes lie in the buffer. -/
theorem memWrite_ok_iff {size i : Nat} {m m' : Memory} {s : List Byte} :
    memWrite size m i s = .ok m' ↔ i + s.length ≤ size ∧ m' = m.writeAll i s := by
  unfold memWrite
  split
  · rename_i h; simp [h, eq_comm]
  · rename_i h; simp [h]

theorem memRead_ok_iff {m : Memory} {i n : Nat} {bs : List Byte} :
    memRead m i n = .ok bs ↔ m.readAll i n = some bs := by
  unfold memRead
  split
  · rename_i h; simp [h]
  · rename_i h; simp [h]

/-- Reading n bytes gives the byte of each index. -/
theorem Memory.readAll_eq_some {m : Memory} {i n : Nat} {bs : List Byte} :
    m.readAll i n = some bs ↔ bs.length = n ∧ ∀ k (h : k < bs.length), m.read (i + k) = some bs[k] := by
  induction n generalizing i bs with
  | zero =>
    constructor
    · intro h; simp [Memory.readAll] at h; subst h; simp
    · rintro ⟨h, -⟩; rw [List.length_eq_zero_iff] at h; subst h; rfl
  | succ n ih =>
    simp only [Memory.readAll]
    constructor
    · intro h
      split at h
      · rename_i b cs h1 h2
        cases h
        obtain ⟨h3, h4⟩ := ih.mp h2
        refine ⟨by simp [h3], ?_⟩
        intro k hk
        cases k with
        | zero => simpa using h1
        | succ k =>
          have := h4 k (by simpa using hk)
          rw [show i + (k + 1) = i + 1 + k by omega]; simpa using this
      · cases h
    · rintro ⟨h1, h2⟩
      cases bs with
      | nil => simp at h1
      | cons b cs =>
        have h3 : m.read i = some b := h2 0 (Nat.succ_pos _)
        have h4 : m.readAll (i + 1) n = some cs := by
          refine ih.mpr ⟨by simpa using h1, ?_⟩
          intro k hk
          have := h2 (k + 1) (by simpa using hk)
          rw [show i + 1 + k = i + (k + 1) by omega]; simpa using this
        simp [h3, h4]

/-- A byte that is there is a member of the list. -/
theorem Memory.read_isSome_iff (m : Memory) (i : Nat) : (m.read i).isSome ↔ i ∈ m.map Prod.fst := by
  induction m with
  | nil => simp [Memory.read, Memory.unlisted]
  | cons c rest ih =>
    obtain ⟨k, d⟩ := c
    by_cases h : k = i
    · simp [Memory.read, h]
    · simp [Memory.read, h, ih, Ne.symm h]

/-- A buffer that holds exactly the indexes below n is in canonical form. -/
theorem Memory.exactly_wf {m : Memory} {n : Nat} (h : m.exactly n) : m.wf = true := by
  rw [Memory.wf_iff, h]; exact List.pairwise_lt_range

theorem Memory.exactly_isSome {m : Memory} {n : Nat} (h : m.exactly n) (i : Nat) : (m.read i).isSome ↔ i < n := by
  rw [Memory.read_isSome_iff, h, List.mem_range]

theorem Memory.exactly_read_none {m : Memory} {n i : Nat} (h : m.exactly n) (hi : n ≤ i) : m.read i = none := by
  have := (Memory.exactly_isSome h i).not.mpr (by omega)
  simpa using this

/-- Canonical buffers are determined by the indexes that hold a value. -/
theorem Memory.exactly_of_wf {m : Memory} {n : Nat} (hw : m.wf = true) (h : ∀ i, (m.read i).isSome ↔ i < n) :
    m.exactly n := by
  rw [Memory.wf_iff] at hw
  refine List.Perm.eq_of_pairwise (le := (· < ·)) ?_ hw List.pairwise_lt_range ?_
  · intro a b _ _ h1 h2; omega
  · refine (List.perm_ext_iff_of_nodup (hw.imp (fun h => Nat.ne_of_lt h)) List.nodup_range).mpr ?_
    intro i; rw [← Memory.read_isSome_iff, h, List.mem_range]

/-- Every read inside a buffer that holds exactly the indexes below n succeeds. -/
theorem Memory.exactly_readAll {m : Memory} {n i k : Nat} (h : m.exactly n) (hk : i + k ≤ n) :
    ∃ bs, m.readAll i k = some bs := by
  induction k generalizing i with
  | zero => exact ⟨[], rfl⟩
  | succ k ih =>
    obtain ⟨bs, hbs⟩ := ih (i := i + 1) (by omega)
    obtain ⟨b, hb⟩ := Option.isSome_iff_exists.mp ((Memory.exactly_isSome h i).mpr (by omega))
    exact ⟨b :: bs, by simp [Memory.readAll, hb, hbs]⟩

/-- The buffers reset leaves are in canonical form. -/
theorem State.reset_txb_wf : State.reset.txb.wf = true := rfl
theorem State.reset_rxb_wf : State.reset.link.rxb.wf = true := rfl

end Sys2Proof.Machine
end

