-- ==== Sys2Proof/Laws/State.lean ====
section
/-! SUPPORT. One lemma per field per named update of the state, so that no later proof unfolds one. -/

namespace Sys2Proof.Machine

@[simp] theorem finishExchange_params (s : State) : (finishExchange s).params = s.params := rfl
@[simp] theorem finishExchange_txb (s : State) : (finishExchange s).txb = s.txb := rfl
@[simp] theorem finishExchange_txLen (s : State) : (finishExchange s).txLen = s.txLen := rfl
@[simp] theorem finishExchange_txIdx (s : State) : (finishExchange s).txIdx = 0 := rfl
@[simp] theorem finishExchange_link (s : State) : (finishExchange s).link = s.link := rfl
@[simp] theorem finishExchange_xchg (s : State) : (finishExchange s).xchg = .free := rfl
@[simp] theorem finishExchange_task (s : State) : (finishExchange s).task = .idle := rfl
@[simp] theorem finishExchange_port (s : State) : (finishExchange s).port = s.port := rfl
@[simp] theorem finishExchange_done (s : State) : (finishExchange s).done = s.done := rfl
@[simp] theorem finishExchange_txAnswers (s : State) : (finishExchange s).txAnswers = s.txAnswers := rfl
@[simp] theorem finishExchange_txWire (s : State) : (finishExchange s).txWire = s.txWire := rfl
@[simp] theorem finishExchange_rxQueue (s : State) : (finishExchange s).rxQueue = s.rxQueue := rfl
@[simp] theorem finishExchange_lsmOut (s : State) : (finishExchange s).lsmOut = s.lsmOut := rfl
@[simp] theorem finishExchange_diag (s : State) : (finishExchange s).diag = s.diag := rfl

@[simp] theorem beginExchange_params (t : HostTask) (s : State) : (beginExchange t s).params = s.params := rfl
@[simp] theorem beginExchange_txb (t : HostTask) (s : State) : (beginExchange t s).txb = s.txb := rfl
@[simp] theorem beginExchange_txLen (t : HostTask) (s : State) : (beginExchange t s).txLen = s.txLen := rfl
@[simp] theorem beginExchange_txIdx (t : HostTask) (s : State) : (beginExchange t s).txIdx = 0 := rfl
@[simp] theorem beginExchange_link (t : HostTask) (s : State) : (beginExchange t s).link = s.link := rfl
@[simp] theorem beginExchange_xchg (t : HostTask) (s : State) : (beginExchange t s).xchg = .sending := rfl
@[simp] theorem beginExchange_task (t : HostTask) (s : State) : (beginExchange t s).task = t := rfl
@[simp] theorem beginExchange_port (t : HostTask) (s : State) : (beginExchange t s).port = s.port := rfl
@[simp] theorem beginExchange_done (t : HostTask) (s : State) : (beginExchange t s).done = s.done := rfl
@[simp] theorem beginExchange_txAnswers (t : HostTask) (s : State) : (beginExchange t s).txAnswers = s.txAnswers := rfl
@[simp] theorem beginExchange_txWire (t : HostTask) (s : State) : (beginExchange t s).txWire = s.txWire := rfl
@[simp] theorem beginExchange_rxQueue (t : HostTask) (s : State) : (beginExchange t s).rxQueue = s.rxQueue := rfl
@[simp] theorem beginExchange_lsmOut (t : HostTask) (s : State) : (beginExchange t s).lsmOut = s.lsmOut := rfl
@[simp] theorem beginExchange_diag (t : HostTask) (s : State) : (beginExchange t s).diag = s.diag := rfl

@[simp] theorem hardReset_params (s : State) : (hardReset s).params = s.params := rfl
@[simp] theorem hardReset_txb (s : State) : (hardReset s).txb = [] := rfl
@[simp] theorem hardReset_txLen (s : State) : (hardReset s).txLen = 0 := rfl
@[simp] theorem hardReset_txIdx (s : State) : (hardReset s).txIdx = 0 := rfl
@[simp] theorem hardReset_link (s : State) : (hardReset s).link = Link.reset := rfl
@[simp] theorem hardReset_xchg (s : State) : (hardReset s).xchg = .free := rfl
@[simp] theorem hardReset_task (s : State) : (hardReset s).task = .idle := rfl
@[simp] theorem hardReset_port (s : State) : (hardReset s).port = s.port := rfl
@[simp] theorem hardReset_done (s : State) : (hardReset s).done = none := rfl
@[simp] theorem hardReset_txAnswers (s : State) : (hardReset s).txAnswers = s.txAnswers := rfl
@[simp] theorem hardReset_txWire (s : State) : (hardReset s).txWire = s.txWire := rfl
@[simp] theorem hardReset_rxQueue (s : State) : (hardReset s).rxQueue = s.rxQueue := rfl
@[simp] theorem hardReset_lsmOut (s : State) : (hardReset s).lsmOut = none := rfl
@[simp] theorem hardReset_diag (s : State) : (hardReset s).diag = s.diag := rfl

@[simp] theorem Link.finish_link_rxState (l : Link) (o : LinkOutcome) : (l.finish o).link.rxState = .idle := rfl
@[simp] theorem Link.noise_link_rxState (l : Link) (b : Byte) : (l.noise b).link.rxState = .idle := rfl
@[simp] theorem Link.finish_link_rxb (l : Link) (o : LinkOutcome) : (l.finish o).link.rxb = l.rxb := rfl
@[simp] theorem Link.noise_link_rxb (l : Link) (b : Byte) : (l.noise b).link.rxb = l.rxb := rfl
@[simp] theorem Link.finish_link_rxCount (l : Link) (o : LinkOutcome) : (l.finish o).link.rxCount = l.rxCount := rfl
@[simp] theorem Link.noise_link_rxCount (l : Link) (b : Byte) : (l.noise b).link.rxCount = l.rxCount := rfl
@[simp] theorem Link.finish_link_rxLen (l : Link) (o : LinkOutcome) : (l.finish o).link.rxLen = l.rxLen := rfl
@[simp] theorem Link.noise_link_rxLen (l : Link) (b : Byte) : (l.noise b).link.rxLen = l.rxLen := rfl
@[simp] theorem Link.finish_link_rxLenValid (l : Link) (o : LinkOutcome) : (l.finish o).link.rxLenValid = l.rxLenValid := rfl
@[simp] theorem Link.noise_link_rxLenValid (l : Link) (b : Byte) : (l.noise b).link.rxLenValid = l.rxLenValid := rfl
@[simp] theorem Link.finish_outcome (l : Link) (o : LinkOutcome) : (l.finish o).outcome = some o := rfl
@[simp] theorem Link.finish_diag (l : Link) (o : LinkOutcome) : (l.finish o).diag = none := rfl
@[simp] theorem Link.noise_outcome (l : Link) (b : Byte) : (l.noise b).outcome = none := rfl
@[simp] theorem Link.noise_diag (l : Link) (b : Byte) : (l.noise b).diag = some (.unexpectedByte b) := rfl

/-! The three control values of R6 that begin a reply are distinct, and so is the end marker. -/
@[simp] theorem ack_ne_sof : Config.ack ≠ Config.sof := by decide
@[simp] theorem nak_ne_sof : Config.nak ≠ Config.sof := by decide
@[simp] theorem nak_ne_ack : Config.nak ≠ Config.ack := by decide
@[simp] theorem eof_ne_sof : Config.eof ≠ Config.sof := by decide
@[simp] theorem eof_ne_ack : Config.eof ≠ Config.ack := by decide
@[simp] theorem eof_ne_nak : Config.eof ≠ Config.nak := by decide

/-- A machine already in Idle does not change when it is put in Idle. -/
theorem Link.idle_eta {l : Link} (h : l.rxState = .idle) : { l with rxState := .idle } = l := by
  cases l; simp_all

@[simp] theorem Res.andThen_next (s : State) (f : State → Res) :
    Res.andThen (Host.Outcome.next s : Res) f = f s := rfl
@[simp] theorem Res.andThen_fault (e : Fault) (f : State → Res) :
    Res.andThen (Host.Outcome.fault e : Res) f = .fault e := rfl
@[simp] theorem Res.andThen_refused (e : Refusal) (f : State → Res) :
    Res.andThen (Host.Outcome.refused e : Res) f = .refused e := rfl

/-- andThen answers a next state exactly when both parts do. -/
theorem Res.andThen_eq_next {r : Res} {f : State → Res} {t : State} :
    r.andThen f = .next t ↔ ∃ s, r = .next s ∧ f s = .next t := by
  cases r <;> simp [Res.andThen]

/-- andThen faults exactly when one of its parts does. -/
theorem Res.andThen_eq_fault {r : Res} {f : State → Res} {e : Fault} :
    r.andThen f = .fault e ↔ r = .fault e ∨ ∃ s, r = .next s ∧ f s = .fault e := by
  cases r <;> simp [Res.andThen]

theorem Res.andThen_assoc (r : Res) (f g : State → Res) :
    (r.andThen f).andThen g = r.andThen fun s => (f s).andThen g := by
  cases r <;> rfl

end Sys2Proof.Machine
end

