-- ==== Sys2Proof/Laws/Ops.lean ====
section
/-! SUPPORT. One lemma per shared operation of Machine/Ops.lean that says everything it can do. -/

namespace Sys2Proof.Machine

@[simp] theorem complete_eq (r : OpResult) (s : State) :
    complete r s = .next { s with done := some ⟨.ok, r⟩, task := .idle } := rfl

@[simp] theorem raiseError_eq (k : Status) (s : State) :
    raiseError k s = .next { s with done := some ⟨k, .none⟩, task := .idle } := rfl

/-- With no exchange in flight an operation is taken, and the earlier completion is gone. -/
theorem issue_free {s : State} (h : s.xchg = .free) (f : State → Res) : issue f s = f { s with done := none } := by
  simp [issue, h]

/-- With an exchange in flight every operation is refused. -/
theorem issue_busy {s : State} (h : s.xchg ≠ .free) (f : State → Res) : issue f s = .refused .operationInProgress := by
  simp [issue, h]

/-- An operation answers a next state only with no exchange in flight. -/
theorem issue_eq_next {f : State → Res} {s t : State} :
    issue f s = .next t ↔ s.xchg = .free ∧ f { s with done := none } = .next t := by
  unfold issue; split <;> simp_all

theorem issue_eq_fault {f : State → Res} {s : State} {e : Fault} :
    issue f s = .fault e ↔ s.xchg = .free ∧ f { s with done := none } = .fault e := by
  unfold issue; split <;> simp_all

/-- A frame is stored exactly when it fits the 13 bytes of TXB. -/
theorem storeFrame_ok_iff {bytes : List Byte} {s s' : State} :
    storeFrame bytes s = .ok s' ↔ bytes.length ≤ Config.txBufBytes ∧
      s' = { s with txb := (s.txb.writeAll 0 bytes).dropFrom bytes.length, txLen := bytes.length } := by
  unfold storeFrame memWrite
  by_cases h : 0 + bytes.length ≤ Config.txBufBytes
  · have h' : bytes.length ≤ Config.txBufBytes := by omega
    rw [if_pos h]; simp [h', eq_comm]
  · have h' : ¬ bytes.length ≤ Config.txBufBytes := by omega
    rw [if_neg h]; simp [h']

/-- What a byte of TXB reads as behind a store: the frame's bytes, and nothing at or above its length. -/
theorem storeFrame_read {bytes : List Byte} {m : Memory} (k : Nat) :
    ((m.writeAll 0 bytes).dropFrom bytes.length).read k = bytes[k]? := by
  rw [Memory.read_dropFrom, Memory.read_writeAll]
  by_cases h : k < bytes.length
  · simp [h]
  · simp [h]

/-- The frame stored reads back whole. -/
theorem storeFrame_readAll {bytes : List Byte} {m : Memory} :
    ((m.writeAll 0 bytes).dropFrom bytes.length).readAll 0 bytes.length = some bytes := by
  rw [Memory.readAll_eq_some]
  refine ⟨rfl, fun k h => ?_⟩
  rw [storeFrame_read]; simp

/-- Over a canonical buffer a store leaves exactly the indexes of the frame. -/
theorem storeFrame_exactly {bytes : List Byte} {m : Memory} (h : m.wf = true) :
    ((m.writeAll 0 bytes).dropFrom bytes.length).exactly bytes.length := by
  refine Memory.exactly_of_wf (Memory.dropFrom_wf (Memory.writeAll_wf h _ _) _) fun i => ?_
  rw [storeFrame_read]
  by_cases h : i < bytes.length
  · simp [h]
  · simp [h]

/-- The bytes of a canonical buffer are the ones its indexes read as. -/
theorem Memory.bytes_eq_of_exactly {m : Memory} {bs : List Byte} (h : m.exactly bs.length)
    (hr : ∀ k, m.read k = bs[k]?) : m.bytes = bs := by
  have hw := Memory.exactly_wf h
  have key : ∀ (m : Memory) (i : Nat), m.map Prod.fst = List.range' i m.length → ∀ k, k < m.length →
      m.read (i + k) = (m.map Prod.snd)[k]? := by
    intro m
    induction m with
    | nil => intro i _ k hk; simp at hk
    | cons c rest ih =>
      obtain ⟨j, d⟩ := c
      intro i hm k hk
      simp only [List.map_cons, List.length_cons, List.range'_succ, List.cons.injEq] at hm
      obtain ⟨rfl, hm⟩ := hm
      cases k with
      | zero => simp [Memory.read]
      | succ k =>
        have := ih (j + 1) hm k (by simpa using hk)
        simp only [Memory.read]
        rw [if_neg (by omega), show j + (k + 1) = j + 1 + k by omega, this]; simp
  have hl : m.length = bs.length := by simpa using congrArg List.length h
  have h' : m.map Prod.fst = List.range' 0 m.length := by rw [hl, ← List.range_eq_range']; exact h
  apply List.ext_getElem?
  intro k
  by_cases hk : k < m.length
  · rw [Memory.bytes, ← key m 0 h' k hk, Nat.zero_add, hr]
  · rw [Memory.bytes, List.getElem?_eq_none (by simpa using hk), List.getElem?_eq_none (by omega)]

/-- A build answers a next state in one of two ways: InvalidLength and nothing else, or the frame stored. -/
theorem build_eq_next {n : Byte} {bytes : List Byte} {s t : State} {f : State → Res} :
    build n bytes s f = .next t ↔
      (n = 0#8 ∧ t = { s with done := some ⟨.invalidLength, .none⟩, task := .idle }) ∨
      (n ≠ 0#8 ∧ bytes.length ≤ Config.txBufBytes ∧
        f { s with txb := (s.txb.writeAll 0 bytes).dropFrom bytes.length, txLen := bytes.length } = .next t) := by
  unfold build
  by_cases hn : n = 0#8
  · simp [hn, eq_comm]
  · simp only [hn, if_false, false_and, false_or, ne_eq, not_false_eq_true, true_and]
    cases h : storeFrame bytes s with
    | error e =>
      have : ¬ bytes.length ≤ Config.txBufBytes := by
        intro hl; have := (storeFrame_ok_iff (s := s)).mpr ⟨hl, rfl⟩; rw [h] at this; cases this
      simp [this]
    | ok s' => obtain ⟨hl, rfl⟩ := storeFrame_ok_iff.mp h; simp [hl]

/-- With a length that is not zero and a frame that fits, a build goes on from the state with the frame stored. -/
theorem build_ok {n : Byte} {bytes : List Byte} (hn : n ≠ 0#8) (hl : bytes.length ≤ Config.txBufBytes) (s : State)
    (f : State → Res) :
    build n bytes s f =
      f { s with txb := (s.txb.writeAll 0 bytes).dropFrom bytes.length, txLen := bytes.length } := by
  unfold build
  rw [if_neg hn, storeFrame_ok_iff.mpr ⟨hl, rfl⟩]

/-- The length check comes first (R101, R111). -/
theorem build_zero (bytes : List Byte) (s : State) (f : State → Res) :
    build 0#8 bytes s f = .next { s with done := some ⟨.invalidLength, .none⟩, task := .idle } := by
  simp [build]

@[simp] theorem leBytes4_length (v : Word) : (leBytes4 v).length = 4 := rfl
@[simp] theorem leBytes2_length (v : BitVec 16) : (leBytes2 v).length = 2 := rfl

@[simp] theorem addrBytes_length (a : Word) (o : Byte) (ext : Bool) :
    (addrBytes a o ext).length = addrBytesCount ext := by
  cases ext <;> rfl

/-- The total length of a frame (R71). -/
theorem frame_length (flags n : Byte) (x : List Byte) (cks : Bool) :
    (frame flags n x cks).length = 4 + x.length + (if cks then 1 else 0) := by
  cases cks <;> simp [frame] <;> omega

theorem readFrame_length (m : AddrWidthMode) (c : Bool) (n : Byte) (a : Word) (o : Byte) :
    (readFrame m c n a o).length = 4 + addrBytesCount (addrExt m a) + (if c then 1 else 0) := by
  simp [readFrame, frame_length]

theorem writeFrame_length (m : AddrWidthMode) (c : Bool) (n : Byte) (a : Word) (o : Byte) (v : Word) :
    (writeFrame m c n a o v).length = 8 + addrBytesCount (addrExt m a) + (if c then 1 else 0) := by
  simp [writeFrame, frame_length]; omega

theorem readFrame_fits (m : AddrWidthMode) (c : Bool) (n : Byte) (a : Word) (o : Byte) :
    (readFrame m c n a o).length ≤ Config.txBufBytes := by
  rw [readFrame_length]; cases addrExt m a <;> cases c <;> simp [addrBytesCount, Config.txBufBytes]

theorem writeFrame_fits (m : AddrWidthMode) (c : Bool) (n : Byte) (a : Word) (o : Byte) (v : Word) :
    (writeFrame m c n a o v).length ≤ Config.txBufBytes := by
  rw [writeFrame_length]; cases addrExt m a <;> cases c <;> simp [addrBytesCount, Config.txBufBytes]

/-- The frames a build makes under an ADDR_WIDTH_MODE: those request_decode accepts with that mode's address width (R26, R85). -/
theorem builtRequest_eq_some {m : AddrWidthMode} {bytes : List Byte} {r : Request} :
    builtRequest m bytes = some r ↔ requestDecode bytes = some r ∧ r.ext = addrExt m r.wireAddress := by
  unfold builtRequest Request.isBuilt
  cases requestDecode bytes with
  | none => simp
  | some q =>
    by_cases hq : q.ext = addrExt m q.wireAddress
    · simp only [hq, decide_true, if_true, Option.some.injEq]
      exact ⟨fun h => ⟨h, h ▸ hq⟩, fun h => h.1⟩
    · simp only [hq, decide_false, Bool.false_eq_true, if_false, Option.some.injEq]
      exact ⟨nofun, fun h => absurd (h.1 ▸ h.2) hq⟩

end Sys2Proof.Machine
end

