-- ==== Sys2Proof/Laws/Link.lean ====
section
/-! SUPPORT. The link state machine: what one transition can do, and that R168 (a) and (b) survive it. -/

namespace Sys2Proof.Machine

/-- What accumulating a byte gives (R159), whenever it is inside the buffer. -/
theorem Link.accumulate_ok_iff {p : Params} {l l' : Link} {b : Byte} :
    l.accumulate p b = .ok l' ↔ l.rxCount + 1 ≤ p.rxBufBytes ∧
      l' = { l with
        rxb := l.rxb.write l.rxCount b
        rxCount := l.rxCount + 1
        rxLen := if l.rxCount = Config.lenIndex then b else l.rxLen
        rxLenValid := if l.rxCount = Config.lenIndex then true else l.rxLenValid } := by
  unfold Link.accumulate memWrite
  by_cases h : l.rxCount + [b].length ≤ p.rxBufBytes
  · rw [if_pos h]
    have h' : l.rxCount + 1 ≤ p.rxBufBytes := h
    simp only [h', true_and, Except.ok.injEq, Memory.writeAll]
    exact eq_comm
  · rw [if_neg h]
    have h' : ¬ l.rxCount + 1 ≤ p.rxBufBytes := h
    simp [h']

/-- What accepting a start marker gives (R154). -/
theorem Link.acceptSof_ok_iff {p : Params} {l : Link} {r : LinkResult} :
    l.acceptSof p = .ok r ↔ 1 ≤ p.rxBufBytes ∧
      r = { link := { l with
              rxb := (l.rxb.write 0 Config.sof).dropFrom 1
              rxCount := 1
              rxLenValid := false
              rxState := .awaitingEnd }
            outcome := none, diag := none } := by
  unfold Link.acceptSof memWrite
  by_cases h : 0 + [Config.sof].length ≤ p.rxBufBytes
  · rw [if_pos h]
    have h' : 1 ≤ p.rxBufBytes := by simpa using h
    simp only [h', true_and, Except.ok.injEq, Memory.writeAll]
    exact eq_comm
  · rw [if_neg h]
    have h' : ¬ 1 ≤ p.rxBufBytes := by simpa using h
    simp [h']

/-- Ending a frame leaves the buffer, the count and the length and emits an outcome in Idle (R160, R162). -/
theorem Link.endFrame_ok {l : Link} {i : Nat} {r : LinkResult} (h : l.endFrame i = .ok r) :
    ∃ o, r = l.finish o ∧
      ((∃ p, o = .frameComplete p ∧ l.rxLenValid = true ∧ 3 + l.rxLen.toNat ≤ i ∧
          l.rxb.readAll 3 l.rxLen.toNat = some p) ∨
        (o = .protocolError .shortFrame l.expected l.rxCount ∧ ¬ (l.rxLenValid = true ∧ 3 + l.rxLen.toNat ≤ i))) := by
  unfold Link.endFrame at h
  split at h
  · rename_i hc
    split at h
    · rename_i p hp
      cases h
      exact ⟨_, rfl, Or.inl ⟨p, rfl, hc.1, hc.2, memRead_ok_iff.mp hp⟩⟩
    · cases h
  · rename_i hc
    cases h
    exact ⟨_, rfl, Or.inr ⟨rfl, hc⟩⟩

/-- Everything one transition can do: the rows of R153. -/
theorem Link.step_cases {p : Params} {l : Link} {e : RxEvent} {r : LinkResult} (h : l.step p e = .ok r) :
    (e = .timeout ∧ r = l.finish .timeout) ∨
    (e = .ioError ∧ r = l.finish .ioError) ∨
    (∃ b, e = .byte b ∧ l.rxState = .idle ∧
      ((b = Config.sof ∧ l.acceptSof p = .ok r) ∨
        (b = Config.ack ∧ r = l.finish .acknowledged) ∨
        (b = Config.nak ∧ r = l.finish .negativeAcknowledged) ∨
        (b ≠ Config.sof ∧ b ≠ Config.ack ∧ b ≠ Config.nak ∧ r = l.noise b))) ∨
    (∃ b, e = .byte b ∧ l.rxState = .awaitingEnd ∧
      ((l.rxCount = p.rxBufBytes ∧ r = l.finish (.protocolError .overflow l.expected l.rxCount)) ∨
        (l.rxCount ≠ p.rxBufBytes ∧ ∃ l', l.accumulate p b = .ok l' ∧
          (r = { link := l', outcome := none, diag := none } ∨
            (b = Config.eof ∧ l'.endRecognised p l.rxCount = .ok true ∧ l'.endFrame l.rxCount = .ok r))))) := by
  cases e with
  | timeout => simp only [Link.step, Except.ok.injEq] at h; exact Or.inl ⟨rfl, h.symm⟩
  | ioError => simp only [Link.step, Except.ok.injEq] at h; exact Or.inr (Or.inl ⟨rfl, h.symm⟩)
  | byte b =>
    simp only [Link.step] at h
    cases hs : l.rxState with
    | idle =>
      rw [hs] at h
      refine Or.inr (Or.inr (Or.inl ⟨b, rfl, rfl, ?_⟩))
      simp only [Link.idleByte] at h
      by_cases h1 : b = Config.sof
      · rw [if_pos h1] at h; exact Or.inl ⟨h1, h⟩
      · rw [if_neg h1] at h
        by_cases h2 : b = Config.ack
        · rw [if_pos h2] at h; cases h; exact Or.inr (Or.inl ⟨h2, rfl⟩)
        · rw [if_neg h2] at h
          by_cases h3 : b = Config.nak
          · rw [if_pos h3] at h; cases h; exact Or.inr (Or.inr (Or.inl ⟨h3, rfl⟩))
          · rw [if_neg h3] at h; cases h; exact Or.inr (Or.inr (Or.inr ⟨h1, h2, h3, rfl⟩))
    | awaitingEnd =>
      rw [hs] at h
      refine Or.inr (Or.inr (Or.inr ⟨b, rfl, rfl, ?_⟩))
      simp only [Link.awaitByte] at h
      by_cases h1 : l.rxCount = p.rxBufBytes
      · rw [if_pos h1] at h; cases h; exact Or.inl ⟨h1, rfl⟩
      · rw [if_neg h1] at h
        refine Or.inr ⟨h1, ?_⟩
        split at h
        · cases h
        · rename_i l' hl'
          refine ⟨l', hl', ?_⟩
          split at h
          · rename_i hb
            split at h
            · cases h
            · rename_i he; exact Or.inr ⟨hb, he, h⟩
            · cases h; exact Or.inl rfl
          · cases h; exact Or.inl rfl

/-- Ending in Idle with an outcome keeps what R168 (a) and (b) say. -/
theorem Link.finish_inv {p : Params} {l : Link} (h : l.Inv p) (o : LinkOutcome) : (l.finish o).link.Inv p := by
  obtain ⟨h1, h2, _, h4, h5, h6⟩ := h
  exact ⟨h1, h2, fun h => by simp at h, h4, h5, h6⟩

/-- Accumulating a byte in AwaitingEnd keeps what R168 (a) and (b) say. -/
theorem Link.accumulate_inv {p : Params} {l l' : Link} {b : Byte} (h : l.Inv p) (hs : l.rxState = .awaitingEnd)
    (ha : l.accumulate p b = .ok l') : l'.Inv p := by
  obtain ⟨hb, rfl⟩ := Link.accumulate_ok_iff.mp ha
  obtain ⟨h1, h2, h3, h4, h5, h6⟩ := h
  have hc := h3 hs
  refine ⟨?_, hb, fun _ => by simp, ?_, ?_, ?_⟩
  · refine Memory.exactly_of_wf (Memory.write_wf (Memory.exactly_wf h1) _ _) fun i => ?_
    rw [Memory.read_write]
    by_cases hi : i = l.rxCount
    · simp [hi]
    · rw [if_neg hi, Memory.exactly_isSome h1]
      show i < l.rxCount ↔ i < l.rxCount + 1
      omega
  · intro _
    simp only
    rw [Memory.read_write_other _ _ (by omega)]
    exact h4 hc
  · simp only [Config.lenIndex]
    by_cases hi : l.rxCount = 2
    · simp [hi]
    · rw [if_neg hi, h5]; omega
  · simp only [Config.lenIndex]
    by_cases hi : l.rxCount = 2
    · intro _; rw [if_pos hi, hi, Memory.read_write_same]
    · intro hv
      rw [if_neg hi] at hv ⊢
      rw [Memory.read_write_other _ _ (Ne.symm hi)]
      exact h6 hv

/-- Accepting a start marker establishes what R168 (a) and (b) say. -/
theorem Link.acceptSof_inv {p : Params} {l : Link} {r : LinkResult} (h : l.Inv p) (ha : l.acceptSof p = .ok r) :
    r.link.Inv p := by
  obtain ⟨hb, rfl⟩ := Link.acceptSof_ok_iff.mp ha
  refine ⟨?_, hb, fun _ => Nat.le_refl _, ?_, by simp, by simp⟩
  · refine Memory.exactly_of_wf (Memory.dropFrom_wf (Memory.write_wf (Memory.exactly_wf h.1) _ _) _) fun i => ?_
    rw [Memory.read_dropFrom, Memory.read_write]
    by_cases hi : i = 0
    · simp [hi]
    · simp [hi]
  · intro _
    rw [Memory.read_dropFrom, Memory.read_write]; simp

/-- One transition keeps what R168 (a) and (b) say. -/
theorem Link.step_inv {p : Params} {l : Link} {e : RxEvent} {r : LinkResult} (h : l.Inv p) (hs : l.step p e = .ok r) :
    r.link.Inv p := by
  rcases Link.step_cases hs with ⟨-, rfl⟩ | ⟨-, rfl⟩ | ⟨b, -, -, hb⟩ | ⟨b, -, hst, hb⟩
  · exact Link.finish_inv h _
  · exact Link.finish_inv h _
  · rcases hb with ⟨-, ha⟩ | ⟨-, rfl⟩ | ⟨-, rfl⟩ | ⟨-, -, -, rfl⟩
    · exact Link.acceptSof_inv h ha
    · exact Link.finish_inv h _
    · exact Link.finish_inv h _
    · obtain ⟨h1, h2, _, h4, h5, h6⟩ := h
      exact ⟨h1, h2, fun h => by simp at h, h4, h5, h6⟩
  · rcases hb with ⟨-, rfl⟩ | ⟨-, l', ha, rfl | ⟨-, -, he⟩⟩
    · exact Link.finish_inv h _
    · exact Link.accumulate_inv h hst ha
    · obtain ⟨o, rfl, -⟩ := Link.endFrame_ok he
      exact Link.finish_inv (Link.accumulate_inv h hst ha) _

/-- Every outcome leaves the machine in Idle (R152, R168 c). -/
theorem Link.step_outcome_idle {p : Params} {l : Link} {e : RxEvent} {r : LinkResult} (hs : l.step p e = .ok r)
    (ho : r.outcome ≠ none) : r.link.rxState = .idle := by
  rcases Link.step_cases hs with ⟨-, rfl⟩ | ⟨-, rfl⟩ | ⟨b, -, -, hb⟩ | ⟨b, -, hst, hb⟩
  · rfl
  · rfl
  · rcases hb with ⟨-, ha⟩ | ⟨-, rfl⟩ | ⟨-, rfl⟩ | ⟨-, -, -, rfl⟩
    · obtain ⟨-, rfl⟩ := Link.acceptSof_ok_iff.mp ha; simp at ho
    · rfl
    · rfl
    · simp at ho
  · rcases hb with ⟨-, rfl⟩ | ⟨-, l', ha, rfl | ⟨-, -, he⟩⟩
    · rfl
    · simp at ho
    · obtain ⟨o, rfl, -⟩ := Link.endFrame_ok he; rfl

/-- In a state that meets R168 every event has a transition: nothing faults. -/
theorem Link.step_total {p : Params} {l : Link} (hp : p.wf = true) (h : l.Inv p) (e : RxEvent) :
    ∃ r, l.step p e = .ok r := by
  have hp' : 260 ≤ p.rxBufBytes := by simpa [Params.wf] using hp
  cases e with
  | timeout => exact ⟨_, rfl⟩
  | ioError => exact ⟨_, rfl⟩
  | byte b =>
    simp only [Link.step]
    cases hs : l.rxState with
    | idle =>
      simp only [Link.idleByte]
      split
      · exact ⟨_, Link.acceptSof_ok_iff.mpr ⟨by omega, rfl⟩⟩
      · split
        · exact ⟨_, rfl⟩
        · split <;> exact ⟨_, rfl⟩
    | awaitingEnd =>
      simp only [Link.awaitByte]
      split
      · exact ⟨_, rfl⟩
      · rename_i hne
        have hacc := Link.accumulate_ok_iff (p := p) (l := l) (b := b) |>.mpr
          ⟨by have := h.2.1; omega, rfl⟩
        have hinv := Link.accumulate_inv h hs hacc
        rw [hacc]
        split
        · cases ‹Except.ok _ = Except.error _›
        · rename_i l' heq
          cases heq
          have hlen := hinv.2.2.2.2.1
          have hex := hinv.1
          simp only at hlen hex
          split
          · simp only [Link.endRecognised]
            have hend : ∀ l' : Link, l'.rxb.exactly l'.rxCount → l.rxCount + 1 = l'.rxCount →
                ∃ r, l'.endFrame l.rxCount = .ok r := by
              intro l' hl' hc
              simp only [Link.endFrame, Config.payloadIndex]
              split
              · rename_i hv
                obtain ⟨bs, hbs⟩ := Memory.exactly_readAll (i := 3) (k := l'.rxLen.toNat) hl' (by omega)
                rw [memRead_ok_iff.mpr hbs]; exact ⟨_, rfl⟩
              · exact ⟨_, rfl⟩
            cases p.etxMode with
            | anyEtx => exact hend _ hex rfl
            | lengthQualified =>
              simp only [Config.payloadIndex]
              split
              · rename_i he; split at he
                · cases he
                · rename_i h3
                  have hv := hlen.mpr (by omega)
                  simp only [Link.readLen, hv, if_true] at he
                  cases he
              · exact hend _ hex rfl
              · exact ⟨_, rfl⟩
          · exact ⟨_, rfl⟩

end Sys2Proof.Machine
end

