-- ==== Sys2Proof/Laws/Sequencer.lean ====
section
/-! SUPPORT. The sequencer: what resolving an outcome, one receive event, one transaction of the environment and a blocking
call can do, and what each leaves unchanged. -/

namespace Sys2Proof.Machine

/-- What the sequencer leaves alone when it answers an outcome: the parameters, the link state machine and its last outcome,
the transport's answers, events and accepted bytes, and what is presented. -/
abbrev SameLink (s t : State) : Prop :=
  t.params = s.params ∧ t.link = s.link ∧ t.lsmOut = s.lsmOut ∧ t.txAnswers = s.txAnswers ∧ t.rxQueue = s.rxQueue ∧
    t.txWire = s.txWire ∧ t.port = s.port

theorem build_sameLink {n : Byte} {bytes : List Byte} {s t : State} {f : State → Res}
    (hf : ∀ s t, f s = .next t → SameLink s t) (h : build n bytes s f = .next t) : SameLink s t := by
  rcases build_eq_next.mp h with ⟨-, rfl⟩ | ⟨-, -, h⟩
  · simp [SameLink]
  · simpa [SameLink] using hf _ _ h

theorem startRead_sameLink {n : Byte} {a : Word} {o : Byte} {k : HostTask} {s t : State}
    (h : startRead n a o k s = .next t) : SameLink s t :=
  build_sameLink (fun s t h => by cases h; simp [SameLink]) h

theorem startWrite_sameLink {a v : Word} {k : HostTask} {s t : State} (h : startWrite a v k s = .next t) :
    SameLink s t :=
  build_sameLink (fun s t h => by cases h; simp [SameLink]) h

theorem startSecondPhase_sameLink {z a : Word} {k : HostTask} {s t : State} (h : startSecondPhase z a k s = .next t) :
    SameLink s t := by
  unfold startSecondPhase at h
  split at h
  · exact startRead_sameLink h
  · cases h; simp [SameLink]

theorem resumeRead_sameLink {k : HostTask} {p : List Byte} {s t : State} (h : resumeRead k p s = .next t) :
    SameLink s t := by
  cases k with
  | infoSize a =>
    have := startSecondPhase_sameLink h
    revert this; split <;> exact id
  | stringSize a => exact startSecondPhase_sameLink h
  | boolRead a f => exact startWrite_sameLink h
  | readBool =>
    simp only [resumeRead] at h
    split at h
    · cases h; simp [SameLink]
    · cases h
  | _ => simp only [resumeRead, complete_eq] at h; cases h; simp [SameLink]

theorem resumeWrite_sameLink {k : HostTask} {ok : Bool} {s t : State} (h : resumeWrite k ok s = .next t) :
    SameLink s t := by
  cases k with
  | selectThen c =>
    simp only [resumeWrite] at h
    split at h
    · exact startWrite_sameLink h
    · cases h; simp [SameLink]
  | _ => simp only [resumeWrite, complete_eq] at h; cases h; simp [SameLink]

theorem resolveRead_sameLink {o : LinkOutcome} {s t : State} (h : resolveRead o s = .next t) : SameLink s t := by
  cases o with
  | frameComplete p => simpa [SameLink] using resumeRead_sameLink h
  | _ => simp only [resolveRead, raiseError_eq] at h; cases h; simp [SameLink]

theorem resolveWrite_sameLink {o : LinkOutcome} {s t : State} (h : resolveWrite o s = .next t) : SameLink s t := by
  cases o with
  | acknowledged => simpa [SameLink] using resumeWrite_sameLink h
  | negativeAcknowledged => simpa [SameLink] using resumeWrite_sameLink h
  | _ => simp only [resolveWrite, raiseError_eq] at h; cases h; simp [SameLink]

/-- The sequencer's answer to an outcome leaves the link state machine and the transport's lists alone. -/
theorem resolve_sameLink {o : LinkOutcome} {s t : State} (h : resolve o s = .next t) : SameLink s t := by
  unfold resolve at h
  split at h
  · cases h; simp [SameLink]
  · cases h; simp [SameLink]
  · exact resolveRead_sameLink h
  · exact resolveWrite_sameLink h

/-- One receive event, processed: exactly one transition, its outputs, and the sequencer's answer if there is an outcome. -/
theorem processEvent_eq {e : RxEvent} {s : State} {r : LinkResult} (h : s.link.step s.params e = .ok r) :
    processEvent e s =
      match r.outcome with
      | none => .next { s with link := r.link, lsmOut := r.outcome, diag := s.diag ++ r.diag.toList }
      | some o => resolve o { s with link := r.link, lsmOut := r.outcome, diag := s.diag ++ r.diag.toList } := by
  obtain ⟨l, o, d⟩ := r
  cases o <;> simp [processEvent, h]

/-- While an exchange waits, a receive event is processed (R186). -/
theorem receive_waiting {s : State} (h : s.xchg = .awaitRead ∨ s.xchg = .awaitWrite) (e : RxEvent) :
    receive e s = processEvent e s := by
  rcases h with h | h <;> simp [receive, h]

/-- With none waiting it was not asked for (R186). -/
theorem receive_unrequested {s : State} (h : s.xchg = .free ∨ s.xchg = .sending) (e : RxEvent) :
    receive e s = .refused .eventNotRequested := by
  rcases h with h | h <;> simp [receive, h]

/-- A receive event answers a next state only while an exchange waits. -/
theorem receive_eq_next {e : RxEvent} {s t : State} :
    receive e s = .next t ↔ (s.xchg = .awaitRead ∨ s.xchg = .awaitWrite) ∧ processEvent e s = .next t := by
  unfold receive; split <;> simp_all

theorem receive_eq_fault {e : RxEvent} {s : State} {f : Fault} :
    receive e s = .fault f ↔ (s.xchg = .awaitRead ∨ s.xchg = .awaitWrite) ∧ processEvent e s = .fault f := by
  unfold receive; split <;> simp_all

/-- What one receive event leaves behind on the link side, whatever the sequencer does with its outcome. -/
theorem receive_link {e : RxEvent} {s t : State} (h : receive e s = .next t) :
    ∃ r, s.link.step s.params e = .ok r ∧ t.link = r.link ∧ t.lsmOut = r.outcome ∧ t.params = s.params ∧
      t.txAnswers = s.txAnswers ∧ t.rxQueue = s.rxQueue ∧ t.txWire = s.txWire ∧ t.port = s.port := by
  have h := (receive_eq_next.mp h).2
  unfold processEvent at h
  split at h
  · cases h
  · rename_i r hr
    refine ⟨r, hr, ?_⟩
    split at h
    · cases h; simp_all
    · rename_i o ho
      obtain ⟨h1, h2, h3, h4, h5, h6, h7⟩ := resolve_sameLink h
      exact ⟨h2, h3, h1, h4, h5, h6, h7⟩

theorem drainFor_zero (s : State) : drainFor 0 s = .next s := rfl

/-- An operation that has returned is not gone on with. -/
theorem drainFor_free {s : State} (h : s.xchg = .free) (n : Nat) : drainFor n s = .next s := by
  cases n with
  | zero => rfl
  | succ n => simp [drainFor, h]

/-- With an exchange in flight a blocking call goes on by one transaction. -/
theorem drainFor_succ {s : State} (h : s.xchg ≠ .free) (n : Nat) :
    drainFor (n + 1) s = (tick s).andThen (drainFor n) := by
  simp [drainFor, h]

/-- A blocking call may be cut anywhere. -/
theorem drainFor_add (m n : Nat) (s : State) : drainFor (m + n) s = (drainFor m s).andThen (drainFor n) := by
  induction m generalizing s with
  | zero => simp [drainFor_zero]
  | succ m ih =>
    by_cases h : s.xchg = .free
    · rw [drainFor_free h, drainFor_free h, Res.andThen_next, drainFor_free h]
    · rw [show m + 1 + n = (m + n) + 1 by omega, drainFor_succ h, drainFor_succ h, Res.andThen_assoc]
      cases tick s with
      | next s' => simp [ih]
      | fault e => rfl
      | refused e => rfl

/-- An invariant of single transactions is an invariant of a blocking call. -/
theorem drainFor_keeps {P : State → Prop} (h : ∀ s t, P s → s.xchg ≠ .free → tick s = .next t → P t) :
    ∀ n s t, P s → drainFor n s = .next t → P t := by
  intro n
  induction n with
  | zero => intro s t hs h; cases h; exact hs
  | succ n ih =>
    intro s t hs hd
    by_cases hf : s.xchg = .free
    · rw [drainFor_free hf] at hd; cases hd; exact hs
    · rw [drainFor_succ hf] at hd
      obtain ⟨s', h1, h2⟩ := Res.andThen_eq_next.mp hd
      exact ih s' t (h s s' hs hf h1) h2

/-- A blocking call that goes on from good states through transactions that do not fault does not fault. -/
theorem drainFor_noFault {P : State → Prop} (h : ∀ s t, P s → s.xchg ≠ .free → tick s = .next t → P t)
    (hf : ∀ s e, P s → s.xchg ≠ .free → tick s ≠ .fault e) : ∀ n s e, P s → drainFor n s ≠ .fault e := by
  intro n
  induction n with
  | zero => intro s e _ h; cases h
  | succ n ih =>
    intro s e hs hd
    by_cases hx : s.xchg = .free
    · rw [drainFor_free hx] at hd; cases hd
    · rw [drainFor_succ hx] at hd
      rcases Res.andThen_eq_fault.mp hd with h1 | ⟨s', h1, h2⟩
      · exact hf s e hs hx h1
      · exact ih s' e (h s s' hs hx h1) h2

/-- What one turn of the send loop can do (R183). -/
theorem sendByte_cases {s t : State} (h : sendByte s = .next t) :
    ∃ b, s.txb.read s.txIdx = some b ∧
      ((s.txAnswers = [] ∧ t = s) ∨
        (∃ rest, s.txAnswers = .accepted :: rest ∧
          t = { s with txAnswers := rest, txWire := s.txWire ++ [b], txIdx := s.txIdx + 1,
                       xchg := if s.txIdx + 1 < s.txLen then .sending else s.task.awaits }) ∨
        (∃ rest, s.txAnswers = .failed :: rest ∧
          t = { s with txAnswers := rest, xchg := .free, txIdx := 0, task := .idle, done := some ⟨.ioError, .none⟩ })) := by
  unfold sendByte at h
  split at h
  · cases h
  · rename_i bs hbs
    rw [memRead_ok_iff, Memory.readAll_eq_some] at hbs
    obtain ⟨hl, hr⟩ := hbs
    obtain ⟨b, rfl⟩ := List.length_eq_one_iff.mp hl
    refine ⟨b, by simpa using hr 0 (by simp), ?_⟩
    split at h
    · rename_i hq; cases h; exact Or.inl ⟨hq, rfl⟩
    · rename_i rest hq; cases h; exact Or.inr (Or.inl ⟨rest, hq, rfl⟩)
    · rename_i rest hq; cases h; exact Or.inr (Or.inr ⟨rest, hq, rfl⟩)

/-- With a byte at tx_idx the send loop never faults. -/
theorem sendByte_of_read {s : State} {b : Byte} (h : s.txb.read s.txIdx = some b) : ∃ t, sendByte s = .next t := by
  have : memRead s.txb s.txIdx 1 = .ok [b] := by
    rw [memRead_ok_iff, Memory.readAll_eq_some]
    refine ⟨rfl, fun k hk => ?_⟩
    have : k = 0 := by simpa using hk
    subst this; simpa using h
  simp only [sendByte, this]
  split
  · exact ⟨_, rfl⟩
  · exact ⟨_, rfl⟩
  · exact ⟨_, rfl⟩

/-- The transaction taken is the first one the framer takes; those before it are not taken now. -/
theorem takeFirst_eq_some {s : State} {l others : List Transaction} {t : Transaction} :
    takeFirst s l = some (t, others) ↔
      ∃ before rest, l = before ++ t :: rest ∧ others = before ++ rest ∧ accepts s t = true ∧
        ∀ u ∈ before, accepts s u = false := by
  induction l generalizing t others with
  | nil => simp [takeFirst]
  | cons u l ih =>
    unfold takeFirst
    by_cases hu : accepts s u = true
    · simp only [hu, if_true, Option.some.injEq, Prod.mk.injEq]
      constructor
      · rintro ⟨rfl, rfl⟩; exact ⟨[], l, rfl, rfl, hu, by simp⟩
      · rintro ⟨before, rest, h1, h2, h3, h4⟩
        cases before with
        | nil => simp only [List.nil_append, List.cons.injEq] at h1; subst h2; exact ⟨h1.1, h1.2⟩
        | cons v before =>
          simp only [List.cons_append, List.cons.injEq] at h1
          have := h4 v (by simp); rw [← h1.1, hu] at this; cases this
    · simp only [hu, Bool.false_eq_true, if_false]
      constructor
      · intro h
        split at h
        · rename_i w o hw
          cases h
          obtain ⟨before, rest, h1, h2, h3, h4⟩ := ih.mp hw
          exact ⟨u :: before, rest, by simp [h1], by simp [h2], h3, by simpa [hu] using h4⟩
        · cases h
      · rintro ⟨before, rest, h1, h2, h3, h4⟩
        cases before with
        | nil =>
          simp only [List.nil_append, List.cons.injEq] at h1
          rw [h1.1, h3] at hu; exact absurd rfl hu
        | cons v before =>
          simp only [List.cons_append, List.cons.injEq] at h1
          have := ih.mpr ⟨before, rest, h1.2, rfl, h3, fun w hw => h4 w (by simp [hw])⟩
          simp [this, h2, h1.1]

/-- Nothing is taken exactly when the framer takes none of what is presented. -/
theorem takeFirst_eq_none {s : State} {l : List Transaction} :
    takeFirst s l = none ↔ ∀ u ∈ l, accepts s u = false := by
  induction l with
  | nil => simp [takeFirst]
  | cons u l ih =>
    unfold takeFirst
    by_cases hu : accepts s u = true
    · simp [hu]
    · simp only [hu, Bool.false_eq_true, if_false, List.mem_cons, forall_eq_or_imp, true_and]
      rw [← ih]
      split <;> simp_all

/-- With no exchange in flight, presenting a frame that a build makes is that build's store. -/
theorem presentFrame_built {n : Byte} {bytes : List Byte} {s : State} (hs : s.xchg = .free)
    (hb : builtRequest s.params.addrWidthMode bytes ≠ none) :
    presentFrame n bytes s = build n bytes { s with done := none } (complete .none) := by
  have hd : requestDecode bytes ≠ none := fun h => hb (by simp [builtRequest, h])
  simp [presentFrame, issue_free hs, hb, hd]

end Sys2Proof.Machine
end

