-- ==== Sys2Proof/Laws/PerInstr.lean ====
section
/-! SUPPORT. Statements made for every instruction, one lemma per constructor. -/

namespace Sys2Proof.Laws.EncodedForm

/-- The channel an instruction is presented on and the number of bytes of its transaction: the total lengths of R72, one byte
for a control reply (R80), 4 + N and the trailing bytes for a data frame (R81), and the model's own layout elsewhere. -/
def form : Instr → Channel × Nat
  | .rdS _ _ _ => (.frame, 6)
  | .rdSC _ _ _ _ => (.frame, 7)
  | .rdX _ _ _ => (.frame, 8)
  | .rdXC _ _ _ _ => (.frame, 9)
  | .wrS _ _ _ _ => (.frame, 10)
  | .wrSC _ _ _ _ _ => (.frame, 11)
  | .wrX _ _ _ _ => (.frame, 12)
  | .wrXC _ _ _ _ _ => (.frame, 13)
  | .ack => (.reply, 1)
  | .nak => (.reply, 1)
  | .data _ p t => (.reply, 4 + p.length + t.length)
  | .rxIdleSof => (.rx, 2)
  | .rxIdleAck => (.rx, 2)
  | .rxIdleNak => (.rx, 2)
  | .rxIdleOther _ => (.rx, 2)
  | .rxAwaitOverflow _ => (.rx, 2)
  | .rxAwaitData _ => (.rx, 2)
  | .rxAwaitEtx => (.rx, 2)
  | .rxAwaitEtxShort => (.rx, 2)
  | .rxTimeout => (.rx, 1)
  | .rxIoError => (.rx, 1)
  | .buildRead _ _ _ _ => (.op, 8)
  | .buildWrite _ _ _ _ _ => (.op, 12)
  | .checksum bytes => (.op, 1 + bytes.length)
  | .parseInt bytes => (.op, 1 + bytes.length)
  | .parseText bytes => (.op, 1 + bytes.length)
  | .parseBool bytes => (.op, 1 + bytes.length)
  | .intToField _ => (.op, 5)
  | .mergeBool _ _ _ _ _ => (.op, 6)
  | .readExchange => (.op, 1)
  | .writeExchange => (.op, 1)
  | .opUnassigned _ => (.op, 1)
  | .readEnum _ => (.host, 5)
  | .readBool _ => (.host, 5)
  | .readInfo _ => (.host, 5)
  | .readString _ => (.host, 5)
  | .writeEnum _ _ => (.host, 9)
  | .writeBool _ _ => (.host, 6)
  | .writeCommandReg _ => (.host, 5)
  | .userSetSelect _ => (.host, 5)
  | .userSetDefaultSelect _ => (.host, 5)
  | .userSetLoad _ _ => (.host, 6)
  | .userSetSave _ _ => (.host, 6)
  | .userSetGetCurrent => (.host, 1)
  | .userSetGetDefault => (.host, 1)

/-- An encoded instruction stands on its channel and has the number of bytes its table gives it. -/
def Statement (i : Instr) : Prop := (encode i).ch = (form i).1 ∧ (encode i).bytes.length = (form i).2

theorem rdS : ∀ n a e, Statement (.rdS n a e) := by
  intros
  exact ⟨rfl, rfl⟩

theorem rdSC : ∀ n a k e, Statement (.rdSC n a k e) := by
  intros
  exact ⟨rfl, rfl⟩

theorem rdX : ∀ n a e, Statement (.rdX n a e) := by
  intros
  exact ⟨rfl, rfl⟩

theorem rdXC : ∀ n a k e, Statement (.rdXC n a k e) := by
  intros
  exact ⟨rfl, rfl⟩

theorem wrS : ∀ n a v e, Statement (.wrS n a v e) := by
  intros
  exact ⟨rfl, rfl⟩

theorem wrSC : ∀ n a v k e, Statement (.wrSC n a v k e) := by
  intros
  exact ⟨rfl, rfl⟩

theorem wrX : ∀ n a v e, Statement (.wrX n a v e) := by
  intros
  exact ⟨rfl, rfl⟩

theorem wrXC : ∀ n a v k e, Statement (.wrXC n a v k e) := by
  intros
  exact ⟨rfl, rfl⟩

theorem ack : Statement .ack := ⟨rfl, rfl⟩

theorem nak : Statement .nak := ⟨rfl, rfl⟩

theorem data : ∀ f p t, Statement (.data f p t) := by
  intro f p t
  refine ⟨rfl, ?_⟩
  simp only [encode, form, List.length_cons, List.length_append, List.length_nil]
  omega

theorem rxIdleSof : Statement .rxIdleSof := ⟨rfl, rfl⟩

theorem rxIdleAck : Statement .rxIdleAck := ⟨rfl, rfl⟩

theorem rxIdleNak : Statement .rxIdleNak := ⟨rfl, rfl⟩

theorem rxIdleOther : ∀ b, Statement (.rxIdleOther b) := by
  intros
  exact ⟨rfl, rfl⟩

theorem rxAwaitOverflow : ∀ b, Statement (.rxAwaitOverflow b) := by
  intros
  exact ⟨rfl, rfl⟩

theorem rxAwaitData : ∀ b, Statement (.rxAwaitData b) := by
  intros
  exact ⟨rfl, rfl⟩

theorem rxAwaitEtx : Statement .rxAwaitEtx := ⟨rfl, rfl⟩

theorem rxAwaitEtxShort : Statement .rxAwaitEtxShort := ⟨rfl, rfl⟩

theorem rxTimeout : Statement .rxTimeout := ⟨rfl, rfl⟩

theorem rxIoError : Statement .rxIoError := ⟨rfl, rfl⟩

theorem buildRead : ∀ c n a o, Statement (.buildRead c n a o) := by
  intros
  exact ⟨rfl, rfl⟩

theorem buildWrite : ∀ c n a o v, Statement (.buildWrite c n a o v) := by
  intros
  exact ⟨rfl, rfl⟩

theorem checksum : ∀ bytes, Statement (.checksum bytes) := by
  intro bytes
  exact ⟨rfl, by simp only [encode, form, List.length_cons]; omega⟩

theorem parseInt : ∀ bytes, Statement (.parseInt bytes) := by
  intro bytes
  exact ⟨rfl, by simp only [encode, form, List.length_cons]; omega⟩

theorem parseText : ∀ bytes, Statement (.parseText bytes) := by
  intro bytes
  exact ⟨rfl, by simp only [encode, form, List.length_cons]; omega⟩

theorem parseBool : ∀ bytes, Statement (.parseBool bytes) := by
  intro bytes
  exact ⟨rfl, by simp only [encode, form, List.length_cons]; omega⟩

theorem intToField : ∀ v, Statement (.intToField v) := by
  intros
  exact ⟨rfl, rfl⟩

theorem mergeBool : ∀ b0 b1 b2 b3 f, Statement (.mergeBool b0 b1 b2 b3 f) := by
  intros
  exact ⟨rfl, rfl⟩

theorem readExchange : Statement .readExchange := ⟨rfl, rfl⟩

theorem writeExchange : Statement .writeExchange := ⟨rfl, rfl⟩

theorem opUnassigned : ∀ code, Statement (.opUnassigned code) := by
  intros
  exact ⟨rfl, rfl⟩

theorem readEnum : ∀ a, Statement (.readEnum a) := by
  intros
  exact ⟨rfl, rfl⟩

theorem readBool : ∀ a, Statement (.readBool a) := by
  intros
  exact ⟨rfl, rfl⟩

theorem readInfo : ∀ a, Statement (.readInfo a) := by
  intros
  exact ⟨rfl, rfl⟩

theorem readString : ∀ a, Statement (.readString a) := by
  intros
  exact ⟨rfl, rfl⟩

theorem writeEnum : ∀ a v, Statement (.writeEnum a v) := by
  intros
  exact ⟨rfl, rfl⟩

theorem writeBool : ∀ a f, Statement (.writeBool a f) := by
  intros
  exact ⟨rfl, rfl⟩

theorem writeCommandReg : ∀ a, Statement (.writeCommandReg a) := by
  intros
  exact ⟨rfl, rfl⟩

theorem userSetSelect : ∀ id, Statement (.userSetSelect id) := by
  intros
  exact ⟨rfl, rfl⟩

theorem userSetDefaultSelect : ∀ id, Statement (.userSetDefaultSelect id) := by
  intros
  exact ⟨rfl, rfl⟩

theorem userSetLoad : ∀ id f, Statement (.userSetLoad id f) := by
  intros
  exact ⟨rfl, rfl⟩

theorem userSetSave : ∀ id f, Statement (.userSetSave id f) := by
  intros
  exact ⟨rfl, rfl⟩

theorem userSetGetCurrent : Statement .userSetGetCurrent := ⟨rfl, rfl⟩

theorem userSetGetDefault : Statement .userSetGetDefault := ⟨rfl, rfl⟩

end Sys2Proof.Laws.EncodedForm
end

