-- ==== Sys2Proof/Tests/Slice0.lean ====
section
/-! SUPPORT. Tests on fixed values: ill-formed terms refused, one written-out word decoded for every constructor, one or two
single steps for every instruction with results taken from spec/95_test_vectors.md (V, P and S numbers), and for every
statement with hypotheses a state and operands that meet them. -/

namespace Sys2Proof.Tests

open Sys2Proof Sys2Proof.Machine

/-! ### Helpers -/

/-- Reset with USE_CHECKSUM = true, as section 8 of the vectors has it. -/
def quiet : State := { State.reset with params := { Params.default with useChecksum := true } }

/-- The same under ANY_ETX. -/
def quietAny : State := { quiet with params := { quiet.params with etxMode := .anyEtx } }

/-- A buffer that holds these bytes from index i. -/
def cells (i : Nat) : List Byte → Memory
  | [] => []
  | b :: bs => (i, b) :: cells (i + 1) bs

/-- The frame is in TXB. -/
def built (frame : List Byte) (s : State) : State := { s with txb := cells 0 frame, txLen := frame.length }

/-- These bytes of a reply data frame have been accumulated. -/
def heard (bs : List Byte) (s : State) : State :=
  { s with link :=
      { rxState := .awaitingEnd, rxb := cells 0 bs, rxCount := bs.length, rxLen := bs.getD 2 0#8
        rxLenValid := decide (3 ≤ bs.length) } }

/-- The environment accepts n bytes, then answers with these bytes. -/
def env (n : Nat) (reply : List Byte) (s : State) : State :=
  { s with txAnswers := List.replicate n .accepted, rxQueue := asEvents reply }

/-- An exchange waits for its reply. -/
def waiting (t : HostTask) (s : State) : State := { s with xchg := t.awaits, txIdx := s.txLen, task := t }

/-- The completion of a next state. -/
def doneOf : Res → Option Completion
  | .next t => t.done
  | .fault _ => none
  | .refused _ => none

/-- The bytes of TXB in a next state. -/
def sent : Res → Option (Nat × List Byte)
  | .next t => some (t.txLen, t.txb.bytes)
  | .fault _ => none
  | .refused _ => none

/-- The bytes the transport accepted. -/
def wire : Res → Option (List Byte)
  | .next t => some t.txWire
  | .fault _ => none
  | .refused _ => none

/-- What the link state machine of a next state shows: outcome, state, count, and length if it is valid. -/
def linkOf : Res → Option (Option LinkOutcome × RxState × Nat × Option Byte)
  | .next t => some (t.lsmOut, t.link.rxState, t.link.rxCount, t.link.expected)
  | .fault _ => none
  | .refused _ => none

/-- The diagnostics of a next state. -/
def diagOf : Res → Option (List Diag)
  | .next t => some t.diag
  | .fault _ => none
  | .refused _ => none

/-- V1. -/
def v1 : List Byte := [0x01, 0x0C, 0x04, 0x24, 0x07, 0x2B, 0x03]
/-- V20. -/
def v20 : List Byte := [0x01, 0x04, 0x04, 0x24, 0x07, 0x05, 0x00, 0x00, 0x00, 0x26, 0x03]

/-- A read request sent and its reply waited for. -/
def reading : State := waiting .readExchange (built v1 quiet)
/-- A write request sent and its answer waited for. -/
def writing : State := waiting .writeExchange (built v20 quiet)
/-- The same two under ANY_ETX. -/
def readingAny : State := waiting .readExchange (built v1 quietAny)
def writingAny : State := waiting .writeExchange (built v20 quietAny)

/-! ### Ill-formed terms (R81, R82, R85, R90, R158; log 21) -/

theorem test_wf_length_zero : (Instr.rdS 0 0x0724 3).wf = false := by decide
theorem test_wf_end_marker : (Instr.wrX 4 0x00060044 3 4).wf = false := by decide
theorem test_wf_checksum_rdSC : (Instr.rdSC 4 0x0724 0x2D 3).wf = false := by decide
theorem test_wf_checksum_rdXC : (Instr.rdXC 4 0x00060044 0x4A 3).wf = false := by decide
theorem test_wf_checksum_wrSC : (Instr.wrSC 4 0x0724 5 0x27 3).wf = false := by decide
theorem test_wf_checksum_wrXC : (Instr.wrXC 4 0x00060044 2 0x40 3).wf = false := by decide
theorem test_wf_fields_rdX : (Instr.rdX 0 0x00060044 3).wf = false := by decide
theorem test_wf_fields_wrS : (Instr.wrS 4 0x0724 5 0).wf = false := by decide
theorem test_wf_fields_under_checksum : (Instr.rdSC 0 0x0724 0x2F 3).wf = false := by decide
theorem test_wf_payload_256 : (Instr.data 0 (List.replicate 256 0) []).wf = false := by
  rw [Instr.wf, List.length_replicate]; decide
theorem test_wf_trailing_any_value : (Instr.data 0 [] [0x5C, 0x03]).wf = true := by decide -- R84
theorem test_wf_noise_sof : (Instr.rxIdleOther 0x01).wf = false := by decide
theorem test_wf_noise_ack : (Instr.rxIdleOther 0x06).wf = false := by decide
theorem test_wf_noise_nak : (Instr.rxIdleOther 0x15).wf = false := by decide
theorem test_wf_select_code_9 : (Instr.opUnassigned 9).wf = false := by decide
theorem test_wf_id_select : (Instr.userSetSelect 2147483648).wf = false := by decide
theorem test_wf_id_default : (Instr.userSetDefaultSelect (-2147483649)).wf = false := by decide
theorem test_wf_id_load : (Instr.userSetLoad 2147483648 true).wf = false := by decide
theorem test_wf_id_save : (Instr.userSetSave (-2147483649) false).wf = false := by decide
theorem test_admitted_data_not_in_idle : (Instr.rxAwaitData 5).admitted RxCtx.reset = false := by decide
theorem test_admitted_sof_not_in_awaiting :
    Instr.rxIdleSof.admitted ⟨true, false, false, false⟩ = false := by decide

/-! ### Words written out from the spec's encodings -/

theorem test_decode_rdS : decodeFrame [0x01, 0x08, 0x04, 0x24, 0x07, 0x03] = .ok (.rdS 4 0x0724 3) := by decide -- V2
theorem test_decode_rdSC : decodeFrame v1 = .ok (.rdSC 4 0x0724 0x2B 3) := by decide -- V1
theorem test_decode_rdX : decodeFrame [0x01, 0x09, 0xFF, 0x77, 0x56, 0x34, 0x12, 0x03] =
    .ok (.rdX 255 0x12345677 3) := by decide -- V12
theorem test_decode_rdXC : decodeFrame [0x01, 0x0D, 0x04, 0x44, 0x00, 0x06, 0x00, 0x4B, 0x03] =
    .ok (.rdXC 4 0x00060044 0x4B 3) := by decide -- V4
theorem test_decode_wrS : decodeFrame [0x01, 0x00, 0x04, 0x24, 0x07, 0x78, 0x56, 0x34, 0x12, 0x03] =
    .ok (.wrS 4 0x0724 0x12345678 3) := by decide -- V22
theorem test_decode_wrSC : decodeFrame v20 = .ok (.wrSC 4 0x0724 5 0x26 3) := by decide -- V20
theorem test_decode_wrX : decodeFrame [0x01, 0x01, 0x04, 0x44, 0x00, 0x06, 0x00, 0x03, 0x00, 0x00, 0x00, 0x03] =
    .ok (.wrX 4 0x00060044 3 3) := by decide -- V26
theorem test_decode_wrXC : decodeFrame [0x01, 0x05, 0x04, 0x0F, 0xBE, 0xAD, 0xDE, 0x0D, 0xF0, 0xFE, 0xCA, 0x0A, 0x03] =
    .ok (.wrXC 4 0xDEADBE0F 0xCAFEF00D 0x0A 3) := by decide -- V28
theorem test_decode_frame_reserved_flags : decodeFrame [0x01, 0x0A, 0x04, 0x24, 0x07, 0x03] = .error .frameForm := by decide
theorem test_decode_frame_one_byte_short : decodeFrame [0x01, 0x0C, 0x04, 0x24, 0x07, 0x03] = .error .frameLength := by decide
theorem test_decode_ack : decodeReply [0x06] = .ok .ack := by decide -- V70
theorem test_decode_nak : decodeReply [0x15] = .ok .nak := by decide -- V71
theorem test_decode_data : decodeReply [0x01, 0x00, 0x02, 0xAA, 0xBB, 0x5C, 0x03] =
    .ok (.data 0 [0xAA, 0xBB] [0x5C]) := by decide -- V77
theorem test_decode_data_trailing_end_marker : decodeReply [0x01, 0x00, 0x02, 0xAA, 0xBB, 0x03, 0x03] =
    .ok (.data 0 [0xAA, 0xBB] [0x03]) := by decide -- V78
theorem test_decode_rxIdleSof : classify RxCtx.reset (.byte 0x01) = .rxIdleSof := by decide
theorem test_decode_rxIdleAck : classify RxCtx.reset (.byte 0x06) = .rxIdleAck := by decide
theorem test_decode_rxIdleNak : classify RxCtx.reset (.byte 0x15) = .rxIdleNak := by decide
theorem test_decode_rxIdleOther : classify RxCtx.reset (.byte 0x03) = .rxIdleOther 0x03 := by decide -- V82
theorem test_decode_rxAwaitOverflow :
    classify ⟨true, true, true, true⟩ (.byte 0x03) = .rxAwaitOverflow 0x03 := by decide -- V91
theorem test_decode_rxAwaitData :
    classify ((heard [0x01, 0x00, 0x01] quiet).link.ctx quiet.params) (.byte 0x03) = .rxAwaitData 0x03 := by decide -- V80
theorem test_decode_rxAwaitEtx :
    classify ((heard [0x01, 0x00, 0x01, 0x03] quiet).link.ctx quiet.params) (.byte 0x03) = .rxAwaitEtx := by decide -- V80
theorem test_decode_rxAwaitEtxShort :
    classify ((heard [0x01, 0x00, 0x01] quietAny).link.ctx quietAny.params) (.byte 0x03) = .rxAwaitEtxShort := by
  decide -- V80a
theorem test_decode_rxTimeout : decode RxCtx.reset ⟨.rx, [1]⟩ = .ok .rxTimeout := by decide
theorem test_decode_rxIoError : decode RxCtx.reset ⟨.rx, [2]⟩ = .ok .rxIoError := by decide
theorem test_decode_buildRead : decodeOp [0x00, 1, 4, 0x20, 0x07, 0x00, 0x00, 4] = .ok (.buildRead true 4 0x0720 4) := by
  decide
theorem test_decode_buildWrite : decodeOp [0x01, 0, 4, 0x40, 0x00, 0x06, 0x00, 4, 0x78, 0x56, 0x34, 0x12] =
    .ok (.buildWrite false 4 0x00060040 4 0x12345678) := by decide
theorem test_decode_checksum : decodeOp [0x02, 0x0C, 0x04] = .ok (.checksum [0x0C, 0x04]) := by decide
theorem test_decode_parseInt : decodeOp [0x03, 0x34, 0x12] = .ok (.parseInt [0x34, 0x12]) := by decide
theorem test_decode_parseText : decodeOp [0x04] = .ok (.parseText []) := by decide
theorem test_decode_parseBool : decodeOp [0x05, 0x01] = .ok (.parseBool [0x01]) := by decide
theorem test_decode_intToField : decodeOp [0x06, 0x78, 0x56, 0x34, 0x12] = .ok (.intToField 0x12345678) := by decide
theorem test_decode_mergeBool : decodeOp [0x07, 0xFE, 0, 0, 0, 1] = .ok (.mergeBool 0xFE 0 0 0 true) := by decide
theorem test_decode_readExchange : decodeOp [0x08] = .ok .readExchange := by decide
theorem test_decode_writeExchange : decodeOp [0x09] = .ok .writeExchange := by decide
theorem test_decode_opUnassigned : decodeOp [0x0F] = .ok (.opUnassigned 15) := by decide
theorem test_decode_op_code_16 : decodeOp [0x10] = .error .selectCode := by decide
theorem test_decode_readEnum : decodeHost [0, 0x20, 0x07, 0, 0] = .ok (.readEnum 0x0720) := by decide
theorem test_decode_readBool : decodeHost [1, 0x20, 0x07, 0, 0] = .ok (.readBool 0x0720) := by decide
theorem test_decode_readInfo : decodeHost [2, 0x20, 0x07, 0, 0] = .ok (.readInfo 0x0720) := by decide
theorem test_decode_readString : decodeHost [3, 0x20, 0x07, 0, 0] = .ok (.readString 0x0720) := by decide
theorem test_decode_writeEnum : decodeHost [4, 0x20, 0x07, 0, 0, 5, 0, 0, 0] = .ok (.writeEnum 0x0720 5) := by decide
theorem test_decode_writeBool : decodeHost [5, 0x20, 0x07, 0, 0, 1] = .ok (.writeBool 0x0720 true) := by decide
theorem test_decode_writeCommandReg : decodeHost [6, 0x20, 0, 0x06, 0] = .ok (.writeCommandReg 0x00060020) := by decide
theorem test_decode_userSetSelect : decodeHost [7, 0xFF, 0xFF, 0xFF, 0xFF] = .ok (.userSetSelect (-1)) := by decide
theorem test_decode_userSetDefaultSelect : decodeHost [8, 1, 0, 0, 0] = .ok (.userSetDefaultSelect 1) := by decide
theorem test_decode_userSetLoad : decodeHost [9, 3, 0, 0, 0, 1] = .ok (.userSetLoad 3 true) := by decide
theorem test_decode_userSetSave : decodeHost [10, 9, 0, 0, 0, 0] = .ok (.userSetSave 9 false) := by decide
theorem test_decode_userSetGetCurrent : decodeHost [11] = .ok .userSetGetCurrent := by decide
theorem test_decode_userSetGetDefault : decodeHost [12] = .ok .userSetGetDefault := by decide

/-! ### Single steps -/

theorem test_rdS : sent (exec (.rdS 4 0x0724 3) quiet) = some (6, [0x01, 0x08, 0x04, 0x24, 0x07, 0x03]) := by decide
theorem test_rdS_length_zero : doneOf (exec (.rdS 0 0x0724 3) quiet) = some ⟨.invalidLength, .none⟩ := by decide
theorem test_rdSC : sent (exec (.rdSC 4 0x0724 0x2B 3) quiet) = some (7, v1) := by decide
theorem test_rdSC_wrong_checksum : exec (.rdSC 4 0x0724 0x2D 3) quiet = .refused .notARequestFrame := rfl -- S1
theorem test_rdX : sent (exec (.rdX 4 0x00060044 3) quiet) =
    some (8, [0x01, 0x09, 0x04, 0x44, 0x00, 0x06, 0x00, 0x03]) := by decide -- V5
theorem test_rdXC : sent (exec (.rdXC 255 0x12345677 0xF5 3) quiet) =
    some (9, [0x01, 0x0D, 0xFF, 0x77, 0x56, 0x34, 0x12, 0xF5, 0x03]) := by decide -- V13
theorem test_wrS : sent (exec (.wrS 4 0x0724 0x03030303 3) quiet) =
    some (10, [0x01, 0x00, 0x04, 0x24, 0x07, 0x03, 0x03, 0x03, 0x03, 0x03]) := by decide -- V32
theorem test_wrSC : sent (exec (.wrSC 4 0x0724 5 0x26 3) (built v1 quiet)) = some (11, v20) := by decide
theorem test_wrX : sent (exec (.wrX 4 0x00060004 1 3) quiet) =
    some (12, [0x01, 0x01, 0x04, 0x04, 0x00, 0x06, 0x00, 0x01, 0x00, 0x00, 0x00, 0x03]) := by decide -- V37
theorem test_wrXC : sent (exec (.wrXC 4 0xDEADBE0F 0xCAFEF00D 0x0A 3) quiet) =
    some (13, [0x01, 0x05, 0x04, 0x0F, 0xBE, 0xAD, 0xDE, 0x0D, 0xF0, 0xFE, 0xCA, 0x0A, 0x03]) := by decide -- V28
theorem test_wrX_legacy :
    exec (.wrX 4 0x00060004 1 3) { quiet with params := { quiet.params with addrWidthMode := .legacyShortOnly } } =
      .refused .notBuiltInThisMode := rfl
theorem test_rdX_below_threshold : exec (.rdX 4 0x0000FFFF 3) quiet = .refused .notBuiltInThisMode := rfl
theorem test_ack : linkOf (exec .ack reading) = some (some .acknowledged, .idle, 0, none) := by decide -- V70
theorem test_nak : linkOf (exec .nak reading) = some (some .negativeAcknowledged, .idle, 0, none) := by decide -- V71
theorem test_data_trailing_end_marker : linkOf (exec (.data 0 [0xAA, 0xBB] [3]) reading) =
    some (some (.frameComplete [0xAA, 0xBB]), .idle, 6, some 2) := by decide -- V78
theorem test_data_any_etx : linkOf (exec (.data 0 [3, 0, 0, 0] []) readingAny) =
    some (some (.protocolError .shortFrame (some 4) 4), .idle, 4, some 4) := by decide -- V74a, its first outcome
theorem test_rxIdleSof : linkOf (exec .rxIdleSof reading) = some (none, .awaitingEnd, 1, none) := by decide -- V84
theorem test_rxIdleAck : linkOf (exec .rxIdleAck reading) = some (some .acknowledged, .idle, 0, none) := by decide
theorem test_rxIdleNak : linkOf (exec .rxIdleNak reading) = some (some .negativeAcknowledged, .idle, 0, none) := by decide
theorem test_rxIdleOther : diagOf (exec (.rxIdleOther 0x03) reading) = some [.unexpectedByte 0x03] := by decide -- V82
theorem test_rxAwaitOverflow :
    linkOf (exec (.rxAwaitOverflow 0x03)
      { heard [0x01, 0x00, 0xFF, 0x55] reading with params := { reading.params with rxBufBytes := 4 } }) =
    some (some (.protocolError .overflow (some 255) 4), .idle, 4, some 255) := by decide -- V91, on a buffer of 4 bytes
theorem test_rxAwaitData : linkOf (exec (.rxAwaitData 0x01) (heard [0x01, 0x00] reading)) =
    some (none, .awaitingEnd, 3, some 1) := by decide -- V80
theorem test_rxAwaitEtx : linkOf (exec .rxAwaitEtx (heard [0x01, 0x00, 0x01, 0x03] reading)) =
    some (some (.frameComplete [0x03]), .idle, 5, some 1) := by decide -- V80
theorem test_rxAwaitEtxShort_first : linkOf (exec .rxAwaitEtxShort (heard [0x01] readingAny)) =
    some (some (.protocolError .shortFrame none 2), .idle, 2, none) := by decide -- V75a
theorem test_rxAwaitEtxShort_at_length : linkOf (exec .rxAwaitEtxShort (heard [0x01, 0xAA] readingAny)) =
    some (some (.protocolError .shortFrame (some 3) 3), .idle, 3, some 3) := by decide -- V75a
theorem test_rxTimeout : linkOf (exec .rxTimeout (heard [0x01] reading)) = some (some .timeout, .idle, 1, none) := by
  decide -- V84
theorem test_rxIoError : linkOf (exec .rxIoError (heard [0x01, 0x00, 0x02, 0xAA] reading)) =
    some (some .ioError, .idle, 4, some 2) := by decide -- V86
theorem test_event_not_requested : exec .rxIdleSof quiet = .refused .eventNotRequested := rfl
theorem test_reply_not_requested_while_sending :
    exec .nak { built v1 quiet with xchg := .sending, task := .readExchange } = .refused .eventNotRequested := rfl
theorem test_buildRead_wraps : sent (exec (.buildRead true 4 0x07FE 4) quiet) =
    some (7, [0x01, 0x0C, 0x04, 0x02, 0x07, 0x0D, 0x03]) := by decide -- V10
theorem test_buildRead_threshold : sent (exec (.buildRead true 1 0x10000 0) quiet) =
    some (9, [0x01, 0x0D, 0x01, 0x00, 0x00, 0x01, 0x00, 0x0D, 0x03]) := by decide -- V8
theorem test_buildWrite : sent (exec (.buildWrite true 4 0xDEADBEEF 0x20 0xCAFEF00D) quiet) =
    some (13, [0x01, 0x05, 0x04, 0x0F, 0xBE, 0xAD, 0xDE, 0x0D, 0xF0, 0xFE, 0xCA, 0x0A, 0x03]) := by decide -- V28
theorem test_buildWrite_length_zero : sent (exec (.buildWrite true 0 0x0720 4 5) (built v1 quiet)) = some (7, v1) := by
  decide -- V39
theorem test_checksum : doneOf (exec (.checksum [0x08, 0x04, 0x24, 0x07]) quiet) = some ⟨.ok, .byte 0x2F⟩ := by
  decide -- V41
theorem test_checksum_empty : doneOf (exec (.checksum []) quiet) = some ⟨.emptyInput, .none⟩ := by decide -- V47
theorem test_parseInt_long : doneOf (exec (.parseInt [1, 2, 3, 4, 5, 6]) quiet) = some ⟨.ok, .word 0x04030201⟩ := by
  decide -- V55
theorem test_parseInt_short : doneOf (exec (.parseInt [0x34, 0x12]) quiet) = some ⟨.ok, .word 0x1234⟩ := by decide -- V54
theorem test_parseText : doneOf (exec (.parseText [0x41, 0x00, 0x42]) quiet) =
    some ⟨.ok, .bytes [0x41, 0x00, 0x42]⟩ := by decide -- V64
theorem test_parseBool_three : doneOf (exec (.parseBool [3, 0, 0, 0]) quiet) = some ⟨.ok, .bool false⟩ := by decide -- V58
theorem test_parseBool_one : doneOf (exec (.parseBool [1]) quiet) = some ⟨.ok, .bool true⟩ := by decide -- V58
theorem test_intToField : doneOf (exec (.intToField 0x12345678) quiet) =
    some ⟨.ok, .bytes [0x78, 0x56, 0x34, 0x12]⟩ := by decide -- V50
theorem test_mergeBool_clear : doneOf (exec (.mergeBool 0xFF 0x12 0x34 0x56 false) quiet) =
    some ⟨.ok, .bytes [0xFE, 0x12, 0x34, 0x56]⟩ := by decide -- V62
theorem test_mergeBool_set : doneOf (exec (.mergeBool 0xFE 0 0 0 true) quiet) =
    some ⟨.ok, .bytes [0xFF, 0, 0, 0]⟩ := by decide -- V60
theorem test_readExchange : doneOf (exec .readExchange (env 7 [0x06, 0x01, 0x00, 0x02, 0xAA, 0xBB, 0x03] (built v1 quiet))) =
    some ⟨.ok, .bytes [0xAA, 0xBB]⟩ := by decide -- V102, V105
theorem test_readExchange_no_frame : exec .readExchange quiet = .refused .noFrameBuilt := rfl -- V112
theorem test_writeExchange : doneOf (exec .writeExchange (env 11 [0x01, 0x00, 0x01, 0xAA, 0x03, 0x06] (built v20 quiet))) =
    some ⟨.ok, .bool true⟩ := by decide -- V109
theorem test_writeExchange_failed_byte :
    wire (exec .writeExchange { built v20 quiet with txAnswers := [.accepted, .accepted, .failed] }) =
      some [0x01, 0x04] := by decide -- V111
theorem test_opUnassigned : exec (.opUnassigned 10) quiet = .refused .unassignedSelectCode := rfl
theorem test_readEnum : doneOf (exec (.readEnum 0x0720) (env 7 [0x01, 0x00, 0x04, 5, 0, 0, 0, 0x03] quiet)) =
    some ⟨.ok, .word 5⟩ := by decide -- V115
theorem test_readBool : doneOf (exec (.readBool 0x0720) (env 7 [0x01, 0x00, 0x04, 0xFF, 0, 0, 0, 0x03] quiet)) =
    some ⟨.ok, .bool false⟩ := by decide -- V117
theorem test_readInfo_warns :
    diagOf (exec (.readInfo 0x0720) (env 14 [0x01, 0x00, 0x04, 6, 0, 0, 0, 0x03, 0x01, 0x00, 0x01, 0x02, 0x03] quiet)) =
      some [.sizeWarning 6] := by decide -- V119
theorem test_readInfo_second_frame :
    sent (exec (.readInfo 0x0720) (env 14 [0x01, 0x00, 0x04, 2, 0, 0, 0, 0x03, 0x01, 0x00, 0x02, 0x34, 0x12, 0x03] quiet)) =
      some (7, [0x01, 0x0C, 0x02, 0x28, 0x07, 0x21, 0x03]) := by decide -- V118
theorem test_readString :
    doneOf (exec (.readString 0x0720)
      (env 14 [0x01, 0x00, 0x04, 6, 0, 0, 0, 0x03, 0x06, 0x01, 0x00, 0x06, 0x43, 0x03, 0x4D, 0x06, 0x15, 0x01, 0x03] quiet)) =
      some ⟨.ok, .bytes [0x43, 0x03, 0x4D, 0x06, 0x15, 0x01]⟩ := by decide -- P4
theorem test_readString_size_256 :
    doneOf (exec (.readString 0x0720) (env 14 [0x01, 0x00, 0x04, 0, 1, 0, 0, 0x03] quiet)) =
      some ⟨.invalidLength, .none⟩ := by decide -- V119b
theorem test_writeEnum : wire (exec (.writeEnum 0x0720 5) (env 11 [0x06] quiet)) = some v20 := by decide -- V130
theorem test_writeBool :
    sent (exec (.writeBool 0x0720 true) (env 18 [0x01, 0x00, 0x01, 0xFE, 0x03, 0x06] quiet)) =
      some (11, [0x01, 0x04, 0x04, 0x24, 0x07, 0xFF, 0x00, 0x00, 0x00, 0xDC, 0x03]) := by decide -- V132
theorem test_writeCommandReg : sent (exec (.writeCommandReg 0x00060020) (env 13 [0x06] quiet)) =
    some (13, [0x01, 0x05, 0x04, 0x24, 0x00, 0x06, 0x00, 0x01, 0x00, 0x00, 0x00, 0x22, 0x03]) := by decide -- V129
theorem test_userSetSelect : sent (exec (.userSetSelect 3) (env 13 [0x15] quiet)) =
    some (13, [0x01, 0x05, 0x04, 0x44, 0x00, 0x06, 0x00, 0x03, 0x00, 0x00, 0x00, 0x40, 0x03]) := by decide -- V125
theorem test_userSetSelect_minus_one : doneOf (exec (.userSetSelect (-1)) quiet) = some ⟨.outOfRange, .none⟩ := by
  decide -- V120
theorem test_userSetDefaultSelect : sent (exec (.userSetDefaultSelect 1) (env 13 [0x06] quiet)) =
    some (13, [0x01, 0x05, 0x04, 0x64, 0x00, 0x06, 0x00, 0x01, 0x00, 0x00, 0x00, 0x62, 0x03]) := by decide -- V126, V36
theorem test_userSetLoad : sent (exec (.userSetLoad 3 true) (env 26 [0x06, 0x06] quiet)) =
    some (13, [0x01, 0x05, 0x04, 0x04, 0x00, 0x06, 0x00, 0x01, 0x00, 0x00, 0x00, 0x02, 0x03]) := by decide -- P3
theorem test_userSetLoad_refused : doneOf (exec (.userSetLoad 3 true) (env 26 [0x15] quiet)) = some ⟨.ok, .bool false⟩ := by
  decide -- P3n
theorem test_userSetSave : sent (exec (.userSetSave 9 false) (env 13 [0x06] quiet)) =
    some (13, [0x01, 0x05, 0x04, 0x24, 0x00, 0x06, 0x00, 0x01, 0x00, 0x00, 0x00, 0x22, 0x03]) := by decide -- V133
theorem test_userSetSave_out_of_range : doneOf (exec (.userSetSave 9 true) quiet) = some ⟨.outOfRange, .none⟩ := by
  decide -- V134
theorem test_userSetGetCurrent : doneOf (exec .userSetGetCurrent (env 9 [0x01, 0x00, 0x04, 3, 0, 0, 0, 0x03] quiet)) =
    some ⟨.ok, .word 3⟩ := by decide -- V127
theorem test_userSetGetDefault : wire (exec .userSetGetDefault (env 9 [0x01, 0x00, 0x04, 0, 0, 0, 0, 0x03] quiet)) =
    some [0x01, 0x0D, 0x04, 0x64, 0x00, 0x06, 0x00, 0x6B, 0x03] := by decide -- V128, V17

/-! ### Steps -/

/-- The event waits in the transport while the framer is free, and the operation behind it is taken (R186). -/
theorem test_step_event_waits :
    (match step { quiet with port := [⟨.rx, [0x00, 0x01]⟩, ⟨.op, [0x02, 0x5A]⟩] } with
      | .next t => some (t.done, t.link.rxState, t.port)
      | .fault _ => none
      | .refused _ => none) = some (some ⟨.ok, .byte 0x5A⟩, .idle, [⟨.rx, [0x00, 0x01]⟩]) := by decide
/-- An event the transport already holds comes before a presented one (R62 b, R184). -/
theorem test_step_queue_first :
    linkOf (step { reading with port := [⟨.rx, [0x00, 0x15]⟩], rxQueue := [.byte 0x01] }) =
      some (none, .awaitingEnd, 1, none) := by decide
/-- The table word of NAK runs as the first instruction after reset. -/
theorem test_withFetchWord_nak :
    doneOf (step ({ quiet with port := [] }.withFetchWord 8 0x15)) = some ⟨.nak, .none⟩ := by decide

/-! ### Witnesses: states and operands that meet the hypotheses of the statements -/

/-- A read request being sent. -/
def sending : State := { built v1 quiet with xchg := .sending, task := .readExchange }

theorem test_witness_DecodeOfEncode :
    (Instr.wrXC 4 0xDEADBE0F 0xCAFEF00D 0x0A 3).wf = true ∧
      (Instr.wrXC 4 0xDEADBE0F 0xCAFEF00D 0x0A 3).admitted RxCtx.reset = true ∧
      (Instr.rxAwaitEtx).wf = true ∧ (Instr.rxAwaitEtx).admitted ⟨true, false, true, true⟩ = true ∧
      (Instr.userSetSelect (-2147483648)).wf = true ∧ (Instr.data 0 [] []).wf = true := by decide
theorem test_witness_AcceptedTransaction :
    decode RxCtx.reset ⟨.reply, [0x01, 0x00, 0x02, 0xAA, 0xBB, 0x5C, 0x03]⟩ = .ok (.data 0 [0xAA, 0xBB] [0x5C]) := by decide
theorem test_witness_RequestDecodeRecovers_and_builds : (1#8 : Byte) ≠ 0#8 ∧ (255#8 : Byte) ≠ 0#8 := by decide
theorem test_witness_StepRuns_free :
    let tr : Transaction := ⟨.op, [0x08]⟩
    let s := { built v1 quiet with port := [tr] }
    s.port = tr :: [] ∧ s.xchg = .free ∧ decode (s.link.ctx s.params) tr = .ok .readExchange := by decide
theorem test_witness_StepRuns_behind :
    let tr : Transaction := ⟨.op, [0x02]⟩
    let s := { quiet with port := [⟨.rx, [0x01]⟩, tr] }
    s.port = [⟨.rx, [0x01]⟩] ++ tr :: [] ∧ (∀ u ∈ [(⟨.rx, [0x01]⟩ : Transaction)], ¬ (u.ch = .op ∨ u.ch = .host ∨ u.ch = .frame)) ∧
      s.xchg = .free ∧ decode (s.link.ctx s.params) tr = .ok (.checksum []) := by decide
theorem test_witness_StepRuns_none :
    let s := { sending with port := [⟨.op, [0x08]⟩, ⟨.rx, [0x01]⟩] }
    s.xchg ≠ .free ∧ ¬ (s.xchg = .awaitRead ∨ s.xchg = .awaitWrite) := by decide
theorem test_witness_StepRuns_waiting :
    let tr : Transaction := ⟨.rx, [0x00, 0x01]⟩
    let s := { reading with port := [tr] }
    s.port = tr :: [] ∧ s.xchg = .awaitRead ∧ s.rxQueue = [] ∧ tr.ch = .rx ∧
      decode (s.link.ctx s.params) tr = .ok .rxIdleSof := by decide
theorem test_witness_StepRuns_waiting_reply :
    let tr : Transaction := ⟨.reply, [0x06]⟩
    let s := { writing with port := [tr] }
    s.port = tr :: [] ∧ s.xchg = .awaitWrite ∧ s.rxQueue = [] ∧ tr.ch = .reply ∧
      decode (s.link.ctx s.params) tr = .ok .ack := by decide
theorem test_witness_StepRuns_undecodable :
    let tr : Transaction := ⟨.op, [0x10]⟩
    let s := { quiet with port := [tr] }
    s.port = tr :: [] ∧ s.xchg = .free ∧ decode (s.link.ctx s.params) tr = .error .selectCode := by decide
theorem test_witness_WaitingStep :
    let s := { reading with rxQueue := [.byte 0x06, .timeout] }
    s.xchg = .awaitRead ∧ s.rxQueue = .byte 0x06 :: [.timeout] := by decide
theorem test_witness_StepKeepsGoodState :
    sending.Inv ∧ ∃ t, step { sending with txAnswers := [.accepted] } = .next t := ⟨by decide, _, rfl⟩
theorem test_witness_ExecKeepsGoodState : reading.Inv ∧ ∃ t, exec .rxIdleSof reading = .next t := ⟨by decide, _, rfl⟩
theorem test_witness_ParametersNeverChange :
    ∃ t, step { quiet with port := [⟨.op, [0x02, 0x5A]⟩] } = .next t := ⟨_, rfl⟩
theorem test_witness_SendingStep :
    sending.xchg = .sending ∧ ∃ t, step { sending with txAnswers := [.failed] } = .next t := ⟨by decide, _, rfl⟩
theorem test_witness_Diagnostics_next : ∃ t, step { reading with rxQueue := [.byte 0x7F] } = .next t := ⟨_, rfl⟩
theorem test_witness_Diagnostics_fault : step { sending with txb := [] } = .fault .bufferNoValue := rfl
theorem test_witness_Diagnostics_refused :
    step { quiet with port := [⟨.op, []⟩] } = .refused (.undecodable .empty) := rfl
theorem test_witness_HostReads :
    let s := heard [0x01, 0x00, 0x00] reading
    s.Inv ∧ 7 + 0 ≤ s.txLen ∧ s.txLen < 7 + 1 ∧ 2 + 1 ≤ s.link.rxCount ∧ s.link.rxCount < 3 + 1 ∧
      s.link.rxLenValid = true := by decide
theorem test_witness_HostReads_no_length : quiet.Inv ∧ quiet.link.rxLenValid = false := by decide
theorem test_witness_builds_free : quiet.xchg = .free := by decide
theorem test_witness_FrameForm :
    quiet.xchg = .free ∧ (encode (.rdSC 4 0x0724 0x2B 3)).ch = .frame ∧ (Instr.rdSC 4 0x0724 0x2B 3).wf = true ∧
      (requestDecode (encode (.rdSC 4 0x0724 0x2B 3)).bytes).map Request.ext = some false := by decide
theorem test_witness_FrameForm_extended :
    (encode (.rdX 4 0x00010000 3)).ch = .frame ∧ (Instr.rdX 4 0x00010000 3).wf = true ∧
      (requestDecode (encode (.rdX 4 0x00010000 3)).bytes).map (fun r => (r.ext, r.wireAddress)) = some (true, 0x00010000#32) ∧
      quiet.params.addrWidthMode = .intended ∧ 65536 ≤ (0x00010000#32).toNat := by decide
theorem test_witness_IllFormed_extended :
    (encode (.rdX 4 0x0000FFFF 3)).bytes[2]? ≠ some 0#8 ∧
      (requestDecode (encode (.rdX 4 0x0000FFFF 3)).bytes).map (fun r => (r.ext, r.wireAddress)) = some (true, 0x0000FFFF#32) ∧
      ¬ (quiet.params.addrWidthMode = .intended ∧ 65536 ≤ (0x0000FFFF#32).toNat) := by decide
theorem test_witness_IllFormed_length :
    (encode (.rdS 0 0x0724 3)).ch = .frame ∧ (Instr.rdS 0 0x0724 3).wf = false ∧
      (encode (.rdS 0 0x0724 3)).bytes[2]? = some 0#8 := by decide
theorem test_witness_IllFormed_checksum :
    (encode (.rdSC 4 0x0724 0x2D 3)).ch = .frame ∧ (Instr.rdSC 4 0x0724 0x2D 3).wf = false ∧
      (encode (.rdSC 4 0x0724 0x2D 3)).bytes[2]? ≠ some 0#8 := by decide
theorem test_witness_BuildIsPresenting : quiet.params.addrWidthMode = .intended := by decide
theorem test_witness_BuildIsPresenting_legacy :
    { quiet.params with addrWidthMode := .legacyShortOnly }.addrWidthMode = .legacyShortOnly := by decide
theorem test_witness_ChecksummedFrames : ([0x00] : List Byte) ≠ [] := by decide
theorem test_witness_XorFoldLaws : [1#8, 2#8].Perm [2#8, 1#8] ∧ 7 < 8 := by decide
theorem test_witness_IntegerFieldRoundTrip : ([0xFF, 0x00, 0x12, 0x80] : List Byte).length = 4 := by decide
theorem test_witness_ParseText :
    quiet.xchg = .free ∧ quiet.params.textDecoding = .identity ∧
      { quiet.params with textDecoding := .custom }.textDecoding = .custom := by decide
theorem test_witness_IdleByteRows :
    reading.link.rxState = .idle ∧ 1 ≤ reading.params.rxBufBytes ∧ reading.xchg = .awaitRead ∧
      (0x03#8 ≠ 0x01#8 ∧ 0x03#8 ≠ 0x06#8 ∧ 0x03#8 ≠ 0x15#8) := by decide
theorem test_witness_IdleByteRows_reading : reading.link.rxState = .idle ∧ reading.xchg = .awaitRead := by decide
theorem test_witness_IdleByteRows_writing :
    writing.link.rxState = .idle ∧ writing.xchg = .awaitWrite ∧ writing.task = .writeExchange := by decide
theorem test_witness_AwaitDataRow_length :
    let s := heard [0x01, 0x00] reading
    s.xchg = .awaitRead ∧ s.link.rxState = .awaitingEnd ∧ s.link.rxCount < s.params.rxBufBytes ∧
      (3 ≤ s.link.rxCount → s.link.rxLenValid = true) ∧ s.params.etxMode = .lengthQualified ∧ s.link.rxCount = 2 := by decide
theorem test_witness_AwaitDataRow_last_payload_byte :
    let s := heard [0x01, 0x00, 0x01] writing
    s.xchg = .awaitWrite ∧ s.link.rxState = .awaitingEnd ∧ s.link.rxCount < s.params.rxBufBytes ∧
      (3 ≤ s.link.rxCount → s.link.rxLenValid = true) ∧ s.params.etxMode = .lengthQualified ∧
      s.link.rxCount < 3 + s.link.rxLen.toNat ∧ s.link.rxCount ≠ 2 := by decide
theorem test_witness_AwaitDataRow_any_etx :
    let s := heard [0x01] readingAny
    s.xchg = .awaitRead ∧ s.link.rxState = .awaitingEnd ∧ s.link.rxCount < s.params.rxBufBytes ∧
      (3 ≤ s.link.rxCount → s.link.rxLenValid = true) ∧ 0x02#8 ≠ 0x03#8 := by decide
theorem test_witness_EndMarkerRow :
    let s := heard [0x01, 0x00, 0x01, 0x03] reading
    s.link.rxState = .awaitingEnd ∧ s.link.rxCount < s.params.rxBufBytes ∧ s.link.rxLenValid = true ∧
      3 + s.link.rxLen.toNat ≤ s.link.rxCount ∧ s.link.rxb.readAll 3 s.link.rxLen.toNat = some [0x03] ∧
      s.xchg = .awaitRead ∧ s.task = .readExchange := by decide
theorem test_witness_EndMarkerRow_writing :
    let s := heard [0x01, 0x00, 0x00] writing
    s.link.rxState = .awaitingEnd ∧ s.link.rxCount < s.params.rxBufBytes ∧ s.link.rxLenValid = true ∧
      3 + s.link.rxLen.toNat ≤ s.link.rxCount ∧ s.link.rxb.readAll 3 s.link.rxLen.toNat = some [] ∧ s.xchg = .awaitWrite := by
  decide
theorem test_witness_ProtocolErrorRows_overflow :
    let s := { heard [0x01, 0x00, 0xFF, 0x55] reading with params := { quiet.params with rxBufBytes := 4 } }
    s.xchg = .awaitRead ∧ s.link.rxState = .awaitingEnd ∧ s.link.rxCount = s.params.rxBufBytes := by decide
theorem test_witness_ProtocolErrorRows_short :
    ∀ s ∈ [heard [0x01] readingAny, heard [0x01, 0xAA] writingAny, heard [0x01, 0x00, 0x01] readingAny],
      (s.xchg = .awaitRead ∨ s.xchg = .awaitWrite) ∧
        s.link.rxState = .awaitingEnd ∧ s.params.etxMode = .anyEtx ∧ s.link.rxCount < s.params.rxBufBytes ∧
        ¬ (s.link.rxCount ≠ 2 ∧ s.link.rxLenValid = true ∧ 3 + s.link.rxLen.toNat ≤ s.link.rxCount) := by decide
theorem test_witness_TransportEventRows : reading.xchg = .awaitRead ∧ writing.xchg = .awaitWrite := by decide
theorem test_witness_LinkMachineInvariants :
    (heard [0x01, 0x00, 0x00] writing).params.wf = true ∧
      (heard [0x01, 0x00, 0x00] writing).link.Inv (heard [0x01, 0x00, 0x00] writing).params ∧
      ∃ t, receive (.byte 0x03) (heard [0x01, 0x00, 0x00] writing) = .next t ∧ t.lsmOut = some (.frameComplete []) ∧
        t.link.rxLenValid = true :=
  ⟨by decide, by decide, _, rfl, rfl, rfl⟩
theorem test_witness_LinkMachineInvariants_awaiting :
    reading.link.Inv reading.params ∧ ∃ t, receive (.byte 0x01) reading = .next t ∧ t.link.rxState = .awaitingEnd :=
  ⟨by decide, _, rfl, rfl⟩
theorem test_witness_Replies :
    reading.link.rxState = .idle ∧ reading.params.wf = true ∧ reading.xchg = .awaitRead ∧ reading.task = .readExchange ∧
      ([] : List Byte).length ≤ 255 ∧ reading.params.etxMode = .lengthQualified := by decide
theorem test_witness_Replies_any_etx :
    writingAny.link.rxState = .idle ∧ writingAny.params.wf = true ∧ writingAny.xchg = .awaitWrite ∧
      writingAny.task = .writeExchange ∧ writingAny.params.etxMode = .anyEtx := by decide
theorem test_witness_DataReply_longest :
    reading.link.rxState = .idle ∧ reading.xchg = .awaitRead ∧ reading.task = .readExchange ∧
      reading.params.etxMode = .lengthQualified ∧ (List.replicate 255 (0x55 : Byte)).length ≤ 255 ∧
      4 + (List.replicate 255 (0x55 : Byte)).length + ([(0x77 : Byte)].takeWhile (fun b => b ≠ 0x03#8)).length ≤
        reading.params.rxBufBytes := by
  simp only [List.length_replicate]; decide
theorem test_witness_DataReply_trailing_end_marker :
    ∀ s ∈ [writing, writingAny], s.link.rxState = .idle ∧ s.xchg = .awaitWrite ∧
      0x03#8 ∉ [0x00#8, BitVec.ofNat 8 [0xAA#8, 0xBB#8].length, 0xAA#8, 0xBB#8] ∧
      4 + [0xAA#8, 0xBB#8].length + ([0x03#8].takeWhile (fun b => b ≠ 0x03#8)).length ≤ s.params.rxBufBytes := by decide
theorem test_witness_Refused_no_frame : quiet.xchg = .free ∧ quiet.txLen = 0 := by decide
theorem test_witness_Refused_busy :
    reading.xchg ≠ .free ∧ (encode (.parseInt [])).ch = .op ∧ (∀ code, Instr.parseInt [] ≠ .opUnassigned code) ∧
      (encode (.readEnum 0)).ch = .host ∧ (encode (.rdS 4 0x0724 3)).ch = .frame :=
  ⟨by decide, rfl, fun _ h => Instr.noConfusion h, rfl, rfl⟩
theorem test_witness_Refused_event :
    quiet.xchg = .free ∧ sending.xchg = .sending ∧ (encode .rxTimeout).ch = .rx ∧ (encode .nak).ch = .reply := by decide
theorem test_witness_Serialiser :
    let s := env 7 [] (built v1 quiet)
    s.txLen ≠ 0 ∧ s.txb.readAll 0 s.txLen = some v1 ∧
      s.txAnswers = List.replicate s.txLen TxAnswer.accepted ++ [] := by decide
theorem test_witness_FailedSend :
    ∀ k ∈ [0, 6],
      let s := { built v1 quiet with txAnswers := List.replicate k TxAnswer.accepted ++ [TxAnswer.failed] }
      s.xchg = .free ∧ k < s.txLen ∧ s.txb.readAll 0 s.txLen = some v1 ∧
        s.txAnswers = List.replicate k TxAnswer.accepted ++ .failed :: [] := by decide
theorem test_witness_FailedSend_sequence :
    ∀ k ∈ [0, 12],
      let s := { quiet with txAnswers := List.replicate k TxAnswer.accepted ++ [TxAnswer.failed] }
      s.xchg = .free ∧ (0 : Int) ≤ 3 ∧ s.txAnswers = List.replicate k TxAnswer.accepted ++ .failed :: [] ∧
        k < (writeFrame s.params.addrWidthMode s.params.useChecksum 4#8 0x00060040#32 4#8 (BitVec.ofInt 32 3)).length := by
  decide
theorem test_witness_ReadExchange :
    let s := env 7 [0x7F, 0x06, 0x01, 0x00, 0x00, 0x03] (built v1 quiet)
    s.xchg = .free ∧ s.link.rxState = .idle ∧ s.params.wf = true ∧ s.params.etxMode = .lengthQualified ∧ s.txLen ≠ 0 ∧
      s.txb.readAll 0 s.txLen = some v1 ∧ (∀ b ∈ [0x7F#8, 0x06#8], b ≠ 0x01#8 ∧ b ≠ 0x15#8) ∧
      scripted s s.txLen [] (asEvents ([0x7F, 0x06] ++ dataFrame 0 [])) [] := by decide
theorem test_witness_ReadExchangeRaises :
    ∀ e ∈ [RxEvent.byte 0x15#8, .timeout, .ioError],
      let s := { env 7 [] (built v1 quiet) with rxQueue := asEvents [0x06] ++ [e] }
      s.xchg = .free ∧ s.link.rxState = .idle ∧ s.txLen ≠ 0 ∧ s.txb.readAll 0 s.txLen = some v1 ∧
        (∀ b ∈ [0x06#8], b ≠ 0x01#8 ∧ b ≠ 0x15#8) ∧ scripted s s.txLen [] (asEvents [0x06] ++ [e]) [] := by decide
theorem test_witness_WriteExchange :
    ∀ e ∈ [RxEvent.byte 0x06#8, .byte 0x15#8, .timeout, .ioError],
      let s := { env 11 [] (built v20 quiet) with rxQueue := asEvents [0x7F] ++ [e] }
      s.xchg = .free ∧ s.link.rxState = .idle ∧ s.txLen ≠ 0 ∧ s.txb.readAll 0 s.txLen = some v20 ∧
        (∀ b ∈ [0x7F#8], b ≠ 0x01#8 ∧ b ≠ 0x06#8 ∧ b ≠ 0x15#8) ∧
        scripted s s.txLen [] (asEvents [0x7F] ++ [e]) [] := by decide
theorem test_witness_Outcomes :
    reading.xchg = .awaitRead ∧ reading.task = .readExchange ∧ writing.xchg = .awaitWrite ∧
      writing.task = .writeExchange := by decide
theorem test_witness_ExchangeEnds_returned :
    let s := env 7 [0x15] (built v1 quiet)
    s.Inv ∧ ∃ t, exec .readExchange s = .next t ∧ t.done ≠ none := ⟨by decide, _, rfl, by decide⟩
theorem test_witness_ExchangeEnds_blocked :
    let s := env 7 [0x06] (built v1 quiet)
    s.Inv ∧ ∃ t, exec .readExchange s = .next t ∧ t.done = none := ⟨by decide, _, rfl, rfl⟩
theorem test_witness_OperationReturns :
    (encode (.readEnum 0x0720)).ch = .host ∧ (encode (.parseInt [])).ch = .op ∧ quiet.Inv ∧
      ∃ t, exec (.readEnum 0x0720) quiet = .next t := ⟨rfl, rfl, by decide, _, rfl⟩
theorem test_witness_NoiseAlone :
    let s := env 7 [0x7F, 0x06] (built v1 quiet)
    s.xchg = .free ∧ s.link.rxState = .idle ∧ s.txLen ≠ 0 ∧ s.txb.readAll 0 s.txLen = some v1 ∧
      (∀ b ∈ [0x7F#8, 0x06#8], b ≠ 0x01#8 ∧ b ≠ 0x15#8) ∧ scripted s s.txLen [] (asEvents [0x7F, 0x06]) [] := by decide
theorem test_witness_BlockingCall : (env 7 [0x15] sending).port = [] := by decide
theorem test_witness_ReadEnum_and_ReadBool :
    let s := env 7 [0x01, 0x00, 0x01, 0x05, 0x03] quiet
    s.xchg = .free ∧ s.link.rxState = .idle ∧ s.params.wf = true ∧ s.params.etxMode = .lengthQualified ∧
      scripted s (readFrame s.params.addrWidthMode s.params.useChecksum 4#8 0x0720#32 4#8).length []
        (asEvents (dataFrame 0 [0x05])) [] := by decide
theorem test_witness_ReadBool_empty :
    let s := env 7 [0x01, 0x00, 0x00, 0x03] quiet
    s.xchg = .free ∧ scripted s (readFrame s.params.addrWidthMode s.params.useChecksum 4#8 0x0720#32 4#8).length []
      (asEvents (dataFrame 0 [])) [] := by decide
theorem test_witness_TwoPhase :
    ∀ z ∈ [[0x01#8], [0xFF#8]],
      let s := env 14 (dataFrame 0 z ++ dataFrame 0 [0x07]) quiet
      s.xchg = .free ∧ s.link.rxState = .idle ∧ s.params.wf = true ∧ s.params.etxMode = .lengthQualified ∧
        1 ≤ (parseInt z).toNat ∧ (parseInt z).toNat ≤ 255 ∧
        scripted s ((readFrame s.params.addrWidthMode s.params.useChecksum 4#8 0x0720#32 4#8).length +
            (readFrame s.params.addrWidthMode s.params.useChecksum (BitVec.ofNat 8 (parseInt z).toNat) 0x0720#32 8#8).length)
          [] (asEvents (dataFrame 0 z ++ dataFrame 0 [0x07])) [] := by decide
theorem test_witness_SizeThatDoesNotFit :
    ∀ z ∈ [[0x00#8], [0x00#8, 0x01#8]],
      let s := env 7 (dataFrame 0 z) quiet
      s.xchg = .free ∧ ((parseInt z).toNat = 0 ∨ 255 < (parseInt z).toNat) ∧
        scripted s (readFrame s.params.addrWidthMode s.params.useChecksum 4#8 0x0720#32 4#8).length []
          (asEvents (dataFrame 0 z)) [] := by decide
theorem test_witness_SingleWrites :
    ∀ b ∈ [0x06#8, 0x15#8],
      let s := env 13 [b] quiet
      s.xchg = .free ∧ s.link.rxState = .idle ∧ (0 : Int) ≤ 3 ∧
        scripted s (writeFrame s.params.addrWidthMode s.params.useChecksum 4#8 0x00060040#32 4#8 (BitVec.ofInt 32 3)).length
          [] [.byte b] [] := by decide
theorem test_witness_UserSetOutOfRange : quiet.xchg = .free ∧ (-1 : Int) < 0 ∧ (3 : Int) < 4 := by decide
theorem test_witness_LoadAndSave :
    ∀ b ∈ [0x06#8, 0x15#8],
      let s := env 26 [0x06, b] quiet
      s.xchg = .free ∧ s.link.rxState = .idle ∧
        scripted s ((writeFrame s.params.addrWidthMode s.params.useChecksum 4#8 0x00060040#32 4#8 (BitVec.ofInt 32 3)).length +
            (writeFrame s.params.addrWidthMode s.params.useChecksum 4#8 0x00060020#32 4#8 1#32).length)
          [] [.byte 0x06, .byte b] [] := by decide
theorem test_witness_LoadAndSave_refused :
    let s := env 13 [0x15] quiet
    s.xchg = .free ∧
      scripted s (writeFrame s.params.addrWidthMode s.params.useChecksum 4#8 0x00060040#32 4#8 (BitVec.ofInt 32 0)).length
        [] [.byte 0x15] [] := by decide
theorem test_witness_WriteBool :
    ∀ b ∈ [0x06#8, 0x15#8],
      let s := env 18 (dataFrame 0 [0xFE] ++ [b]) quiet
      s.xchg = .free ∧ s.link.rxState = .idle ∧ s.params.wf = true ∧ s.params.etxMode = .lengthQualified ∧
        scripted s ((readFrame s.params.addrWidthMode s.params.useChecksum 4#8 0x0720#32 4#8).length +
            (writeFrame s.params.addrWidthMode s.params.useChecksum 4#8 0x0720#32 4#8 0xFF#32).length)
          [] (asEvents (dataFrame 0 [0xFE]) ++ [.byte b]) [] := by decide

end Sys2Proof.Tests
end

section
/-! PROOFS. The scope statements (00_scope.md R10): a blocking call is a run of the machine's own steps, and an operation either
returns or is blocked on the environment. Both rest on what one transaction of the environment can do. -/

namespace Sys2Proof.Machine

/-! ### One transaction of the environment -/

/-- What one turn of the receive loop can do (R164): nothing while no event is listed, or the next event. -/
theorem takeEvent_cases {s t : State} (h : takeEvent s = .next t) :
    (s.rxQueue = [] ∧ t = s) ∨ ∃ e rest, s.rxQueue = e :: rest ∧ receive e { s with rxQueue := rest } = .next t := by
  unfold takeEvent at h
  split at h
  · rename_i hq; cases h; exact .inl ⟨hq, rfl⟩
  · rename_i e rest hq; exact .inr ⟨e, rest, hq, h⟩

/-- Everything one transaction of the environment can do: nothing without an exchange, one turn of the send loop (R183), nothing
while blocked on the receive side (R247), or the next receive event (R186). -/
theorem tick_cases {s t : State} (h : tick s = .next t) :
    (s.xchg = .free ∧ t = s) ∨
    (s.xchg = .sending ∧ s.txIdx < s.txLen ∧ sendByte s = .next t) ∨
    (s.xchg = .sending ∧ ¬ s.txIdx < s.txLen ∧ t = { s with xchg := s.task.awaits }) ∨
    ((s.xchg = .awaitRead ∨ s.xchg = .awaitWrite) ∧
      ((s.rxQueue = [] ∧ t = s) ∨
        ∃ e rest, s.rxQueue = e :: rest ∧ receive e { s with rxQueue := rest } = .next t)) := by
  unfold tick at h
  split at h
  · rename_i hx; cases h; exact .inl ⟨hx, rfl⟩
  · rename_i hx
    split at h
    · rename_i hi; exact .inr (.inl ⟨hx, hi, h⟩)
    · rename_i hi; cases h; exact .inr (.inr (.inl ⟨hx, hi, rfl⟩))
  · rename_i hx; exact .inr (.inr (.inr ⟨.inl hx, takeEvent_cases h⟩))
  · rename_i hx; exact .inr (.inr (.inr ⟨.inr hx, takeEvent_cases h⟩))

/-- The transactions of the environment present nothing and take nothing that is presented. -/
theorem tick_port {s t : State} (h : tick s = .next t) : t.port = s.port := by
  rcases tick_cases h with ⟨-, rfl⟩ | ⟨-, -, hsend⟩ | ⟨-, -, rfl⟩ | ⟨-, ⟨-, rfl⟩ | ⟨e, rest, -, hrecv⟩⟩
  · rfl
  · obtain ⟨b, -, ⟨-, rfl⟩ | ⟨rest, -, rfl⟩ | ⟨rest, -, rfl⟩⟩ := sendByte_cases hsend <;> rfl
  · rfl
  · rfl
  · obtain ⟨r, -, -, -, -, -, -, -, hport⟩ := receive_link hrecv
    exact hport

/-! ### A blocking call is a run of steps -/

/-- With nothing presented a step is one transaction of the environment. -/
theorem step_of_port_nil {s : State} (h : s.port = []) : step s = tick s := by
  simp [step, fetch, h, takeFirst]

/-- A run goes on by one step. -/
theorem core_run_succ (k : Nat) (s : State) :
    Host.Core.run Sys2Proof.core (k + 1) s = Res.andThen (step s) (Host.Core.run Sys2Proof.core k) := by
  have hstep : Sys2Proof.core.step s = step s := rfl
  simp only [Host.Core.run, hstep]
  cases step s <;> rfl

/-- A blocking call goes on by one transaction; one that has returned stays as it is. -/
theorem drainFor_succ_eq (n : Nat) (s : State) : drainFor (n + 1) s = (tick s).andThen (drainFor n) := by
  by_cases h : s.xchg = .free
  · have htick : tick s = .next s := by simp [tick, h]
    rw [drainFor_free h, htick, Res.andThen_next, drainFor_free h]
  · exact drainFor_succ h n

/-- Settles O52, by induction on the number of turns: both sides go on by the same transaction, which presents nothing. -/
theorem blockingCallIsARunOfSteps : Obligations.BlockingCallIsARunOfSteps := by
  intro k
  induction k with
  | zero => intro s _; rfl
  | succ k ih =>
    intro s hport
    rw [drainFor_succ_eq, core_run_succ, step_of_port_nil hport]
    cases h : tick s with
    | next t => exact ih t ((tick_port h).trans hport)
    | fault e => rfl
    | refused e => rfl

/-! ### Where a blocking call stands -/

/-- The operation has returned: the exchange is over and a completion stands (R22, R39). -/
def State.Returned (s : State) : Prop := s.xchg = .free ∧ s.done ≠ none

/-- An exchange of the operation is in flight: a byte of the request is on offer (R183) or the reply is awaited (R186). -/
def State.InFlight (s : State) : Prop :=
  s.done = none ∧ ((s.xchg = .sending ∧ s.txIdx < s.txLen) ∨ s.xchg = .awaitRead ∨ s.xchg = .awaitWrite)

/-- The operation waits for an answer that the environment has not listed (R247). -/
def State.Blocked (s : State) : Prop :=
  s.done = none ∧ ((s.xchg = .sending ∧ s.txAnswers = []) ∨
    ((s.xchg = .awaitRead ∨ s.xchg = .awaitWrite) ∧ s.rxQueue = []))

/-- The answers that the environment has listed and the framer has not used: the turns `drain` allows a blocking call. -/
def State.unusedAnswers (s : State) : Nat := s.txAnswers.length + s.rxQueue.length

/-- An exchange in flight is not over. -/
theorem State.InFlight.not_free {s : State} (h : s.InFlight) : s.xchg ≠ .free := by
  obtain ⟨-, ⟨hx, -⟩ | hx | hx⟩ := h <;> simp [hx]

/-- Without a listed answer an exchange in flight is blocked. -/
theorem State.InFlight.blocked {s : State} (h : s.InFlight) (hu : s.unusedAnswers = 0) : s.Blocked := by
  obtain ⟨hd, hx⟩ := h
  obtain ⟨ha, hq⟩ : s.txAnswers = [] ∧ s.rxQueue = [] := by simpa [State.unusedAnswers] using hu
  exact ⟨hd, hx.imp (⟨·.1, ha⟩) (⟨·, hq⟩)⟩

/-- Every call waits for a reply of its own kind. -/
theorem HostTask.awaits_eq (k : HostTask) : k.awaits = .awaitRead ∨ k.awaits = .awaitWrite := by
  cases k <;> simp [HostTask.awaits]

/-- An operation that ends with a result has returned. -/
theorem complete_returned {r : OpResult} {s t : State} (hx : s.xchg = .free) (h : complete r s = .next t) :
    t.Returned := by
  cases h; exact ⟨hx, nofun⟩

/-- An operation that ends with an error kind has returned. -/
theorem raiseError_returned {k : Status} {s t : State} (hx : s.xchg = .free) (h : raiseError k s = .next t) :
    t.Returned := by
  cases h; exact ⟨hx, nofun⟩

/-! ### What starts or resumes a call leaves it returned or in flight -/

/-- A build with an exchange behind it: InvalidLength, or the first byte of the frame is on offer. -/
theorem buildThenBegin_returned_or_inFlight {n : Byte} {bytes : List Byte} {k : HostTask} {s t : State}
    (hpos : 0 < bytes.length) (hx : s.xchg = .free) (hd : s.done = none)
    (h : build n bytes s (fun s' => .next (beginExchange k s')) = .next t) : t.Returned ∨ t.InFlight := by
  rcases build_eq_next.mp h with ⟨-, rfl⟩ | ⟨-, -, h⟩
  · exact .inl ⟨hx, nofun⟩
  · cases h; exact .inr ⟨hd, .inl ⟨rfl, hpos⟩⟩

theorem startRead_returned_or_inFlight {n : Byte} {a : Word} {o : Byte} {k : HostTask} {s t : State}
    (hx : s.xchg = .free) (hd : s.done = none) (h : startRead n a o k s = .next t) : t.Returned ∨ t.InFlight :=
  buildThenBegin_returned_or_inFlight (by rw [readFrame_length]; omega) hx hd h

theorem startWrite_returned_or_inFlight {a v : Word} {k : HostTask} {s t : State}
    (hx : s.xchg = .free) (hd : s.done = none) (h : startWrite a v k s = .next t) : t.Returned ∨ t.InFlight :=
  buildThenBegin_returned_or_inFlight (by rw [writeFrame_length]; omega) hx hd h

theorem startSecondPhase_returned_or_inFlight {z a : Word} {k : HostTask} {s t : State}
    (hx : s.xchg = .free) (hd : s.done = none) (h : startSecondPhase z a k s = .next t) : t.Returned ∨ t.InFlight := by
  unfold startSecondPhase at h
  split at h
  · exact startRead_returned_or_inFlight hx hd h
  · exact .inl (raiseError_returned hx h)

theorem resumeRead_returned_or_inFlight {k : HostTask} {p : List Byte} {s t : State}
    (hx : s.xchg = .free) (hd : s.done = none) (h : resumeRead k p s = .next t) : t.Returned ∨ t.InFlight := by
  cases k with
  | infoSize a =>
    refine startSecondPhase_returned_or_inFlight ?_ ?_ h
    · split <;> exact hx
    · split <;> exact hd
  | stringSize a => exact startSecondPhase_returned_or_inFlight hx hd h
  | boolRead a f => exact startWrite_returned_or_inFlight hx hd h
  | readBool =>
    simp only [resumeRead] at h
    split at h
    · exact .inl (complete_returned hx h)
    · cases h
  | _ => exact .inl (complete_returned hx h)

theorem resumeWrite_returned_or_inFlight {k : HostTask} {ok : Bool} {s t : State}
    (hx : s.xchg = .free) (hd : s.done = none) (h : resumeWrite k ok s = .next t) : t.Returned ∨ t.InFlight := by
  cases k with
  | selectThen c =>
    simp only [resumeWrite] at h
    split at h
    · exact startWrite_returned_or_inFlight hx hd h
    · exact .inl (complete_returned hx h)
  | _ => exact .inl (complete_returned hx h)

/-- R189: an outcome is ignored, ends the call, or starts its next exchange. -/
theorem resolve_returned_or_inFlight {o : LinkOutcome} {s t : State} (h : resolve o s = .next t) (hs : s.InFlight) :
    t.Returned ∨ t.InFlight := by
  have ignored (h : Host.Outcome.next s = (.next t : Res)) : t.Returned ∨ t.InFlight := by cases h; exact .inr hs
  unfold resolve at h
  split at h
  · exact ignored h
  · exact ignored h
  · cases o with
    | frameComplete p => exact resumeRead_returned_or_inFlight (finishExchange_xchg s) hs.1 h
    | acknowledged => exact ignored h
    | _ => exact .inl (raiseError_returned (finishExchange_xchg s) h)
  · cases o with
    | frameComplete p => exact ignored h
    | acknowledged => exact resumeWrite_returned_or_inFlight (finishExchange_xchg s) hs.1 h
    | negativeAcknowledged => exact resumeWrite_returned_or_inFlight (finishExchange_xchg s) hs.1 h
    | _ => exact .inl (raiseError_returned (finishExchange_xchg s) h)

theorem receive_returned_or_inFlight {e : RxEvent} {s t : State} (hs : s.InFlight) (h : receive e s = .next t) :
    t.Returned ∨ t.InFlight := by
  obtain ⟨-, h⟩ := receive_eq_next.mp h
  unfold processEvent at h
  split at h
  · cases h
  · split at h
    · cases h; exact .inr hs
    · exact resolve_returned_or_inFlight h hs

/-! ### A blocking call ends returned or blocked -/

/-- A transaction of an exchange in flight finds it blocked and changes nothing, or uses up exactly one listed answer. -/
theorem tick_blocked_or_uses_answer {s t : State} (hs : s.InFlight) (h : tick s = .next t) :
    (s.Blocked ∧ t = s) ∨ ((t.Returned ∨ t.InFlight) ∧ t.unusedAnswers + 1 = s.unusedAnswers) := by
  rcases tick_cases h with ⟨hx, -⟩ | ⟨hx, -, hsend⟩ | ⟨hx, hi, -⟩ | ⟨hx, ⟨hq, rfl⟩ | ⟨e, rest, hq, hrecv⟩⟩
  · exact absurd hx hs.not_free
  · obtain ⟨b, -, ⟨ha, rfl⟩ | ⟨rest, ha, rfl⟩ | ⟨rest, ha, rfl⟩⟩ := sendByte_cases hsend
    · exact .inl ⟨⟨hs.1, .inl ⟨hx, ha⟩⟩, rfl⟩
    · refine .inr ⟨.inr ⟨hs.1, ?_⟩, by simp only [State.unusedAnswers, ha, List.length_cons]; omega⟩
      by_cases hi : s.txIdx + 1 < s.txLen
      · exact .inl ⟨if_pos hi, hi⟩
      · exact .inr (by simpa [hi] using s.task.awaits_eq)
    · exact .inr ⟨.inl ⟨rfl, nofun⟩, by simp only [State.unusedAnswers, ha, List.length_cons]; omega⟩
  · obtain ⟨-, ⟨-, hi'⟩ | hx' | hx'⟩ := hs
    · exact absurd hi' hi
    · simp [hx] at hx'
    · simp [hx] at hx'
  · exact .inl ⟨⟨hs.1, .inr ⟨hx, hq⟩⟩, rfl⟩
  · have hs' : State.InFlight { s with rxQueue := rest } := hs
    obtain ⟨r, -, -, -, -, hanswers, hqueue, -, -⟩ := receive_link hrecv
    refine .inr ⟨receive_returned_or_inFlight hs' hrecv, ?_⟩
    simp only [State.unusedAnswers, hanswers, hqueue, hq, List.length_cons]; omega

/-- A call that no transaction changes stays where it is. -/
theorem drainFor_of_tick_eq {s : State} (h : tick s = .next s) (n : Nat) : drainFor n s = .next s := by
  induction n with
  | zero => rfl
  | succ n ih => rw [drainFor_succ_eq, h, Res.andThen_next, ih]

/-- A call given at least as many turns as there are listed answers ends returned or blocked. -/
theorem drainFor_returned_or_blocked {n : Nat} {s t : State} (hs : s.Returned ∨ s.InFlight) (hn : s.unusedAnswers ≤ n)
    (h : drainFor n s = .next t) : t.Returned ∨ t.Blocked := by
  induction n generalizing s with
  | zero =>
    cases h
    exact hs.imp_right (·.blocked (Nat.le_zero.mp hn))
  | succ n ih =>
    rcases hs with hret | hfl
    · rw [drainFor_free hret.1] at h; cases h; exact .inl hret
    · rw [drainFor_succ_eq] at h
      obtain ⟨u, htick, hrest⟩ := Res.andThen_eq_next.mp h
      rcases tick_blocked_or_uses_answer hfl htick with ⟨hblocked, rfl⟩ | ⟨hu, huse⟩
      · rw [drainFor_of_tick_eq htick] at hrest; cases hrest; exact .inr hblocked
      · exact ih hu (by omega) hrest

theorem drain_returned_or_blocked {s t : State} (hs : s.Returned ∨ s.InFlight) (h : drain s = .next t) :
    t.Returned ∨ t.Blocked :=
  drainFor_returned_or_blocked hs (Nat.le_refl _) h

/-! ### The operations -/

/-- An operation that is taken starts with no exchange in flight and no completion, so its body need be followed from there only. -/
theorem issue_next_elim {f : State → Res} {s t : State} {p : Prop} (h : issue f s = .next t)
    (hf : ∀ s, s.xchg = .free → s.done = none → f s = .next t → p) : p := by
  obtain ⟨hx, h⟩ := issue_eq_next.mp h
  exact hf { s with done := none } hx rfl h

theorem build_complete_returned {n : Byte} {bytes : List Byte} {r : OpResult} {s t : State} (hx : s.xchg = .free)
    (h : build n bytes s (complete r) = .next t) : t.Returned := by
  rcases build_eq_next.mp h with ⟨-, rfl⟩ | ⟨-, -, h⟩
  · exact ⟨hx, nofun⟩
  · cases h; exact ⟨hx, nofun⟩

/-- R182: an exchange sends the frame that stands in TXB. -/
theorem runExchange_returned_or_blocked {k : HostTask} {s t : State} (h : runExchange k s = .next t) :
    t.Returned ∨ t.Blocked :=
  issue_next_elim h fun s _ hd h => by
    split at h
    · cases h
    · rename_i hlen
      have hfl : (beginExchange k s).InFlight := ⟨hd, .inl ⟨rfl, Nat.pos_of_ne_zero hlen⟩⟩
      exact drain_returned_or_blocked (.inr hfl) h

theorem startWrite_drain_returned_or_blocked {a v : Word} {k : HostTask} {s t : State} (hx : s.xchg = .free)
    (hd : s.done = none) (h : (startWrite a v k s).andThen drain = .next t) : t.Returned ∨ t.Blocked := by
  obtain ⟨u, hstart, hdrain⟩ := Res.andThen_eq_next.mp h
  exact drain_returned_or_blocked (startWrite_returned_or_inFlight hx hd hstart) hdrain

theorem readSequence_returned_or_blocked {a : Word} {k : HostTask} {s t : State} (h : readSequence a k s = .next t) :
    t.Returned ∨ t.Blocked :=
  issue_next_elim h fun s hx hd h => by
    obtain ⟨u, hstart, hdrain⟩ := Res.andThen_eq_next.mp h
    exact drain_returned_or_blocked (startRead_returned_or_inFlight hx hd hstart) hdrain

theorem writeSequence_returned_or_blocked {a v : Word} {k : HostTask} {s t : State}
    (h : writeSequence a v k s = .next t) : t.Returned ∨ t.Blocked :=
  issue_next_elim h fun _ hx hd h => startWrite_drain_returned_or_blocked hx hd h

theorem selectSequence_returned_or_blocked {a : Word} {id : Int} {k : HostTask} {s t : State}
    (h : selectSequence a id k s = .next t) : t.Returned ∨ t.Blocked :=
  issue_next_elim h fun s hx hd h => by
    split at h
    · exact startWrite_drain_returned_or_blocked hx hd h
    · exact .inl (raiseError_returned hx h)

/-- Loading and saving a user set (R211, R212) begin with the select only when it is asked for. -/
theorem selectOrWrite_returned_or_blocked {f : Bool} {selector a v : Word} {id : Int} {k k' : HostTask} {s t : State}
    (h : (if f then selectSequence selector id k s else writeSequence a v k' s) = .next t) :
    t.Returned ∨ t.Blocked := by
  split at h
  · exact selectSequence_returned_or_blocked h
  · exact writeSequence_returned_or_blocked h

/-- An operation whose body only computes a result returns at once. -/
theorem issue_complete_returned {r : State → OpResult} {s t : State}
    (h : issue (fun s' => complete (r s') s') s = .next t) : t.Returned :=
  issue_next_elim h fun _ hx _ h => complete_returned hx h

theorem execBuildRead_returned {c : Bool} {n : Byte} {a : Word} {o : Byte} {s t : State}
    (h : execBuildRead c n a o s = .next t) : t.Returned :=
  issue_next_elim h fun _ hx _ h => build_complete_returned hx h

theorem execBuildWrite_returned {c : Bool} {n : Byte} {a v : Word} {o : Byte} {s t : State}
    (h : execBuildWrite c n a o v s = .next t) : t.Returned :=
  issue_next_elim h fun _ hx _ h => build_complete_returned hx h

theorem execChecksum_returned {bytes : List Byte} {s t : State} (h : execChecksum bytes s = .next t) :
    t.Returned :=
  issue_next_elim h fun s hx _ h => by
    split at h
    · exact raiseError_returned hx h
    · exact complete_returned hx h

theorem execParseBool_returned {bytes : List Byte} {s t : State} (h : execParseBool bytes s = .next t) :
    t.Returned :=
  issue_next_elim h fun s hx _ h => by
    split at h
    · exact complete_returned hx h
    · cases h

/-- Settles O50, by the operation: a build or a computation returns at once; an exchange and every sequence of the host layer
is a blocking call, given a turn for each listed answer. -/
theorem operationReturnsOrIsBlocked : Obligations.OperationReturnsOrIsBlocked := by
  intro i s t hch _ h
  show t.Returned ∨ t.Blocked
  cases i with
  | buildRead c n a o => exact .inl (execBuildRead_returned h)
  | buildWrite c n a o v => exact .inl (execBuildWrite_returned h)
  | checksum bytes => exact .inl (execChecksum_returned h)
  | parseInt bytes => exact .inl (issue_complete_returned (r := fun _ => .word (parseInt bytes)) h)
  | parseText bytes => exact .inl (issue_complete_returned (r := fun s' => .bytes (parseText s'.params bytes)) h)
  | parseBool bytes => exact .inl (execParseBool_returned h)
  | intToField v => exact .inl (issue_complete_returned (r := fun _ => .bytes (intToField v)) h)
  | mergeBool b0 b1 b2 b3 f => exact .inl (issue_complete_returned (r := fun _ => .bytes (mergeBool [b0, b1, b2, b3] f)) h)
  | readExchange => exact runExchange_returned_or_blocked h
  | writeExchange => exact runExchange_returned_or_blocked h
  | opUnassigned code => cases h
  | readEnum a => exact readSequence_returned_or_blocked h
  | readBool a => exact readSequence_returned_or_blocked h
  | readInfo a => exact readSequence_returned_or_blocked h
  | readString a => exact readSequence_returned_or_blocked h
  | writeEnum a v => exact writeSequence_returned_or_blocked h
  | writeBool a f => exact readSequence_returned_or_blocked h
  | writeCommandReg a => exact writeSequence_returned_or_blocked h
  | userSetSelect id => exact selectSequence_returned_or_blocked h
  | userSetDefaultSelect id => exact selectSequence_returned_or_blocked h
  | userSetLoad id f => exact selectOrWrite_returned_or_blocked h
  | userSetSave id f => exact selectOrWrite_returned_or_blocked h
  | userSetGetCurrent => exact readSequence_returned_or_blocked h
  | userSetGetDefault => exact readSequence_returned_or_blocked h
  | _ => simp [encode, encodeEvent] at hch

end Sys2Proof.Machine
end

section
/-! PROOFS. Request frames (30_encoding.md R72, R85; 40_frame_encoder.md R100, R110): the bytes of a request, that request_decode
accepts exactly the well-formed ones and gives the request back, and that a build's frame and each of the eight forms are such
bytes. -/

namespace Sys2Proof.Machine

/-! ### The fields of a frame -/

@[simp] theorem flagsUnpack_flagsPack (read cks ext : Bool) : flagsUnpack (flagsPack read cks ext) = ⟨read, cks, ext⟩ := by
  revert read cks ext; decide

@[simp] theorem flagsUnnamedZero_flagsPack (read cks ext : Bool) : flagsUnnamedZero (flagsPack read cks ext) = true := by
  revert read cks ext; decide

/-- R124: the bytes before a checksum byte and the byte itself fold to zero exactly when it is the right one. -/
theorem xorFold_append_eq_zero (s : List Byte) (k : Byte) : xorFold (s ++ [k]) = 0#8 ↔ k = xorFold s := by
  simp only [xorFold, List.foldl_append, List.foldl_cons, List.foldl_nil, BitVec.xor_eq_zero_iff]
  exact eq_comm

/-- R13: assembling undoes splitting. -/
theorem leValue_leBytes4 (v : Word) : leValue (leBytes4 v) = v.toNat := by
  simp only [leBytes4, leValue, BitVec.extractLsb'_toNat, Nat.shiftRight_eq_div_pow]
  omega

theorem leValue_leBytes2 (v : BitVec 16) : leValue (leBytes2 v) = v.toNat := by
  simp only [leBytes2, leValue, BitVec.extractLsb'_toNat, Nat.shiftRight_eq_div_pow]
  omega

/-! ### The wire address (R60) -/

/-- Bit by bit: the low byte is the sum of R103, every other bit the base address's. -/
theorem wireAddress_getLsbD (base : Word) (off : Byte) (i : Nat) :
    (wireAddress base off).getLsbD i = if i < 8 then (addrLow base off).getLsbD i else base.getLsbD i := by
  by_cases hi : i < 32
  · have hmask : (0xFFFFFF00#32).getLsbD i = decide (8 ≤ i) := by revert i; decide
    simp only [wireAddress, BitVec.getLsbD_or, BitVec.getLsbD_and, BitVec.getLsbD_setWidth, hmask]
    by_cases h8 : i < 8
    · simp [h8, hi]
    · simp [h8, Nat.le_of_not_lt h8]
  · simp [Nat.le_of_not_lt hi, show ¬ i < 8 by omega]

theorem extractLsb'_wireAddress_low (base : Word) (off : Byte) :
    (wireAddress base off).extractLsb' 0 8 = addrLow base off := by
  ext k hk
  simp [wireAddress_getLsbD, hk, BitVec.getLsbD_eq_getElem]

theorem extractLsb'_wireAddress_high (base : Word) (off : Byte) {i : Nat} (n : Nat) (h : 8 ≤ i) :
    (wireAddress base off).extractLsb' i n = base.extractLsb' i n := by
  ext k hk
  simp [wireAddress_getLsbD, show ¬ i + k < 8 by omega]

/-- A build with offset 0 sends the base address itself. -/
@[simp] theorem wireAddress_zero (base : Word) : wireAddress base 0#8 = base := by
  apply BitVec.eq_of_getLsbD_eq
  intro i _
  rw [wireAddress_getLsbD]
  by_cases h8 : i < 8 <;> simp [addrLow, h8]

/-- The 4-byte address form carries the wire address (R103). -/
theorem addrBytes_ext (base : Word) (off : Byte) : addrBytes base off true = leBytes4 (wireAddress base off) := by
  simp [addrBytes, leBytes4, extractLsb'_wireAddress_low, extractLsb'_wireAddress_high]

/-- The 2-byte form carries its low 16 bits (R76). -/
theorem addrBytes_short (base : Word) (off : Byte) :
    addrBytes base off false = leBytes2 ((wireAddress base off).setWidth 16) := by
  simp [addrBytes, leBytes2, BitVec.extractLsb'_setWidth_of_le, extractLsb'_wireAddress_low, extractLsb'_wireAddress_high]

/-- The offset does not move an address across the threshold of the address width (R76, R102). -/
theorem le_wireAddress_iff (base : Word) (off : Byte) :
    65536 ≤ (wireAddress base off).toNat ↔ 65536 ≤ base.toNat := by
  have h := congrArg BitVec.toNat (extractLsb'_wireAddress_high base off 16 (i := 16) (by omega))
  simp only [BitVec.extractLsb'_toNat, Nat.shiftRight_eq_div_pow] at h
  omega

theorem addrExt_eq_true_iff {mode : AddrWidthMode} {a : Word} :
    addrExt mode a = true ↔ mode = .intended ∧ 65536 ≤ a.toNat := by
  cases mode <;> simp [addrExt, Config.extThreshold]

/-- An address of 16 bits takes the short form in either mode. -/
theorem addrExt_short (mode : AddrWidthMode) (a : BitVec 16) : addrExt mode (a.setWidth 32) = false := by
  rw [← Bool.not_eq_true, addrExt_eq_true_iff, BitVec.toNat_setWidth]
  omega

/-- So a build chooses the same width for the base address and for the wire address. -/
theorem addrExt_wireAddress (mode : AddrWidthMode) (base : Word) (off : Byte) :
    addrExt mode (wireAddress base off) = addrExt mode base := by
  rw [Bool.eq_iff_iff, addrExt_eq_true_iff, addrExt_eq_true_iff, le_wireAddress_iff]

end Sys2Proof.Machine

namespace Sys2Proof

/-! ### The bytes of a request -/

/-- The fields of a request agree: a read has no value, and the short form an address of 16 bits (R70, R76). -/
def Request.Consistent (r : Request) : Prop :=
  r.read = r.value.isNone ∧ (r.ext = false → ∃ a : BitVec 16, r.wireAddress = a.setWidth 32)

/-- The address field (R71). -/
def Request.addrField (r : Request) : List Byte :=
  if r.ext then Machine.leBytes4 r.wireAddress else Machine.leBytes2 (r.wireAddress.setWidth 16)

/-- The data field (R71). -/
def Request.dataField (r : Request) : List Byte := r.value.elim [] Machine.leBytes4

/-- The bytes from the flags byte up to the checksum (R78). -/
def Request.body (r : Request) : List Byte :=
  frameBody (Machine.flagsPack r.read r.cks r.ext) r.dataLength (r.addrField ++ r.dataField)

/-- The frame of a request, with any checksum byte and any end marker. -/
def Request.frameWith (r : Request) (k e : Byte) : List Byte :=
  Config.sof :: (r.body ++ ((if r.cks then [k] else []) ++ [e]))

/-- What R85 requires of the length byte, the end marker and the checksum byte. -/
abbrev Request.Accepted (r : Request) (k e : Byte) : Prop :=
  r.dataLength ≠ 0#8 ∧ e = Config.eof ∧ (r.cks = false ∨ k = Machine.xorFold r.body)

theorem Request.addrField_length (r : Request) : r.addrField.length = Machine.addrBytesCount r.ext := by
  unfold addrField
  cases r.ext <;> rfl

theorem Request.dataField_length {r : Request} (h : r.Consistent) :
    r.dataField.length = if r.read then 0 else 4 := by
  obtain ⟨hread, -⟩ := h
  unfold dataField
  cases hv : r.value <;> simp [hread, hv]

theorem Request.frameWith_length {r : Request} (h : r.Consistent) (k e : Byte) :
    (r.frameWith k e).length =
      (if r.read then 4 else 8) + Machine.addrBytesCount r.ext + (if r.cks then 1 else 0) := by
  simp only [frameWith, body, frameBody, List.length_cons, List.length_append, addrField_length, dataField_length h]
  cases r.read <;> cases r.cks <;> simp <;> omega

theorem Request.frameWith_eq_concat (r : Request) (k e : Byte) :
    r.frameWith k e = (Config.sof :: (r.body ++ if r.cks then [k] else [])) ++ [e] := by
  simp [frameWith]

/-- Behind the length byte stand the address field, the data field and the rest (R70). -/
theorem Request.frameWith_drop_three (r : Request) (k e : Byte) :
    (r.frameWith k e).drop 3 = r.addrField ++ (r.dataField ++ ((if r.cks then [k] else []) ++ [e])) := by
  simp [frameWith, body, frameBody]

/-- The address field holds the wire address (R60, R76). -/
theorem Request.frameWith_wireAddress {r : Request} (h : r.Consistent) (k e : Byte) :
    BitVec.ofNat 32 (Machine.leValue (((r.frameWith k e).drop 3).take (Machine.addrBytesCount r.ext))) = r.wireAddress := by
  rw [frameWith_drop_three, ← addrField_length, List.take_left, addrField]
  cases hx : r.ext with
  | true => simp [Machine.leValue_leBytes4]
  | false =>
    obtain ⟨a, ha⟩ := h.2 hx
    simp [ha, Machine.leValue_leBytes2]

/-- The data field holds the value of a write (R77). -/
theorem Request.frameWith_value {r : Request} (h : r.Consistent) (k e : Byte) :
    (if r.read then none else
      some (BitVec.ofNat 32 (Machine.leValue (((r.frameWith k e).drop (3 + Machine.addrBytesCount r.ext)).take 4)))) =
      r.value := by
  rw [← List.drop_drop, frameWith_drop_three, ← addrField_length, List.drop_left, h.1, dataField]
  cases r.value with
  | none => rfl
  | some v => simp [List.take_left' (Machine.leBytes4_length v), Machine.leValue_leBytes4]

/-- The checksum covers the flags byte to the data field (R78, R124). -/
theorem Request.xorFold_frameWith {r : Request} (hc : r.cks = true) (k e : Byte) :
    Machine.xorFold ((r.frameWith k e).dropLast.drop 1) = 0#8 ↔ k = Machine.xorFold r.body := by
  rw [frameWith_eq_concat, List.dropLast_concat, hc]
  exact Machine.xorFold_append_eq_zero r.body k

/-- request_decode is the strict inverse (R85): it accepts a request's frame exactly with the length, end marker and checksum it
requires, and gives the request back. -/
theorem Request.requestDecode_frameWith {r : Request} (h : r.Consistent) (k e : Byte) :
    requestDecode (r.frameWith k e) = if r.Accepted k e then some r else none := by
  have hflags : (r.frameWith k e).getD 1 0#8 = Machine.flagsPack r.read r.cks r.ext := rfl
  have hlen : (r.frameWith k e).getD Config.lenIndex 0#8 = r.dataLength := rfl
  have hhead : (r.frameWith k e).head? = some Config.sof := rfl
  have hlast : (r.frameWith k e).getLast? = some e := by rw [frameWith_eq_concat, List.getLast?_concat]
  have hfits : 6 ≤ (if r.read then 4 else 8) + Machine.addrBytesCount r.ext + (if r.cks then 1 else 0) := by
    unfold Machine.addrBytesCount
    split <;> split <;> omega
  have hcks : (r.cks = false ∨ Machine.xorFold ((r.frameWith k e).dropLast.drop 1) = 0#8) ↔
      (r.cks = false ∨ k = Machine.xorFold r.body) := by
    cases hc : r.cks with
    | false => simp
    | true => rw [xorFold_frameWith hc]
  simp only [requestDecode, hflags, hlen, hhead, hlast, hfits, hcks, frameWith_length h, frameWith_wireAddress h,
    frameWith_value h, Machine.flagsUnpack_flagsPack, Machine.flagsUnnamedZero_flagsPack, true_and]
  exact if_congr (by simp [Accepted, and_left_comm]) rfl rfl

/-! ### The frames of the builds -/

/-- The frame of a request, with its own checksum and the end marker. -/
def Request.bytes (r : Request) : List Byte := r.frameWith (Machine.xorFold r.body) Config.eof

theorem Request.frameWith_eq_bytes {r : Request} {k e : Byte} (h : r.Accepted k e) : r.frameWith k e = r.bytes := by
  obtain ⟨-, he, hc | hk⟩ := h
  · simp [bytes, frameWith, he, hc]
  · rw [bytes, he, hk]

/-- The request a build encodes: BUILD_READ without a value, BUILD_WRITE with one (R100, R110). In the short form the frame carries
the low 16 bits of the wire address (R76). -/
def requestOf (mode : AddrWidthMode) (cks : Bool) (n : Byte) (base : Word) (off : Byte) (value : Option Word) : Request where
  read        := value.isNone
  cks         := cks
  ext         := Machine.addrExt mode base
  dataLength  := n
  wireAddress :=
    if Machine.addrExt mode base then Machine.wireAddress base off
    else ((Machine.wireAddress base off).setWidth 16).setWidth 32
  value       := value

theorem requestOf_consistent (mode : AddrWidthMode) (cks : Bool) (n : Byte) (base : Word) (off : Byte)
    (value : Option Word) : (requestOf mode cks n base off value).Consistent :=
  ⟨rfl, fun hx => ⟨_, if_neg (Bool.eq_false_iff.mp hx)⟩⟩

theorem requestOf_addrField (mode : AddrWidthMode) (cks : Bool) (n : Byte) (base : Word) (off : Byte)
    (value : Option Word) :
    (requestOf mode cks n base off value).addrField = Machine.addrBytes base off (Machine.addrExt mode base) := by
  unfold Request.addrField requestOf
  by_cases hx : Machine.addrExt mode base = true
  · simp only [hx, if_true, Machine.addrBytes_ext]
  · simp only [Bool.eq_false_iff.mpr hx, Bool.false_eq_true, if_false, Machine.addrBytes_short]
    simp

theorem requestOf_body (mode : AddrWidthMode) (cks : Bool) (n : Byte) (base : Word) (off : Byte) (value : Option Word) :
    (requestOf mode cks n base off value).body =
      Machine.flagsPack value.isNone cks (Machine.addrExt mode base) :: n ::
        (Machine.addrBytes base off (Machine.addrExt mode base) ++ value.elim [] Machine.leBytes4) := by
  rw [Request.body, requestOf_addrField]; rfl

theorem readFrame_eq_bytes (mode : AddrWidthMode) (cks : Bool) (n : Byte) (base : Word) (off : Byte) :
    Machine.readFrame mode cks n base off = (requestOf mode cks n base off none).bytes := by
  rw [Request.bytes, Request.frameWith, requestOf_body, Option.elim_none, List.append_nil]; rfl

theorem writeFrame_eq_bytes (mode : AddrWidthMode) (cks : Bool) (n : Byte) (base : Word) (off : Byte) (value : Word) :
    Machine.writeFrame mode cks n base off value = (requestOf mode cks n base off (some value)).bytes := by
  rw [Request.bytes, Request.frameWith, requestOf_body]; rfl

/-- What a build makes is the request frame it encodes. -/
theorem madeByABuild_iff {mode : AddrWidthMode} {bytes : List Byte} :
    Machine.madeByABuild mode bytes ↔ ∃ (cks : Bool) (n : Byte) (base : Word) (off : Byte) (value : Option Word),
      n ≠ 0#8 ∧ bytes = (requestOf mode cks n base off value).bytes := by
  simp only [Machine.madeByABuild, readFrame_eq_bytes, writeFrame_eq_bytes]
  constructor
  · rintro ⟨cks, n, base, off, value, hn, hread | hwrite⟩
    · exact ⟨cks, n, base, off, none, hn, hread⟩
    · exact ⟨cks, n, base, off, some value, hn, hwrite⟩
  · rintro ⟨cks, n, base, off, _ | value, hn, hbytes⟩
    · exact ⟨cks, n, base, off, 0#32, hn, .inl hbytes⟩
    · exact ⟨cks, n, base, off, value, hn, .inr hbytes⟩

/-- request_decode recovers the fields of a build's frame (R85). -/
theorem requestDecode_requestOf (mode : AddrWidthMode) (cks : Bool) {n : Byte} (hn : n ≠ 0#8) (base : Word) (off : Byte)
    (value : Option Word) :
    requestDecode (requestOf mode cks n base off value).bytes = some (requestOf mode cks n base off value) := by
  rw [Request.bytes, Request.requestDecode_frameWith (requestOf_consistent ..)]
  exact if_pos ⟨hn, rfl, .inr rfl⟩

/-- The address width a build chooses is the one its own mode asks for (R85, R102). -/
theorem requestOf_ext (mode : AddrWidthMode) (cks : Bool) (n : Byte) (base : Word) (off : Byte) (value : Option Word) :
    (requestOf mode cks n base off value).ext =
      Machine.addrExt mode (requestOf mode cks n base off value).wireAddress := by
  simp only [requestOf]
  cases hx : Machine.addrExt mode base with
  | true => simp [Machine.addrExt_wireAddress, hx]
  | false => simp [Machine.addrExt_short]

theorem builtRequest_requestOf (mode : AddrWidthMode) (cks : Bool) {n : Byte} (hn : n ≠ 0#8) (base : Word) (off : Byte)
    (value : Option Word) :
    builtRequest mode (requestOf mode cks n base off value).bytes = some (requestOf mode cks n base off value) :=
  Machine.builtRequest_eq_some.mpr ⟨requestDecode_requestOf mode cks hn base off value, requestOf_ext ..⟩

/-- TXB as the builds leave it (R26): every frame a build makes is one of its mode. -/
theorem builtRequest_of_madeByABuild {mode : AddrWidthMode} {bytes : List Byte} (h : Machine.madeByABuild mode bytes) :
    builtRequest mode bytes ≠ none := by
  obtain ⟨cks, n, base, off, value, hn, rfl⟩ := madeByABuild_iff.mp h
  rw [builtRequest_requestOf mode cks hn]
  exact nofun

/-- A request of the width its address asks for is encoded by the build with the wire address as base address and offset 0. -/
theorem Request.eq_requestOf {r : Request} {mode : AddrWidthMode} (h : r.Consistent)
    (hx : r.ext = Machine.addrExt mode r.wireAddress) :
    r = requestOf mode r.cks r.dataLength r.wireAddress 0#8 r.value := by
  obtain ⟨read, cks, ext, n, a, value⟩ := r
  obtain ⟨hread, hshort⟩ := h
  simp only [requestOf, Machine.wireAddress_zero, ← hx, Request.mk.injEq, true_and, and_true] at hread hshort ⊢
  refine ⟨hread, ?_⟩
  cases ext with
  | true => rfl
  | false =>
    obtain ⟨a', rfl⟩ := hshort rfl
    simp

theorem Request.madeByABuild_frameWith {r : Request} {mode : AddrWidthMode} {k e : Byte} (h : r.Consistent)
    (ha : r.Accepted k e) (hx : r.ext = Machine.addrExt mode r.wireAddress) :
    Machine.madeByABuild mode (r.frameWith k e) :=
  madeByABuild_iff.mpr ⟨_, _, _, _, _, ha.1, by rw [frameWith_eq_bytes ha, ← r.eq_requestOf h hx]⟩

/-! ### The eight forms -/

/-- An instruction is the form of a request with this checksum byte and end marker: its bytes and its well-formedness are the
request's (R72, R85), and running it presents those bytes (log 17). -/
structure Instr.IsForm (i : Instr) (r : Request) (k e : Byte) : Prop where
  consistent : r.Consistent
  bytes_eq   : (encode i).bytes = r.frameWith k e
  wf_iff     : i.wf = true ↔ r.Accepted k e
  exec_eq    : Machine.exec i = Machine.presentFrame r.dataLength (encode i).bytes

/-- The flags byte of each of the eight forms (R72, R74). -/
theorem flagsPack_table :
    Machine.flagsPack true false false = 0x08#8 ∧ Machine.flagsPack true true false = 0x0C#8 ∧
    Machine.flagsPack true false true = 0x09#8 ∧ Machine.flagsPack true true true = 0x0D#8 ∧
    Machine.flagsPack false false false = 0x00#8 ∧ Machine.flagsPack false true false = 0x04#8 ∧
    Machine.flagsPack false false true = 0x01#8 ∧ Machine.flagsPack false true true = 0x05#8 := by decide

@[simp] theorem Request.body_mk (read cks ext : Bool) (n : Byte) (a : Word) (value : Option Word) :
    Request.body ⟨read, cks, ext, n, a, value⟩ = frameBody (Machine.flagsPack read cks ext) n
      ((if ext then Machine.leBytes4 a else Machine.leBytes2 (a.setWidth 16)) ++ value.elim [] Machine.leBytes4) := rfl

@[simp] theorem Request.frameWith_mk (read cks ext : Bool) (n : Byte) (a : Word) (value : Option Word) (k e : Byte) :
    Request.frameWith ⟨read, cks, ext, n, a, value⟩ k e =
      Config.sof :: (Request.body ⟨read, cks, ext, n, a, value⟩ ++ ((if cks then [k] else []) ++ [e])) := rfl

/-- R72: the eight forms are the requests of each kind, checksum choice and address width. -/
theorem Instr.exists_isForm {i : Instr} (h : (encode i).ch = .frame) : ∃ r k e, i.IsForm r k e := by
  cases i with
  | rdS n a e =>
    refine ⟨⟨true, false, false, n, a.setWidth 32, none⟩, 0#8, e, ⟨rfl, fun _ => ⟨a, rfl⟩⟩, ?_, ?_, rfl⟩
    · simp [encode, frameBody, flagsPack_table]
    · simp [Instr.wf, frameFieldsOk, flagsPack_table]
  | rdSC n a k e =>
    refine ⟨⟨true, true, false, n, a.setWidth 32, none⟩, k, e, ⟨rfl, fun _ => ⟨a, rfl⟩⟩, ?_, ?_, rfl⟩
    · simp [encode, frameBody, flagsPack_table]
    · simp [Instr.wf, frameFieldsOk, flagsPack_table, and_assoc]
  | rdX n a e =>
    refine ⟨⟨true, false, true, n, a, none⟩, 0#8, e, ⟨rfl, nofun⟩, ?_, ?_, rfl⟩
    · simp [encode, frameBody, flagsPack_table]
    · simp [Instr.wf, frameFieldsOk, flagsPack_table]
  | rdXC n a k e =>
    refine ⟨⟨true, true, true, n, a, none⟩, k, e, ⟨rfl, nofun⟩, ?_, ?_, rfl⟩
    · simp [encode, frameBody, flagsPack_table]
    · simp [Instr.wf, frameFieldsOk, flagsPack_table, and_assoc]
  | wrS n a v e =>
    refine ⟨⟨false, false, false, n, a.setWidth 32, some v⟩, 0#8, e, ⟨rfl, fun _ => ⟨a, rfl⟩⟩, ?_, ?_, rfl⟩
    · simp [encode, frameBody, flagsPack_table]
    · simp [Instr.wf, frameFieldsOk, flagsPack_table]
  | wrSC n a v k e =>
    refine ⟨⟨false, true, false, n, a.setWidth 32, some v⟩, k, e, ⟨rfl, fun _ => ⟨a, rfl⟩⟩, ?_, ?_, rfl⟩
    · simp [encode, frameBody, flagsPack_table]
    · simp [Instr.wf, frameFieldsOk, flagsPack_table, and_assoc]
  | wrX n a v e =>
    refine ⟨⟨false, false, true, n, a, some v⟩, 0#8, e, ⟨rfl, nofun⟩, ?_, ?_, rfl⟩
    · simp [encode, frameBody, flagsPack_table]
    · simp [Instr.wf, frameFieldsOk, flagsPack_table]
  | wrXC n a v k e =>
    refine ⟨⟨false, true, true, n, a, some v⟩, k, e, ⟨rfl, nofun⟩, ?_, ?_, rfl⟩
    · simp [encode, frameBody, flagsPack_table]
    · simp [Instr.wf, frameFieldsOk, flagsPack_table, and_assoc]
  | _ => simp [encode, encodeEvent] at h

/-- The length byte of a form stands at index 2 (R71). -/
theorem Instr.IsForm.lengthByte {i : Instr} {r : Request} {k e : Byte} (h : i.IsForm r k e) :
    (encode i).bytes[2]? = some r.dataLength := by
  rw [h.bytes_eq]; rfl

theorem Instr.IsForm.requestDecode_eq {i : Instr} {r : Request} {k e : Byte} (h : i.IsForm r k e) :
    requestDecode (encode i).bytes = if i.wf = true then some r else none := by
  rw [h.bytes_eq, Request.requestDecode_frameWith h.consistent]
  exact if_congr h.wf_iff.symm rfl rfl

/-- In the short form the address is below the threshold in either mode (R102). -/
theorem Request.ext_eq_addrExt {r : Request} (h : r.Consistent) {mode : AddrWidthMode}
    (hx : r.ext = true → mode = .intended ∧ 65536 ≤ r.wireAddress.toNat) :
    r.ext = Machine.addrExt mode r.wireAddress := by
  cases hr : r.ext with
  | true => exact (Machine.addrExt_eq_true_iff.mpr (hx hr)).symm
  | false =>
    obtain ⟨a, ha⟩ := h.2 hr
    rw [ha, Machine.addrExt_short]

end Sys2Proof

namespace Sys2Proof.Machine

/-- Presenting a frame that a build makes stores it whole and completes (R24, R100, R110). -/
theorem presentFrame_stores {n : Byte} {bytes : List Byte} {s : State} (hs : s.xchg = .free)
    (hb : builtRequest s.params.addrWidthMode bytes ≠ none) (hn : n ≠ 0#8) (hl : bytes.length ≤ Config.txBufBytes) :
    presentFrame n bytes s = .next { s with
      txb := (s.txb.writeAll 0 bytes).dropFrom bytes.length, txLen := bytes.length
      task := .idle, done := some ⟨.ok, .none⟩ } := by
  rw [presentFrame_built hs hb, build_ok hn hl, complete_eq]

/-- Settles O21: a well-formed form is the frame of its request, which the build with the wire address as base address makes. -/
theorem frameFormIsStoredWhole : Obligations.FrameFormIsStoredWhole := by
  intro s i hs hch hwf hext
  obtain ⟨r, k, e, hform⟩ := Instr.exists_isForm hch
  have hdecode : requestDecode (encode i).bytes = some r := by rw [hform.requestDecode_eq, if_pos hwf]
  have haccepted : r.Accepted k e := hform.wf_iff.mp hwf
  have hwidth := Request.ext_eq_addrExt hform.consistent (hext r hdecode)
  have hmade : madeByABuild s.params.addrWidthMode (encode i).bytes := by
    rw [hform.bytes_eq]; exact Request.madeByABuild_frameWith hform.consistent haccepted hwidth
  have hfits : (encode i).bytes.length ≤ Config.txBufBytes := by
    obtain ⟨cks, n, base, off, value, -, hread | hwrite⟩ := hmade
    · rw [hread]; exact readFrame_fits ..
    · rw [hwrite]; exact writeFrame_fits ..
  have hstored := presentFrame_stores hs (builtRequest_of_madeByABuild hmade) haccepted.1 hfits
  refine ⟨⟨_, (congrFun hform.exec_eq s).trans hstored, rfl, ?_, ?_, rfl⟩, hmade⟩
  · simp [hostReadTxb, memRead_ok_iff, storeFrame_readAll]
  · intro n hn
    exact (storeFrame_read n).trans (List.getElem?_eq_none hn)

/-- A form with the length byte 0 raises InvalidLength whatever else it holds (R101, R111). -/
theorem presentFrame_zero {bytes : List Byte} {s : State} (hs : s.xchg = .free) :
    presentFrame 0#8 bytes s = .next { s with task := .idle, done := some ⟨.invalidLength, .none⟩ } := by
  simp [presentFrame, issue_free hs, build_zero]

/-- What request_decode refuses is refused (R85). -/
theorem presentFrame_undecodable {n : Byte} {bytes : List Byte} {s : State} (hs : s.xchg = .free) (hn : n ≠ 0#8)
    (hd : requestDecode bytes = none) : presentFrame n bytes s = .refused .notARequestFrame := by
  simp [presentFrame, issue_free hs, hn, hd]

/-- A request frame of another address width than its build's is refused (R85, R102; log 17). -/
theorem presentFrame_notBuilt {n : Byte} {bytes : List Byte} {s : State} (hs : s.xchg = .free) (hn : n ≠ 0#8)
    (hd : requestDecode bytes ≠ none) (hb : builtRequest s.params.addrWidthMode bytes = none) :
    presentFrame n bytes s = .refused .notBuiltInThisMode := by
  simp [presentFrame, issue_free hs, hn, hd, hb]

/-- Settles O22: by the length byte, by request_decode, and by the address width the mode asks for. -/
theorem illFormedFrameFormStops : Obligations.IllFormedFrameFormStops := by
  intro s i hs hch
  obtain ⟨r, k, e, hform⟩ := Instr.exists_isForm hch
  rw [hform.lengthByte, hform.exec_eq]
  refine ⟨fun hn => ?_, fun hn hwf => ?_, fun q hq hext hmode => ?_⟩
  · rw [Option.some.inj hn]
    exact presentFrame_zero hs
  · have hd : requestDecode (encode i).bytes = none := by simp [hform.requestDecode_eq, hwf]
    exact presentFrame_undecodable hs (fun h => hn (congrArg some h)) hd
  · have hnotBuilt : builtRequest s.params.addrWidthMode (encode i).bytes = none := by
      rw [Option.eq_none_iff_forall_ne_some]
      intro q' hq'
      obtain ⟨hq'', hwidth⟩ := builtRequest_eq_some.mp hq'
      obtain rfl : q = q' := Option.some.inj (hq.symm.trans hq'')
      exact hmode (addrExt_eq_true_iff.mp (hwidth.symm.trans hext))
    have hwf : i.wf = true := by
      by_contra hwf
      rw [hform.requestDecode_eq, if_neg hwf] at hq
      cases hq
    exact ⟨presentFrame_notBuilt hs (hform.wf_iff.mp hwf).1 (by simp [hq]) hnotBuilt,
      fun hmade => builtRequest_of_madeByABuild hmade hnotBuilt⟩

end Sys2Proof.Machine
end

section
/-! PROOFS. The interfaces (10_state.md): which presented transaction a step runs (R39), and how far a host read of a buffer
reaches (R26, R30). -/

namespace Sys2Proof

theorem Channel.isRx_iff {ch : Channel} : ch.isRx = true ↔ ch = .rx ∨ ch = .reply := by
  cases ch <;> simp [Channel.isRx]

theorem Channel.isRx_eq_false_iff {ch : Channel} : ch.isRx = false ↔ ch = .op ∨ ch = .host ∨ ch = .frame := by
  cases ch <;> simp [Channel.isRx]

end Sys2Proof

namespace Sys2Proof.Machine

/-! ### The transaction a step runs -/

/-- What the framer takes (R39, R62, R184, R186): operations with no exchange in flight, and behind the transport's own events the
events of an exchange that waits. -/
theorem accepts_iff {s : State} {t : Transaction} :
    accepts s t = true ↔
      (s.xchg = .free ∧ (t.ch = .op ∨ t.ch = .host ∨ t.ch = .frame)) ∨
        ((s.xchg = .awaitRead ∨ s.xchg = .awaitWrite) ∧ s.rxQueue = [] ∧ (t.ch = .rx ∨ t.ch = .reply)) := by
  rw [← Channel.isRx_iff, ← Channel.isRx_eq_false_iff]
  unfold accepts
  cases s.xchg <;> simp [and_comm]

/-- A step runs the first transaction the framer takes, on the state without it. -/
theorem step_of_accepts {s : State} {before rest : List Transaction} {t : Transaction}
    (hport : s.port = before ++ t :: rest) (hbefore : ∀ u ∈ before, accepts s u = false) (ht : accepts s t = true) :
    step s = match decode (s.link.ctx s.params) t with
      | .ok i => exec i { s with port := before ++ rest }
      | .error e => .refused (.undecodable e) := by
  have htake : takeFirst s s.port = some (t, before ++ rest) :=
    takeFirst_eq_some.mpr ⟨before, rest, hport, rfl, ht, hbefore⟩
  simp only [step, fetch, htake]
  cases decode (s.link.ctx s.params) t <;> rfl

/-- With none taken a step is one transaction of the environment. -/
theorem step_of_accepts_none {s : State} (h : ∀ u ∈ s.port, accepts s u = false) : step s = tick s := by
  simp only [step, fetch, takeFirst_eq_none.mpr h]

/-- Everything a step can be: the instruction of one presented transaction, the refusal of one that encodes nothing, or one
transaction of the environment. -/
theorem step_cases (s : State) :
    (∃ before t rest i, s.port = before ++ t :: rest ∧ step s = exec i { s with port := before ++ rest }) ∨
      (∃ e, step s = .refused (.undecodable e)) ∨ step s = tick s := by
  cases htake : takeFirst s s.port with
  | none => exact .inr (.inr (step_of_accepts_none (takeFirst_eq_none.mp htake)))
  | some taken =>
    obtain ⟨t, others⟩ := taken
    obtain ⟨before, rest, hport, -, ht, hbefore⟩ := takeFirst_eq_some.mp htake
    have hstep := step_of_accepts hport hbefore ht
    cases hd : decode (s.link.ctx s.params) t with
    | ok i => exact .inl ⟨before, t, rest, i, hport, by rw [hstep, hd]⟩
    | error e => exact .inr (.inl ⟨e, by rw [hstep, hd]⟩)

/-- Settles O6: the statement's reading of what is taken is `accepts`. -/
theorem stepRunsThePresentedTransaction : Obligations.StepRunsThePresentedTransaction := by
  intro s taken
  have htaken (u : Transaction) : accepts s u = false ↔ ¬ taken u := by
    rw [← Bool.not_eq_true, accepts_iff]
  refine ⟨fun before rest t hport hbefore ht => ?_, fun h => step_of_accepts_none fun u hu => (htaken u).mpr (h u hu)⟩
  have hstep := step_of_accepts hport (fun u hu => (htaken u).mpr (hbefore u hu)) (accepts_iff.mpr ht)
  exact ⟨fun i hi => by rw [hstep, hi], fun e he => by rw [hstep, he]⟩

/-! ### Host reads -/

/-- Inside a buffer that holds exactly the indexes below a count, a read succeeds. -/
theorem memRead_of_exactly {m : Memory} {count i n : Nat} (h : m.exactly count) (hn : i + n ≤ count) :
    ∃ bs, memRead m i n = .ok bs ∧ bs.length = n := by
  obtain ⟨bs, hbs⟩ := Memory.exactly_readAll h hn
  exact ⟨bs, memRead_ok_iff.mpr hbs, (Memory.readAll_eq_some.mp hbs).1⟩

/-- One byte read is the byte at its index. -/
theorem memRead_one {m : Memory} {i : Nat} {b : Byte} (h : m.read i = some b) : memRead m i 1 = .ok [b] := by
  rw [memRead_ok_iff]
  simp [Memory.readAll, h]

/-- Settles O15: below the counts the buffers hold every index, and a captured length stands at index 2 (R168 b). -/
theorem hostReadsEndAtTheCount : Obligations.HostReadsEndAtTheCount := by
  intro s hs
  obtain ⟨-, ⟨htxb, -, -⟩, ⟨hrxb, -, -, -, hvalid, hcaptured⟩, -⟩ := hs
  refine ⟨fun i n => ⟨fun h => ?_, fun h => ?_⟩, fun i n => ⟨fun h => ?_, fun h => ?_⟩, fun hv => ?_, fun hv => ?_⟩
  · rw [hostReadTxb, if_pos h]; exact memRead_of_exactly htxb h
  · rw [hostReadTxb, if_neg (by omega)]
  · rw [hostReadRxb, if_pos h]; exact memRead_of_exactly hrxb h
  · rw [hostReadRxb, if_neg (by omega)]
  · have hcount : 2 + 1 ≤ s.link.rxCount := hvalid.mp hv
    rw [hostReadRxb, if_pos hcount, memRead_one (hcaptured hv), hostReadRxLen, Link.readLen, if_pos hv]
    rfl
  · simp [hostReadRxLen, Link.readLen, hv]

end Sys2Proof.Machine
end

section
/-! PROOFS. What every instruction is made of, and two properties of all of them: the parameters and what is presented stay
(00_scope.md R7, 10_state.md R34, R38), and no read or write leaves a buffer (10_state.md R37). -/

namespace Sys2Proof.Machine

/-! ### The kinds of meanings -/

/-- An operation that neither builds nor exchanges: it completes, raises an error or is refused at once. -/
inductive AnswersAtOnce (s : State) : Res → Prop
  | completes (r : OpResult) : AnswersAtOnce s (complete r s)
  | raises (k : Status) : AnswersAtOnce s (raiseError k s)
  | refuses (e : Refusal) : AnswersAtOnce s (.refused e)

/-- The kinds of meanings the table has: a request frame form, a reply, a receive event, a build, an answer at once, an
exchange, and the sequences of the host layer by their first exchange. -/
inductive Meaning : (State → Res) → Prop
  | form (n : Byte) (bytes : List Byte) (hfits : bytes.length ≤ Config.txBufBytes) : Meaning (presentFrame n bytes)
  | reply (bytes : List Byte) : Meaning (deliverReply bytes)
  | event (e : RxEvent) : Meaning (receive e)
  | build (n : Byte) (bytes : State → List Byte) (hfits : ∀ s, (bytes s).length ≤ Config.txBufBytes) :
      Meaning (issue fun s => build n (bytes s) s (complete .none))
  | answer (f : State → Res) (hf : ∀ s, AnswersAtOnce s (f s)) : Meaning (issue f)
  | exchange (k : HostTask) : Meaning (runExchange k)
  | readFirst (a : Word) (k : HostTask) : Meaning (readSequence a k)
  | writeFirst (a v : Word) (k : HostTask) : Meaning (writeSequence a v k)
  | unassigned : Meaning fun _ => .refused .unassignedSelectCode

/-- R209, R210: an id in range begins with the select, another one raises OutOfRange. -/
theorem meaning_selectSequence (a : Word) (id : Int) (k : HostTask) : Meaning (selectSequence a id k) := by
  by_cases hid : userSetInRange id = true
  · have hseq : selectSequence a id k = writeSequence a (BitVec.ofInt 32 id) k := by
      funext s; simp only [selectSequence, writeSequence, hid, if_true]
    rw [hseq]; exact .writeFirst ..
  · have hseq : selectSequence a id k = issue (raiseError .outOfRange) := by
      funext s; simp only [selectSequence, hid, Bool.false_eq_true, if_false]
    rw [hseq]; exact .answer _ fun s => .raises _

/-- R211, R212: the id is looked at only when the select is asked for. -/
theorem meaning_selectOrWrite (f : Bool) (selector a v : Word) (id : Int) (k k' : HostTask) :
    Meaning fun s => if f then selectSequence selector id k s else writeSequence a v k' s := by
  cases f with
  | true => exact meaning_selectSequence selector id k
  | false => exact .writeFirst a v k'

theorem meaning_execChecksum (bytes : List Byte) : Meaning (execChecksum bytes) := by
  cases bytes with
  | nil => exact .answer (raiseError .emptyInput) fun _ => .raises _
  | cons b rest => exact .answer (complete (.byte (xorFold (b :: rest)))) fun _ => .completes _

theorem meaning_execParseBool (bytes : List Byte) : Meaning (execParseBool bytes) := by
  cases bytes with
  | nil => exact .answer (fun _ => .refused .parseBoolEmpty) fun _ => .refuses _
  | cons b rest => exact .answer (complete (.bool (decide (b = 1#8)))) fun _ => .completes _

/-- A form is at most 13 bytes long (R72). -/
theorem encode_frame_fits {i : Instr} (h : (encode i).ch = .frame) : (encode i).bytes.length ≤ Config.txBufBytes := by
  obtain ⟨r, k, e, hform⟩ := Instr.exists_isForm h
  rw [hform.bytes_eq, Request.frameWith_length hform.consistent]
  unfold addrBytesCount Config.txBufBytes
  split <;> split <;> split <;> omega

theorem meaning_of_frame {i : Instr} (h : (encode i).ch = .frame) : Meaning (exec i) := by
  obtain ⟨r, k, e, hform⟩ := Instr.exists_isForm h
  rw [hform.exec_eq]
  exact .form _ _ (encode_frame_fits h)

/-- Every instruction is of one of these kinds. -/
theorem meaning_exec (i : Instr) : Meaning (exec i) := by
  cases i with
  | ack => exact .reply _
  | nak => exact .reply _
  | data f p t => exact .reply _
  | rxIdleSof => exact .event _
  | rxIdleAck => exact .event _
  | rxIdleNak => exact .event _
  | rxIdleOther b => exact .event _
  | rxAwaitOverflow b => exact .event _
  | rxAwaitData b => exact .event _
  | rxAwaitEtx => exact .event _
  | rxAwaitEtxShort => exact .event _
  | rxTimeout => exact .event _
  | rxIoError => exact .event _
  | buildRead c n a o => exact .build n _ fun s => readFrame_fits s.params.addrWidthMode c n a o
  | buildWrite c n a o v => exact .build n _ fun s => writeFrame_fits s.params.addrWidthMode c n a o v
  | checksum bytes => exact meaning_execChecksum bytes
  | parseInt bytes => exact .answer _ fun s => .completes _
  | parseText bytes => exact .answer (fun s => complete (.bytes (parseText s.params bytes)) s) fun s => .completes _
  | parseBool bytes => exact meaning_execParseBool bytes
  | intToField v => exact .answer _ fun s => .completes _
  | mergeBool b0 b1 b2 b3 f => exact .answer _ fun s => .completes _
  | readExchange => exact .exchange _
  | writeExchange => exact .exchange _
  | opUnassigned code => exact .unassigned
  | readEnum a => exact .readFirst ..
  | readBool a => exact .readFirst ..
  | readInfo a => exact .readFirst ..
  | readString a => exact .readFirst ..
  | writeEnum a v => exact .writeFirst ..
  | writeBool a f => exact .readFirst ..
  | writeCommandReg a => exact .writeFirst ..
  | userSetSelect id => exact meaning_selectSequence ..
  | userSetDefaultSelect id => exact meaning_selectSequence ..
  | userSetLoad id f => exact meaning_selectOrWrite ..
  | userSetSave id f => exact meaning_selectOrWrite ..
  | userSetGetCurrent => exact .readFirst ..
  | userSetGetDefault => exact .readFirst ..
  | _ => exact meaning_of_frame rfl

/-! ### What no instruction changes -/

/-- The parameters and what is presented are the same. -/
def SameHost (s t : State) : Prop := t.params = s.params ∧ t.port = s.port

theorem SameHost.refl (s : State) : SameHost s s := ⟨rfl, rfl⟩

theorem SameHost.trans {s t u : State} (h : SameHost s t) (h' : SameHost t u) : SameHost s u :=
  ⟨h'.1.trans h.1, h'.2.trans h.2⟩

theorem SameLink.sameHost {s t : State} (h : SameLink s t) : SameHost s t := by
  obtain ⟨hparams, -, -, -, -, -, hport⟩ := h
  exact ⟨hparams, hport⟩

theorem receive_sameHost {e : RxEvent} {s t : State} (h : receive e s = .next t) : SameHost s t := by
  obtain ⟨r, -, -, -, hparams, -, -, -, hport⟩ := receive_link h
  exact ⟨hparams, hport⟩

theorem tick_sameHost {s t : State} (h : tick s = .next t) : SameHost s t := by
  refine ⟨?_, tick_port h⟩
  rcases tick_cases h with ⟨-, rfl⟩ | ⟨-, -, hsend⟩ | ⟨-, -, rfl⟩ | ⟨-, ⟨-, rfl⟩ | ⟨e, rest, -, hrecv⟩⟩
  · rfl
  · obtain ⟨b, -, ⟨-, rfl⟩ | ⟨rest, -, rfl⟩ | ⟨rest, -, rfl⟩⟩ := sendByte_cases hsend <;> rfl
  · rfl
  · rfl
  · exact (receive_sameHost hrecv).1

theorem drain_sameHost {s t : State} (h : drain s = .next t) : SameHost s t :=
  drainFor_keeps (P := SameHost s) (fun _ _ hu _ htick => hu.trans (tick_sameHost htick)) _ _ _ (.refl s) h

theorem startRead_drain_sameHost {n : Byte} {a : Word} {o : Byte} {k : HostTask} {s t : State}
    (h : (startRead n a o k s).andThen drain = .next t) : SameHost s t := by
  obtain ⟨u, hstart, hdrain⟩ := Res.andThen_eq_next.mp h
  exact (startRead_sameLink hstart).sameHost.trans (drain_sameHost hdrain)

theorem startWrite_drain_sameHost {a v : Word} {k : HostTask} {s t : State}
    (h : (startWrite a v k s).andThen drain = .next t) : SameHost s t := by
  obtain ⟨u, hstart, hdrain⟩ := Res.andThen_eq_next.mp h
  exact (startWrite_sameLink hstart).sameHost.trans (drain_sameHost hdrain)

theorem deliverReply_sameHost {bytes : List Byte} {s t : State} (h : deliverReply bytes s = .next t) : SameHost s t := by
  induction bytes generalizing s with
  | nil => cases h; exact .refl _
  | cons b bs ih =>
    obtain ⟨u, hrecv, hrest⟩ := Res.andThen_eq_next.mp h
    have hu := receive_sameHost hrecv
    split at hrest
    · cases hrest; exact hu
    · exact hu.trans (ih hrest)

theorem build_complete_sameHost {n : Byte} {bytes : List Byte} {r : OpResult} {s t : State}
    (h : build n bytes s (complete r) = .next t) : SameHost s t :=
  (build_sameLink (fun _ _ h => by cases h; simp [SameLink]) h).sameHost

/-- Taking an operation clears the last completion only. -/
theorem issue_sameHost {f : State → Res} {s t : State} (h : issue f s = .next t)
    (hf : ∀ u, f u = .next t → SameHost u t) : SameHost s t :=
  hf { s with done := none } (issue_eq_next.mp h).2

theorem presentFrame_sameHost {n : Byte} {bytes : List Byte} {s t : State} (h : presentFrame n bytes s = .next t) :
    SameHost s t :=
  issue_sameHost h fun u h => by
    split at h
    · cases h
    · split at h
      · cases h
      · exact build_complete_sameHost h

theorem runExchange_sameHost {k : HostTask} {s t : State} (h : runExchange k s = .next t) : SameHost s t :=
  issue_sameHost h fun u h => by
    split at h
    · cases h
    · exact drain_sameHost (s := beginExchange k u) h

theorem AnswersAtOnce.sameHost {s t : State} {r : Res} (hr : AnswersAtOnce s r) (h : r = .next t) : SameHost s t := by
  cases hr with
  | completes o => cases h; exact .refl s
  | raises k => cases h; exact .refl s
  | refuses e => cases h

theorem Meaning.sameHost {f : State → Res} (hf : Meaning f) {s t : State} (h : f s = .next t) : SameHost s t := by
  cases hf with
  | form n bytes => exact presentFrame_sameHost h
  | reply bytes => exact deliverReply_sameHost h
  | event e => exact receive_sameHost h
  | build n bytes => exact issue_sameHost h fun _ => build_complete_sameHost
  | answer f hf => exact issue_sameHost h fun u => (hf u).sameHost
  | exchange k => exact runExchange_sameHost h
  | readFirst a k => exact issue_sameHost h fun _ => startRead_drain_sameHost
  | writeFirst a v k => exact issue_sameHost h fun _ => startWrite_drain_sameHost
  | unassigned => cases h

/-- Settles O12: no meaning writes the parameters or what is presented, and a step takes at most one transaction away. -/
theorem parametersNeverChange : Obligations.ParametersNeverChange := by
  refine ⟨fun s t h => ?_, fun i s t h => (meaning_exec i).sameHost h⟩
  rcases step_cases s with ⟨before, tr, rest, i, hport, hstep⟩ | ⟨e, hstep⟩ | hstep <;> rw [hstep] at h
  · obtain ⟨hparams, hport'⟩ := (meaning_exec i).sameHost h
    exact ⟨hparams, .inr ⟨before, tr, rest, hport, hport'⟩⟩
  · cases h
  · obtain ⟨hparams, hport⟩ := tick_sameHost h
    exact ⟨hparams, .inl hport⟩

/-! ### No access leaves a buffer -/

/-- What every read and write of a buffer rests on (R26, R30, R168): TXB and RXB hold exactly the indexes below their counts. -/
def State.Readable (s : State) : Prop := s.params.wf = true ∧ s.txb.exactly s.txLen ∧ s.link.Inv s.params

/-- No fault, and a next state whose buffers are readable again. -/
def Res.Safe : Res → Prop
  | .next t => t.Readable
  | .fault _ => False
  | .refused _ => True

theorem Res.Safe.ne_fault {r : Res} (h : r.Safe) (e : Fault) : r ≠ .fault e := by
  rintro rfl; exact h

theorem Res.Safe.andThen {r : Res} {f : State → Res} (hr : r.Safe) (hf : ∀ s, s.Readable → (f s).Safe) :
    (r.andThen f).Safe := by
  cases r with
  | next s => exact hf s hr
  | fault e => exact hr
  | refused e => trivial

theorem issue_safe {f : State → Res} {s : State} (hs : s.Readable) (hf : ∀ s, s.Readable → (f s).Safe) :
    (issue f s).Safe := by
  unfold issue
  split
  · exact hf { s with done := none } hs
  · trivial

/-- R24: a build that fits TXB leaves exactly the frame in it. -/
theorem build_safe {n : Byte} {bytes : List Byte} {s : State} {f : State → Res} (hs : s.Readable)
    (hfits : bytes.length ≤ Config.txBufBytes) (hf : ∀ s, s.Readable → (f s).Safe) : (build n bytes s f).Safe := by
  obtain ⟨hparams, htxb, hlink⟩ := hs
  by_cases hn : n = 0#8
  · rw [hn, build_zero]; exact ⟨hparams, htxb, hlink⟩
  · rw [build_ok hn hfits]
    exact hf _ ⟨hparams, storeFrame_exactly (Memory.exactly_wf htxb), hlink⟩

theorem startRead_safe {s : State} (hs : s.Readable) (n : Byte) (a : Word) (o : Byte) (k : HostTask) :
    (startRead n a o k s).Safe :=
  build_safe hs (readFrame_fits ..) fun _ h => h

theorem startWrite_safe {s : State} (hs : s.Readable) (a v : Word) (k : HostTask) : (startWrite a v k s).Safe :=
  build_safe hs (writeFrame_fits ..) fun _ h => h

theorem startSecondPhase_safe {s : State} (hs : s.Readable) (z a : Word) (k : HostTask) :
    (startSecondPhase z a k s).Safe := by
  unfold startSecondPhase
  split
  · exact startRead_safe hs ..
  · exact hs

theorem resumeRead_safe {s : State} (hs : s.Readable) (k : HostTask) (p : List Byte) : (resumeRead k p s).Safe := by
  cases k with
  | infoSize a =>
    refine startSecondPhase_safe ?_ ..
    split <;> exact hs
  | stringSize a => exact startSecondPhase_safe hs ..
  | boolRead a f => exact startWrite_safe hs ..
  | readBool =>
    cases p with
    | nil => trivial
    | cons b rest => exact hs
  | _ => exact hs

theorem resumeWrite_safe {s : State} (hs : s.Readable) (k : HostTask) (ok : Bool) : (resumeWrite k ok s).Safe := by
  cases k with
  | selectThen c =>
    cases ok with
    | true => exact startWrite_safe hs ..
    | false => exact hs
  | _ => exact hs

theorem resolveRead_safe {s : State} (hs : s.Readable) (o : LinkOutcome) : (resolveRead o s).Safe := by
  cases o with
  | frameComplete p => exact resumeRead_safe (s := finishExchange s) hs ..
  | _ => exact hs

theorem resolveWrite_safe {s : State} (hs : s.Readable) (o : LinkOutcome) : (resolveWrite o s).Safe := by
  cases o with
  | acknowledged => exact resumeWrite_safe (s := finishExchange s) hs ..
  | negativeAcknowledged => exact resumeWrite_safe (s := finishExchange s) hs ..
  | _ => exact hs

theorem resolve_safe {s : State} (hs : s.Readable) (o : LinkOutcome) : (resolve o s).Safe := by
  unfold resolve
  split
  · exact hs
  · exact hs
  · exact resolveRead_safe hs o
  · exact resolveWrite_safe hs o

/-- R168: every event has a transition, and its bytes stay inside RXB. -/
theorem receive_safe {s : State} (hs : s.Readable) (e : RxEvent) : (receive e s).Safe := by
  obtain ⟨hparams, htxb, hlink⟩ := hs
  obtain ⟨r, hr⟩ := Link.step_total hparams hlink e
  have hprocess : (processEvent e s).Safe := by
    have hs' : State.Readable { s with link := r.link, lsmOut := r.outcome, diag := s.diag ++ r.diag.toList } :=
      ⟨hparams, htxb, Link.step_inv hlink hr⟩
    rw [processEvent_eq hr]
    split
    · exact hs'
    · exact resolve_safe hs' _
  unfold receive
  split
  · trivial
  · trivial
  · exact hprocess
  · exact hprocess

/-- R183: the byte on offer is there. -/
theorem sendByte_safe {s : State} (hs : s.Readable) (hi : s.txIdx < s.txLen) : (sendByte s).Safe := by
  obtain ⟨-, htxb, -⟩ := id hs
  obtain ⟨b, hb⟩ := Option.isSome_iff_exists.mp ((Memory.exactly_isSome htxb s.txIdx).mpr hi)
  rw [sendByte, memRead_one hb]
  dsimp only
  split
  · exact hs
  · exact hs
  · exact hs

theorem tick_safe {s : State} (hs : s.Readable) : (tick s).Safe := by
  have htake : (takeEvent s).Safe := by
    unfold takeEvent
    split
    · exact hs
    · rename_i e rest _; exact receive_safe (s := { s with rxQueue := rest }) hs e
  unfold tick
  split
  · exact hs
  · split
    · exact sendByte_safe hs ‹_›
    · exact hs
  · exact htake
  · exact htake

theorem drain_safe {s : State} (hs : s.Readable) : (drain s).Safe := by
  suffices h : ∀ n s, s.Readable → (drainFor n s).Safe from h _ s hs
  intro n
  induction n with
  | zero => exact fun s hs => hs
  | succ n ih =>
    intro s hs
    rw [drainFor_succ_eq]
    exact (tick_safe hs).andThen ih

theorem deliverReply_safe (bytes : List Byte) {s : State} (hs : s.Readable) : (deliverReply bytes s).Safe := by
  induction bytes generalizing s with
  | nil => exact hs
  | cons b bs ih =>
    refine (receive_safe hs _).andThen fun u hu => ?_
    split
    · exact hu
    · exact ih hu

theorem presentFrame_safe {n : Byte} {bytes : List Byte} {s : State} (hs : s.Readable)
    (hfits : bytes.length ≤ Config.txBufBytes) : (presentFrame n bytes s).Safe :=
  issue_safe hs fun u hu => by
    split
    · trivial
    · split
      · trivial
      · exact build_safe hu hfits fun _ h => h

theorem runExchange_safe (k : HostTask) {s : State} (hs : s.Readable) : (runExchange k s).Safe :=
  issue_safe hs fun u hu => by
    split
    · trivial
    · exact drain_safe (s := beginExchange k u) hu

theorem AnswersAtOnce.safe {s : State} {r : Res} (hr : AnswersAtOnce s r) (hs : s.Readable) : r.Safe := by
  cases hr with
  | completes o => exact hs
  | raises k => exact hs
  | refuses e => trivial

theorem Meaning.safe {f : State → Res} (hf : Meaning f) {s : State} (hs : s.Readable) : (f s).Safe := by
  cases hf with
  | form n bytes hfits => exact presentFrame_safe hs hfits
  | reply bytes => exact deliverReply_safe bytes hs
  | event e => exact receive_safe hs e
  | build n bytes hfits => exact issue_safe hs fun u hu => build_safe hu (hfits u) fun _ h => h
  | answer f hf => exact issue_safe hs fun u => (hf u).safe
  | exchange k => exact runExchange_safe k hs
  | readFirst a k => exact issue_safe hs fun u hu => (startRead_safe hu ..).andThen fun _ => drain_safe
  | writeFirst a v k => exact issue_safe hs fun u hu => (startWrite_safe hu ..).andThen fun _ => drain_safe
  | unassigned => trivial

theorem step_safe {s : State} (hs : s.Readable) : Res.Safe (step s) := by
  rcases step_cases s with ⟨before, tr, rest, i, -, hstep⟩ | ⟨e, hstep⟩ | hstep <;> rw [hstep]
  · exact (meaning_exec i).safe (s := { s with port := before ++ rest }) hs
  · trivial
  · exact tick_safe hs

theorem State.Inv.readable {s : State} (hs : s.Inv) : s.Readable := by
  obtain ⟨hparams, ⟨htxb, -, -⟩, hlink, -⟩ := hs
  exact ⟨hparams, htxb, hlink⟩

/-- Settles O11: a good state's buffers are readable, and every step and every instruction is safe from there. -/
theorem goodStatesNeverFault : Obligations.GoodStatesNeverFault :=
  ⟨fun _ hs e => (step_safe hs.readable).ne_fault e,
    fun i _ e hs => Res.Safe.ne_fault ((meaning_exec i).safe hs.readable) e⟩

end Sys2Proof.Machine
end

section
/-! PROOFS. The device's memory map (20_memory.md): sending a request leaves the frame and the receive side alone (R65, 44_exchange.md
R183), and the wire address is a sum that carries nothing out of the low byte (R60). -/

namespace Sys2Proof.Machine

/-! ### Sending -/

/-- While a request is being sent nothing that is presented is taken (R23, R183). -/
theorem step_of_sending {s : State} (h : s.xchg = .sending) : step s = tick s :=
  step_of_accepts_none fun u _ => by simp [accepts, h]

/-- Settles O13: a step from Sending is one turn of the send loop, and each way a turn can go writes none of these fields. -/
theorem sendingStepLeavesFrameAndReceiveSide : Obligations.SendingStepLeavesFrameAndReceiveSide := by
  intro s t hx h
  rw [step_of_sending hx] at h
  rcases tick_cases h with ⟨hfree, -⟩ | ⟨-, -, hsend⟩ | ⟨-, -, rfl⟩ | ⟨hread | hwrite, -⟩
  · cases hx.symm.trans hfree
  · obtain ⟨b, -, ⟨-, rfl⟩ | ⟨rest, -, rfl⟩ | ⟨rest, -, rfl⟩⟩ := sendByte_cases hsend <;> simp
  · simp
  · cases hx.symm.trans hread
  · cases hx.symm.trans hwrite

/-! ### The wire address as a number -/

theorem addrLow_toNat (base : Word) (off : Byte) : (addrLow base off).toNat = (base.toNat % 256 + off.toNat) % 256 := by
  simp [addrLow]

/-- R60: the upper three bytes are the base address's, the low byte is the sum modulo 256. -/
theorem wireAddress_toNat (base : Word) (off : Byte) :
    (wireAddress base off).toNat = base.toNat / 256 * 256 + (base.toNat % 256 + off.toNat) % 256 := by
  have hlow : (wireAddress base off).toNat % 256 = (base.toNat % 256 + off.toNat) % 256 := by
    have h := congrArg BitVec.toNat (extractLsb'_wireAddress_low base off)
    rwa [addrLow_toNat, BitVec.extractLsb'_toNat, Nat.shiftRight_zero] at h
  have hhigh : (wireAddress base off).toNat / 256 = base.toNat / 256 := by
    have h := congrArg BitVec.toNat (extractLsb'_wireAddress_high base off 24 (i := 8) (by omega))
    simp only [BitVec.extractLsb'_toNat, Nat.shiftRight_eq_div_pow] at h
    omega
  omega

/-- R60: a carry out of the low byte is what sets the wire address apart from the sum. -/
theorem wireAddress_eq_add_iff (base : Word) (off : Byte) :
    wireAddress base off = base + off.setWidth 32 ↔ base.toNat % 256 + off.toNat ≤ 255 := by
  rw [← BitVec.toNat_inj, wireAddress_toNat, BitVec.toNat_add, BitVec.toNat_setWidth]
  omega

/-- No field of a device address of R58 carries: their low bytes are at most 0x80 and the offsets 4 and 8 (R59). -/
theorem namedAddress_low_add_offset_le :
    ∀ base ∈ [Config.userSetSelector, Config.userSetLoadCommand, Config.userSetSaveCommand, Config.defaultUserSetSelector,
        Config.defaultUserSetOverride, Config.tapGeometry],
      ∀ off ∈ [Config.fieldOffset, Config.valueOffset], base.toNat % 256 + off.toNat ≤ 255 := by simp

/-- The address field as a number: the wire address, or its low 16 bits in the short form (R60, R76). -/
theorem leValue_addrBytes (base : Word) (off : Byte) (ext : Bool) :
    leValue (addrBytes base off ext) =
      if ext then (wireAddress base off).toNat else (wireAddress base off).toNat % 65536 := by
  cases ext with
  | true => simp [addrBytes_ext, leValue_leBytes4]
  | false => simp [addrBytes_short, leValue_leBytes2]

end Sys2Proof.Machine

namespace Sys2Proof

/-- Behind the length byte of a build's frame stands the address field (R70). -/
theorem requestOf_bytes_take_address (mode : AddrWidthMode) (cks : Bool) (n : Byte) (base : Word) (off : Byte)
    (value : Option Word) :
    ((requestOf mode cks n base off value).bytes.drop 3).take
        (Machine.addrBytesCount (Machine.addrExt mode base)) =
      Machine.addrBytes base off (Machine.addrExt mode base) := by
  rw [Request.bytes, Request.frameWith_drop_three, requestOf_addrField]
  exact List.take_left' (Machine.addrBytes_length ..)

/-- A build's frame carries the wire address, in the width its mode and the base address select (R60, R102). -/
theorem requestOf_carries_wireAddress (mode : AddrWidthMode) (cks : Bool) (n : Byte) (base : Word) (off : Byte)
    (value : Option Word) :
    if mode = .intended ∧ 65536 ≤ base.toNat then
      Machine.leValue (((requestOf mode cks n base off value).bytes.drop 3).take 4) = (Machine.wireAddress base off).toNat
    else
      Machine.leValue (((requestOf mode cks n base off value).bytes.drop 3).take 2) =
        (Machine.wireAddress base off).toNat % 65536 := by
  have hfield := congrArg Machine.leValue (requestOf_bytes_take_address mode cks n base off value)
  rw [Machine.leValue_addrBytes] at hfield
  split
  case isTrue hx => rwa [Machine.addrExt_eq_true_iff.mpr hx] at hfield
  case isFalse hx => rwa [Bool.eq_false_iff.mpr (mt Machine.addrExt_eq_true_iff.mp hx)] at hfield

end Sys2Proof

namespace Sys2Proof.Machine

/-- Settles O20: by the two parts of the wire address as numbers, and the address field of the request each build encodes. -/
theorem wireAddressIsTheSumWithoutCarry : Obligations.WireAddressIsTheSumWithoutCarry := by
  refine ⟨fun base off => ⟨wireAddress_toNat base off, wireAddress_eq_add_iff base off⟩, fun base hbase off hoff => ?_,
    fun mode cks n base off value f hf => ?_⟩
  · exact (wireAddress_eq_add_iff base off).mpr (namedAddress_low_add_offset_le base hbase off hoff)
  · simp only [List.mem_cons, List.not_mem_nil, or_false] at hf
    rcases hf with rfl | rfl
    · rw [readFrame_eq_bytes]; exact requestOf_carries_wireAddress ..
    · rw [writeFrame_eq_bytes]; exact requestOf_carries_wireAddress ..

end Sys2Proof.Machine
end

section
/-! PROOFS. Encoding (30_encoding.md): the decoder undoes the encoder and accepts only what it writes, channel by channel (R72, R80,
R81, R83, R90). -/

namespace Sys2Proof

/-! ### Operand bytes -/

/-- R13, R76: two little-endian bytes of a short address give it back. -/
@[simp] theorem word16_extractLsb' (a : BitVec 16) : word16 (a.extractLsb' 0 8) (a.extractLsb' 8 8) = a := by
  apply BitVec.eq_of_toNat_eq
  have h := Machine.leValue_leBytes2 a
  simp only [Machine.leBytes2] at h
  rw [word16, h, BitVec.ofNat_toNat, BitVec.setWidth_eq]

/-- R13, R77: so do the four bytes of a word. -/
@[simp] theorem word32_extractLsb' (a : Word) :
    word32 (a.extractLsb' 0 8) (a.extractLsb' 8 8) (a.extractLsb' 16 8) (a.extractLsb' 24 8) = a := by
  have h := Machine.leValue_leBytes4 a
  simp only [Machine.leBytes4] at h
  rw [word32, h, BitVec.ofNat_toNat, BitVec.setWidth_eq]

@[simp] theorem leBytes2_word16 (b0 b1 : Byte) : Machine.leBytes2 (word16 b0 b1) = [b0, b1] := by
  simp only [Machine.leBytes2, word16, Machine.leValue, List.cons.injEq, and_true]
  constructor <;> apply BitVec.eq_of_toNat_eq <;>
    simp only [BitVec.extractLsb'_toNat, BitVec.toNat_ofNat, Nat.shiftRight_eq_div_pow] <;> omega

@[simp] theorem leBytes4_word32 (b0 b1 b2 b3 : Byte) : Machine.leBytes4 (word32 b0 b1 b2 b3) = [b0, b1, b2, b3] := by
  simp only [Machine.leBytes4, word32, Machine.leValue, List.cons.injEq, and_true]
  refine ⟨?_, ?_, ?_, ?_⟩ <;> apply BitVec.eq_of_toNat_eq <;>
    simp only [BitVec.extractLsb'_toNat, BitVec.toNat_ofNat, Nat.shiftRight_eq_div_pow] <;> omega

@[simp] theorem decodeFlag_encodeFlag (f : Bool) : decodeFlag (encodeFlag f) = .ok f := by
  cases f <;> rfl

/-- A boolean operand has one byte (log 10). -/
theorem decodeFlag_eq_ok {b : Byte} {f : Bool} : decodeFlag b = .ok f ↔ b = encodeFlag f := by
  refine ⟨fun h => ?_, fun h => h ▸ decodeFlag_encodeFlag f⟩
  unfold decodeFlag at h
  split at h
  · cases h; assumption
  · split at h
    · cases h; assumption
    · cases h

/-- An operation with a boolean operand decodes exactly behind that boolean's byte. -/
theorem decodeFlag_map_eq_ok {b : Byte} {g : Bool → Instr} {i : Instr} :
    (decodeFlag b).map g = .ok i ↔ ∃ f, b = encodeFlag f ∧ g f = i := by
  simp only [← decodeFlag_eq_ok]
  cases decodeFlag b <;> simp [Except.map]

/-- A UserSetId of 32 bits survives two's complement (log 21). -/
theorem toInt_ofInt_of_mem_range {id : Int} (h : (decide (-2147483648 ≤ id) && decide (id < 2147483648)) = true) :
    (BitVec.ofInt 32 id).toInt = id := by
  simp only [Bool.and_eq_true, decide_eq_true_eq] at h
  obtain ⟨hlow, hhigh⟩ := h
  exact BitVec.toInt_ofInt_eq_self (by omega) hlow hhigh

@[simp] theorem encodeId_decodeId (b0 b1 b2 b3 : Byte) : encodeId (decodeId b0 b1 b2 b3) = [b0, b1, b2, b3] := by
  rw [encodeId, decodeId, BitVec.ofInt_toInt, leBytes4_word32]

theorem byte_eq_ofNat_of_toNat_eq {b : Byte} {n : Nat} (h : b.toNat = n) : b = BitVec.ofNat 8 n := by
  rw [← h, BitVec.ofNat_toNat, BitVec.setWidth_eq]

/-! ### Request frames and replies -/

/-- R93: the form is found by the flags byte, and each field at its byte index. -/
theorem decodeFrame_encode {i : Instr} (h : (encode i).ch = .frame) : decodeFrame (encode i).bytes = .ok i := by
  cases i with
  | rdS | rdSC | rdX | rdXC | wrS | wrSC | wrX | wrXC =>
    simp [encode, decodeFrame, Machine.leBytes2, Machine.leBytes4]
  | _ => simp [encode, encodeEvent] at h

/-- A form is accepted with exactly its number of bytes, and each byte is a byte of a field. -/
theorem encode_of_decodeFrame {bytes : List Byte} {i : Instr} (h : decodeFrame bytes = .ok i) :
    encode i = ⟨.frame, bytes⟩ := by
  unfold decodeFrame at h
  split at h
  · cases h
  · cases h
  · rename_i start flags rest
    split at h
    case isFalse => cases h
    case isTrue hstart =>
      subst hstart
      split at h <;> rename_i hflags
      case h_9 => cases h
      all_goals
        obtain rfl := byte_eq_ofNat_of_toNat_eq hflags
        split at h
        · cases h; simp [encode]
        · cases h

theorem decodeReply_encode {i : Instr} (h : (encode i).ch = .reply) (hwf : i.wf = true) :
    decodeReply (encode i).bytes = .ok i := by
  cases i with
  | ack | nak => rfl
  | data f payload trailing =>
    have hlen : payload.length % 256 = payload.length := by
      have : payload.length ≤ 255 := by simpa [Instr.wf] using hwf
      omega
    have hlast : (payload ++ (trailing ++ [Config.eof])).getLast? = some Config.eof := by simp
    simp [encode, decodeReply, hlen, hlast]
  | _ => simp [encode, encodeEvent] at h

/-- A data frame's body is the payload that the length byte cuts off, the trailing bytes and the end marker. -/
theorem encode_data_of_body (flags : Byte) {n : Byte} {body : List Byte} (hlen : n.toNat < body.length)
    (hlast : body.getLast? = some Config.eof) :
    encode (.data flags (body.take n.toNat) (body.drop n.toNat).dropLast) =
      ⟨.reply, Config.sof :: flags :: n :: body⟩ := by
  have hn : BitVec.ofNat 8 (body.take n.toNat).length = n := by
    rw [List.length_take_of_le hlen.le, BitVec.ofNat_toNat, BitVec.setWidth_eq]
  have htail : (body.drop n.toNat).dropLast ++ [Config.eof] = body.drop n.toNat :=
    List.dropLast_append_getLast? _ (by rw [List.getLast?_drop, if_neg (by omega)]; exact hlast)
  rw [encode, hn, htail, List.take_append_drop]

/-- R81: the length byte cuts the payload off, the end marker is the last byte, and the trailing bytes stand between. -/
theorem encode_of_decodeReply {bytes : List Byte} {i : Instr} (h : decodeReply bytes = .ok i) :
    encode i = ⟨.reply, bytes⟩ := by
  unfold decodeReply at h
  split at h
  · cases h
  · rename_i b
    split at h
    · cases h; subst b; rfl
    · split at h
      · cases h; subst b; rfl
      · cases h
  · rename_i start flags rest
    split at h
    case isFalse => cases h
    case isTrue hstart =>
      subst hstart
      split at h
      · cases h
      · rename_i n body
        split at h
        · rename_i hbody
          obtain ⟨hlen, hlast⟩ := hbody
          cases h
          exact encode_data_of_body flags hlen hlast
        · cases h

/-! ### Operations and the host layer -/

/-- R90: the codes 0xA to 0xF. -/
theorem decodeOp_unassigned :
    ∀ code : BitVec 4, 10 ≤ code.toNat → decodeOp [code.setWidth 8] = .ok (.opUnassigned code) := by decide

/-- A select code has four bits. -/
theorem setWidth_ofNat_toNat {code : Byte} (h : code.toNat < 16) : (BitVec.ofNat 4 code.toNat).setWidth 8 = code := by
  apply BitVec.eq_of_toNat_eq
  rw [BitVec.toNat_setWidth, BitVec.toNat_ofNat]
  omega

theorem decodeOp_encode {i : Instr} (h : (encode i).ch = .op) (hwf : i.wf = true) :
    decodeOp (encode i).bytes = .ok i := by
  cases i with
  | buildRead | buildWrite | intToField | mergeBool => simp [encode, decodeOp, Machine.leBytes4, Except.map]
  | checksum | parseInt | parseText | parseBool | readExchange | writeExchange => rfl
  | opUnassigned code => exact decodeOp_unassigned code (by simpa [Instr.wf] using hwf)
  | _ => simp [encode, encodeEvent] at h

/-- A code fixes the first byte, and the operand bytes behind it are those of the operands. -/
theorem encode_of_decodeOp {bytes : List Byte} {i : Instr} (h : decodeOp bytes = .ok i) :
    encode i = ⟨.op, bytes⟩ := by
  unfold decodeOp at h
  split at h
  · cases h
  · rename_i code ops
    split at h <;> rename_i hcode
    case h_11 =>
      split at h
      · rename_i hlt
        split at h
        · cases h; subst ops
          rw [encode, setWidth_ofNat_toNat hlt]
        · cases h
      · cases h
    all_goals obtain rfl := byte_eq_ofNat_of_toNat_eq hcode
    case h_1 | h_2 | h_8 =>
      split at h
      · obtain ⟨f, rfl, rfl⟩ := decodeFlag_map_eq_ok.mp h; simp [encode]
      · cases h
    case h_3 | h_4 | h_5 | h_6 => cases h; rfl
    case h_7 =>
      split at h
      · cases h; simp [encode]
      · cases h
    case h_9 | h_10 =>
      split at h
      · cases h; subst ops; rfl
      · cases h

theorem decodeHost_encode {i : Instr} (h : (encode i).ch = .host) (hwf : i.wf = true) :
    decodeHost (encode i).bytes = .ok i := by
  cases i with
  | readEnum | readBool | readInfo | readString | writeEnum | writeBool | writeCommandReg =>
    simp [encode, decodeHost, Machine.leBytes4, Except.map]
  | userSetSelect | userSetDefaultSelect | userSetLoad | userSetSave =>
    simp [encode, decodeHost, encodeId, decodeId, Machine.leBytes4, Except.map, toInt_ofInt_of_mem_range hwf]
  | userSetGetCurrent | userSetGetDefault => rfl
  | _ => simp [encode, encodeEvent] at h

/-- As for the operations, with the codes of R92 (log 10). -/
theorem encode_of_decodeHost {bytes : List Byte} {i : Instr} (h : decodeHost bytes = .ok i) :
    encode i = ⟨.host, bytes⟩ := by
  unfold decodeHost at h
  split at h
  · cases h
  · rename_i code ops
    split at h <;> rename_i hcode
    case h_14 => cases h
    all_goals obtain rfl := byte_eq_ofNat_of_toNat_eq hcode
    case h_1 | h_2 | h_3 | h_4 | h_5 | h_7 | h_8 | h_9 =>
      split at h
      · cases h; simp [encode]
      · cases h
    case h_6 | h_10 | h_11 =>
      split at h
      · obtain ⟨f, rfl, rfl⟩ := decodeFlag_map_eq_ok.mp h; simp [encode]
      · cases h
    case h_12 | h_13 =>
      split at h
      · cases h; subst ops; rfl
      · cases h

/-! ### Receive events -/

theorem decodeEvent_encodeEvent (e : RxEvent) : decodeEvent (encodeEvent e).bytes = .ok e := by
  cases e <;> rfl

theorem encodeEvent_of_decodeEvent {bytes : List Byte} {e : RxEvent} (h : decodeEvent bytes = .ok e) :
    encodeEvent e = ⟨.rx, bytes⟩ := by
  unfold decodeEvent at h
  split at h
  · cases h
  · split at h
    · cases h; subst_vars; rfl
    · split at h
      · cases h; subst_vars; rfl
      · cases h
  · split at h
    · cases h; subst_vars; rfl
    · cases h
  · cases h

/-- An event's transaction names it. -/
theorem encodeEvent_injective : Function.Injective encodeEvent := by
  intro e e' h
  have hdecode := decodeEvent_encodeEvent e
  rw [h, decodeEvent_encodeEvent] at hdecode
  exact (Except.ok.inj hdecode).symm

/-- The event that a row of the RX channel stands for (R153). -/
def Instr.event : Instr → Option RxEvent
  | .rxIdleSof => some (.byte Config.sof)
  | .rxIdleAck => some (.byte Config.ack)
  | .rxIdleNak => some (.byte Config.nak)
  | .rxIdleOther b | .rxAwaitOverflow b | .rxAwaitData b => some (.byte b)
  | .rxAwaitEtx | .rxAwaitEtxShort => some (.byte Config.eof)
  | .rxTimeout => some .timeout
  | .rxIoError => some .ioError
  | _ => none

theorem Instr.exists_event {i : Instr} (h : (encode i).ch = .rx) : ∃ e, i.event = some e ∧ encode i = encodeEvent e := by
  cases i with
  | rxIdleSof | rxIdleAck | rxIdleNak | rxIdleOther | rxAwaitOverflow | rxAwaitData | rxAwaitEtx | rxAwaitEtxShort
  | rxTimeout | rxIoError => exact ⟨_, rfl, rfl⟩
  | _ => simp [encode] at h

theorem Instr.event_of_encode {i : Instr} {e : RxEvent} (h : encode i = encodeEvent e) : i.event = some e := by
  have hch : (encode i).ch = .rx := by rw [h]; cases e <;> rfl
  obtain ⟨e', hevent, henc⟩ := i.exists_event hch
  rw [hevent, encodeEvent_injective (henc.symm.trans h)]

/-- The byte's row is a row of that byte, and its condition on the state holds. -/
theorem classifyByte_row (c : RxCtx) (b : Byte) :
    encode (classifyByte c b) = encodeEvent (.byte b) ∧ (classifyByte c b).wf = true ∧
      (classifyByte c b).admitted c = true := by
  unfold classifyByte
  split_ifs <;> simp_all [encode, Instr.wf, Instr.admitted, or_iff_not_imp_left]

/-- The conditions of the rows exclude each other. -/
theorem classify_of_event {c : RxCtx} {i : Instr} {e : RxEvent} (he : i.event = some e) (hwf : i.wf = true)
    (hadm : i.admitted c = true) : classify c e = i := by
  cases i with
  | rxIdleSof | rxIdleAck | rxIdleNak | rxIdleOther | rxAwaitOverflow | rxAwaitData | rxAwaitEtx | rxAwaitEtxShort =>
    cases he
    simp_all [classify, classifyByte, Instr.wf, Instr.admitted, or_iff_not_imp_left]
  | rxTimeout | rxIoError => cases he; rfl
  | _ => cases he

/-- R83: the row of an event in a state is the one well-formed row of that event that the state admits. -/
theorem classify_eq_iff {c : RxCtx} {e : RxEvent} {i : Instr} :
    classify c e = i ↔ encode i = encodeEvent e ∧ i.wf = true ∧ i.admitted c = true := by
  constructor
  · rintro rfl
    cases e with
    | timeout | ioError => exact ⟨rfl, rfl, rfl⟩
    | byte b => exact classifyByte_row c b
  · rintro ⟨henc, hwf, hadm⟩
    exact classify_of_event (Instr.event_of_encode henc) hwf hadm

/-! ### The decoder and the encoder -/

/-- Only a receive event's row asks for a state. -/
theorem Instr.admitted_of_ch_ne_rx {i : Instr} (h : (encode i).ch ≠ .rx) (c : RxCtx) : i.admitted c = true := by
  cases i with
  | rxIdleSof | rxIdleAck | rxIdleNak | rxIdleOther | rxAwaitOverflow | rxAwaitData | rxAwaitEtx | rxAwaitEtxShort =>
    exact absurd rfl h
  | _ => rfl

/-- Settles O1, channel by channel: each decoder undoes the encoder, and a receive event is classified as the row it is of. -/
theorem decodeOfEncodeIsTheInstruction : Obligations.DecodeOfEncodeIsTheInstruction := by
  intro c i hwf hadm
  unfold decode
  split
  case h_1 hch => exact decodeOp_encode hch hwf
  case h_2 hch => exact decodeHost_encode hch hwf
  case h_3 hch => exact decodeFrame_encode hch
  case h_4 hch => exact decodeReply_encode hch hwf
  case h_5 hch =>
    obtain ⟨e, -, henc⟩ := i.exists_event hch
    rw [henc, decodeEvent_encodeEvent]
    exact congrArg Except.ok (classify_eq_iff.mpr ⟨henc, hwf, hadm⟩)

/-- Settles O2, channel by channel: what a decoder accepts is the encoder's transaction, and the row of an event is admitted. -/
theorem acceptedTransactionReencodesToItself : Obligations.AcceptedTransactionReencodesToItself := by
  rintro c ⟨ch, bytes⟩ i h
  have stateless (hch : ch ≠ .rx) (henc : encode i = ⟨ch, bytes⟩) : encode i = ⟨ch, bytes⟩ ∧ i.admitted c = true :=
    ⟨henc, Instr.admitted_of_ch_ne_rx (by rwa [henc]) c⟩
  cases ch with
  | op => exact stateless nofun (encode_of_decodeOp h)
  | host => exact stateless nofun (encode_of_decodeHost h)
  | frame => exact stateless nofun (encode_of_decodeFrame h)
  | reply => exact stateless nofun (encode_of_decodeReply h)
  | rx =>
    cases hevent : decodeEvent bytes with
    | error e => simp [decode, hevent, Except.map] at h
    | ok e =>
      have hrow : classify c e = i := by simpa [decode, hevent, Except.map] using h
      obtain ⟨henc, -, hadm⟩ := classify_eq_iff.mp hrow
      exact ⟨henc.trans (encodeEvent_of_decodeEvent hevent), hadm⟩

/-- Settles O5: the one row is what the byte is classified as. -/
theorem receivedByteHasExactlyOneRow : Obligations.ReceivedByteHasExactlyOneRow :=
  fun c b => ⟨classify c (.byte b), classify_eq_iff.mp rfl, fun _ h => (classify_eq_iff.mpr h).symm⟩

/-- Settles O3: the decoder run on each of the words. -/
theorem writtenOutWordsDecode : Obligations.WrittenOutWordsDecode := by
  unfold Obligations.WrittenOutWordsDecode
  decide

/-! ### The frames of the builds -/

/-- R76: the low 16 bits of an address. -/
theorem setWidth_setWidth_eq_and (a : Word) : (a.setWidth 16).setWidth 32 = a &&& 0x0000FFFF#32 := by
  apply BitVec.eq_of_toNat_eq
  have hmask : a.toNat &&& (0x0000FFFF#32).toNat = a.toNat % 2 ^ 16 := Nat.and_two_pow_sub_one_eq_mod a.toNat 16
  rw [BitVec.toNat_and, BitVec.toNat_setWidth, BitVec.toNat_setWidth, hmask]
  omega

/-- Settles O4: request_decode gives back the request that a build encodes, whose short form carries the low 16 bits. -/
theorem requestDecodeRecoversBuiltFields : Obligations.RequestDecodeRecoversBuiltFields := by
  intro mode cks n base off value hn ext wire
  have hext : Machine.addrExt mode base = ext := by
    rw [Bool.eq_iff_iff, Machine.addrExt_eq_true_iff, decide_eq_true_iff]
  have hrequest (v : Option Word) : requestOf mode cks n base off v = ⟨v.isNone, cks, ext, n, wire, v⟩ := by
    simp only [requestOf, hext, setWidth_setWidth_eq_and, wire]
  rw [readFrame_eq_bytes, writeFrame_eq_bytes, requestDecode_requestOf mode cks hn, requestDecode_requestOf mode cks hn,
    hrequest, hrequest]
  exact ⟨rfl, rfl⟩

/-- R72, R93: the frame of a request, with any checksum byte and end marker, is what the encoder writes for one of the forms. -/
theorem Request.exists_encode {r : Request} (h : r.Consistent) (k e : Byte) :
    ∃ i, encode i = ⟨.frame, r.frameWith k e⟩ := by
  obtain ⟨read, cks, ext, n, a, value⟩ := r
  obtain ⟨hread, hshort⟩ := h
  obtain rfl : read = value.isNone := hread
  cases ext with
  | true =>
    cases value with
    | none =>
      cases cks with
      | false => exact ⟨.rdX n a e, by simp [encode, frameBody, flagsPack_table]⟩
      | true => exact ⟨.rdXC n a k e, by simp [encode, frameBody, flagsPack_table]⟩
    | some v =>
      cases cks with
      | false => exact ⟨.wrX n a v e, by simp [encode, frameBody, flagsPack_table]⟩
      | true => exact ⟨.wrXC n a v k e, by simp [encode, frameBody, flagsPack_table]⟩
  | false =>
    obtain ⟨a', ha⟩ := hshort rfl
    obtain rfl : a = a'.setWidth 32 := ha
    cases value with
    | none =>
      cases cks with
      | false => exact ⟨.rdS n a' e, by simp [encode, frameBody, flagsPack_table]⟩
      | true => exact ⟨.rdSC n a' k e, by simp [encode, frameBody, flagsPack_table]⟩
    | some v =>
      cases cks with
      | false => exact ⟨.wrS n a' v e, by simp [encode, frameBody, flagsPack_table]⟩
      | true => exact ⟨.wrSC n a' v k e, by simp [encode, frameBody, flagsPack_table]⟩

/-- The frame of a build decodes to a well-formed form, which presents it. -/
theorem exists_form_requestOf (mode : AddrWidthMode) (cks : Bool) {n : Byte} (hn : n ≠ 0#8) (base : Word) (off : Byte)
    (value : Option Word) :
    ∃ i, decodeFrame (requestOf mode cks n base off value).bytes = .ok i ∧ i.wf = true ∧
      Machine.exec i = Machine.presentFrame n (requestOf mode cks n base off value).bytes := by
  obtain ⟨i, henc⟩ := Request.exists_encode (requestOf_consistent mode cks n base off value)
    (Machine.xorFold (requestOf mode cks n base off value).body) Config.eof
  have hbytes : (encode i).bytes = (requestOf mode cks n base off value).bytes := by rw [henc]; rfl
  have hch : (encode i).ch = .frame := by rw [henc]
  obtain ⟨r, k, e, hform⟩ := Instr.exists_isForm hch
  have hdecode := requestDecode_requestOf mode cks hn base off value
  rw [← hbytes, hform.requestDecode_eq] at hdecode
  have hwf : i.wf = true := by
    by_contra hwf
    rw [if_neg hwf] at hdecode
    cases hdecode
  rw [if_pos hwf] at hdecode
  obtain rfl : r = requestOf mode cks n base off value := Option.some.inj hdecode
  exact ⟨i, hbytes ▸ decodeFrame_encode hch, hwf, hbytes ▸ hform.exec_eq⟩

end Sys2Proof

namespace Sys2Proof.Machine

/-- In every state, presenting a frame that a build of its mode makes is that build: both are refused with an exchange in flight,
and store the frame with none (R23; log 16, log 17). -/
theorem presentFrame_eq_build {n : Byte} {bytes : List Byte} {s : State}
    (hb : builtRequest s.params.addrWidthMode bytes ≠ none) :
    presentFrame n bytes s = issue (fun s' => build n bytes s' (complete .none)) s := by
  by_cases hs : s.xchg = .free
  · rw [presentFrame_built hs hb, issue_free hs]
  · rw [presentFrame, issue_busy hs, issue_busy hs]

/-- The form that a build's frame decodes to does what the build does in its mode. -/
theorem exists_form_of_build (mode : AddrWidthMode) (cks : Bool) {n : Byte} (hn : n ≠ 0#8) (base : Word) (off : Byte)
    (value : Option Word) :
    let bytes := (requestOf mode cks n base off value).bytes
    ∃ i, decodeFrame bytes = .ok i ∧ i.wf = true ∧
      ∀ s : State, s.params.addrWidthMode = mode → issue (fun s' => build n bytes s' (complete .none)) s = exec i s := by
  obtain ⟨i, hdecode, hwf, hexec⟩ := exists_form_requestOf mode cks hn base off value
  refine ⟨i, hdecode, hwf, fun s hmode => ?_⟩
  rw [hexec, presentFrame_eq_build]
  rw [hmode, builtRequest_requestOf mode cks hn]
  exact nofun

/-- Settles O23: a build of the mode in force stores the request's frame, which is what the frame's form does. -/
theorem buildIsPresentingItsForm : Obligations.BuildIsPresentingItsForm := by
  intro mode cks n base off value hn
  rw [readFrame_eq_bytes, writeFrame_eq_bytes]
  obtain ⟨i, hread, hreadWf, hreadExec⟩ := exists_form_of_build mode cks hn base off none
  obtain ⟨j, hwrite, hwriteWf, hwriteExec⟩ := exists_form_of_build mode cks hn base off (some value)
  refine ⟨⟨i, hread, hreadWf, fun s hmode => ?_⟩, ⟨j, hwrite, hwriteWf, fun s hmode => ?_⟩⟩
  · rw [← hreadExec s hmode, ← readFrame_eq_bytes, ← hmode]; rfl
  · rw [← hwriteExec s hmode, ← writeFrame_eq_bytes, ← hmode]; rfl

end Sys2Proof.Machine
end

section
/-! PROOFS. Reassembling a reply data frame (30_encoding.md R81, R82, R84; 43_link_state_machine.md R154, R159, R160, R169): what RXB
holds after each byte, and where the frame ends. -/

namespace Sys2Proof.Machine

/-! ### What the link state machine holds -/

/-- RXB holds exactly these bytes, counted, with the length byte captured once it is among them (R29, R30, R31). -/
structure Link.Holds (l : Link) (bytes : List Byte) : Prop where
  count    : l.rxCount = bytes.length
  read     : ∀ k, l.rxb.read k = bytes[k]?
  captured : l.expected = bytes[Config.lenIndex]?

theorem Link.expected_eq_some {l : Link} {n : Byte} : l.expected = some n ↔ l.rxLenValid = true ∧ l.rxLen = n := by
  unfold Link.expected
  split <;> simp_all

/-- A buffer that reads as these bytes gives every slice of them. -/
theorem Memory.readAll_of_read {m : Memory} {bytes : List Byte} (h : ∀ k, m.read k = bytes[k]?) {i n : Nat}
    (hn : i + n ≤ bytes.length) : m.readAll i n = some ((bytes.drop i).take n) := by
  rw [Memory.readAll_eq_some]
  refine ⟨by simp; omega, fun k hk => ?_⟩
  rw [h, List.getElem_take, List.getElem_drop]
  exact List.getElem?_eq_getElem _

/-- The host's reads show the bytes, nothing above them, and the length byte (R21, R30). -/
theorem Link.Holds.readAll {l : Link} {bytes : List Byte} (h : l.Holds bytes) : l.rxb.readAll 0 l.rxCount = some bytes := by
  have hread := Memory.readAll_of_read h.read (i := 0) (Nat.zero_add bytes.length).le
  rwa [List.drop_zero, List.take_length, ← h.count] at hread

theorem Link.Holds.read_none {l : Link} {bytes : List Byte} (h : l.Holds bytes) {k : Nat} (hk : l.rxCount ≤ k) :
    l.rxb.read k = none := by
  rw [h.read, List.getElem?_eq_none (h.count ▸ hk)]

theorem Link.Holds.readLen {l : Link} {bytes : List Byte} (h : l.Holds bytes) {n : Byte}
    (hn : bytes[Config.lenIndex]? = some n) : l.readLen = .ok n := by
  obtain ⟨hvalid, rfl⟩ := Link.expected_eq_some.mp (h.captured.trans hn)
  rw [Link.readLen, if_pos hvalid]

/-- An accepted start marker is all that is held (R154). -/
theorem Link.acceptSof_holds {p : Params} (hp : 1 ≤ p.rxBufBytes) (l : Link) :
    ∃ l', l.acceptSof p = .ok ⟨l', none, none⟩ ∧ l'.rxState = .awaitingEnd ∧ l'.Holds [Config.sof] := by
  refine ⟨_, Link.acceptSof_ok_iff.mpr ⟨hp, rfl⟩, rfl, rfl, fun k => ?_, rfl⟩
  rw [Memory.read_dropFrom, Memory.read_write]
  cases k <;> simp

/-- An accumulated byte is held behind the others, and captured at index 2 (R159). -/
theorem Link.Holds.accumulate {l : Link} {bytes : List Byte} (h : l.Holds bytes) {p : Params}
    (hroom : bytes.length < p.rxBufBytes) (b : Byte) :
    ∃ l', l.accumulate p b = .ok l' ∧ l'.rxState = l.rxState ∧ l'.Holds (bytes ++ [b]) := by
  obtain ⟨hcount, hread, hcaptured⟩ := h
  refine ⟨_, Link.accumulate_ok_iff.mpr ⟨by omega, rfl⟩, rfl, ?_, fun k => ?_, ?_⟩
  · simp [hcount]
  · rw [Memory.read_write, hread, hcount, List.getElem?_append]
    grind
  · by_cases hlen : bytes.length = Config.lenIndex
    · rw [Link.expected_eq_some.mpr ⟨if_pos (hcount.trans hlen), if_pos (hcount.trans hlen)⟩, ← hlen]
      exact List.getElem?_concat_length.symm
    · have hold : (bytes ++ [b])[Config.lenIndex]? = bytes[Config.lenIndex]? := by grind
      rw [hold, ← hcaptured]
      simp [Link.expected, hcount, hlen]

/-! ### One byte in AwaitingEnd -/

/-- A byte in AwaitingEnd with room in the buffer that the end-marker test does not recognise is stored only (R241 d). -/
theorem Link.step_of_not_end {p : Params} {l l' : Link} {b : Byte} (hawaiting : l.rxState = .awaitingEnd)
    (hroom : l.rxCount < p.rxBufBytes) (hacc : l.accumulate p b = .ok l')
    (hend : b = Config.eof → l'.endRecognised p l.rxCount = .ok false) : l.step p (.byte b) = .ok ⟨l', none, none⟩ := by
  simp only [Link.step, hawaiting, Link.awaitByte, Nat.ne_of_lt hroom, if_false, hacc]
  split
  · rename_i hb; simp only [hend hb]
  · rfl

/-- One that the test recognises ends the frame behind the store. -/
theorem Link.step_of_end {p : Params} {l l' : Link} (hawaiting : l.rxState = .awaitingEnd)
    (hroom : l.rxCount < p.rxBufBytes) (hacc : l.accumulate p Config.eof = .ok l')
    (hend : l'.endRecognised p l.rxCount = .ok true) : l.step p (.byte Config.eof) = l'.endFrame l.rxCount := by
  simp only [Link.step, hawaiting, Link.awaitByte, Nat.ne_of_lt hroom, if_false, if_true, hacc, hend]

/-- The end-marker test (R159), where the length byte n is captured behind the header. -/
theorem Link.endRecognised_eq {p : Params} {l : Link} {i : Nat} {n : Byte}
    (hn : Config.payloadIndex ≤ i → l.expected = some n) :
    l.endRecognised p i = .ok (decide (p.etxMode = .anyEtx ∨ Config.payloadIndex + n.toNat ≤ i)) := by
  unfold Link.endRecognised
  cases p.etxMode with
  | anyEtx => simp
  | lengthQualified =>
    dsimp only
    split
    · rename_i hi; simp; omega
    · rename_i hi
      obtain ⟨hvalid, rfl⟩ := Link.expected_eq_some.mp (hn (Nat.le_of_not_lt hi))
      simp [Link.readLen, hvalid]

/-- The length byte among the bytes of a reply, 0 before it has come. -/
def lengthByte (bytes : List Byte) : Byte := bytes.getD Config.lenIndex 0#8

/-- The byte behind these is no recognised end marker (R159): it is another byte, or, under LENGTH_QUALIFIED, one in the place of
the header or the payload. -/
def GoesOn (p : Params) (bytes : List Byte) (b : Byte) : Prop :=
  b = Config.eof → p.etxMode = .lengthQualified ∧ bytes.length < Config.payloadIndex + (lengthByte bytes).toNat

theorem Link.Holds.expected_eq {l : Link} {bytes : List Byte} {b : Byte} (h : l.Holds (bytes ++ [b]))
    (hlen : Config.payloadIndex ≤ bytes.length) : l.expected = some (lengthByte bytes) := by
  rw [h.captured, lengthByte]
  grind

/-- A byte that is no recognised end marker is stored, and nothing is emitted (R159, R163). -/
theorem Link.Holds.step_goesOn {l : Link} {bytes : List Byte} (h : l.Holds bytes) {p : Params} {b : Byte}
    (hawaiting : l.rxState = .awaitingEnd) (hroom : bytes.length < p.rxBufBytes) (hgo : GoesOn p bytes b) :
    ∃ l', l.step p (.byte b) = .ok ⟨l', none, none⟩ ∧ l'.rxState = .awaitingEnd ∧ l'.Holds (bytes ++ [b]) := by
  obtain ⟨l', hacc, hstate, hholds⟩ := h.accumulate hroom b
  refine ⟨l', Link.step_of_not_end hawaiting (h.count ▸ hroom) hacc fun hb => ?_, hstate.trans hawaiting, hholds⟩
  obtain ⟨hmode, hbefore⟩ := hgo hb
  rw [h.count, Link.endRecognised_eq hholds.expected_eq]
  simp [hmode, Nat.not_le_of_lt hbefore]

/-- The end marker behind the payload is stored and ends the frame with the payload (R160). -/
theorem Link.Holds.step_end {l : Link} {bytes : List Byte} (h : l.Holds bytes) {p : Params}
    (hawaiting : l.rxState = .awaitingEnd) (hroom : bytes.length < p.rxBufBytes)
    (hlen : Config.payloadIndex + (lengthByte bytes).toNat ≤ bytes.length) :
    ∃ l', l.step p (.byte Config.eof) =
        .ok ⟨l', some (.frameComplete ((bytes.drop Config.payloadIndex).take (lengthByte bytes).toNat)), none⟩ ∧
      l'.rxState = .idle ∧ l'.Holds (bytes ++ [Config.eof]) := by
  obtain ⟨l', hacc, hstate, hholds⟩ := h.accumulate hroom Config.eof
  obtain ⟨hvalid, hrxLen⟩ := Link.expected_eq_some.mp (hholds.expected_eq (by omega))
  have hpayload : memRead l'.rxb Config.payloadIndex (lengthByte bytes).toNat =
      .ok ((bytes.drop Config.payloadIndex).take (lengthByte bytes).toNat) := by
    rw [memRead_ok_iff, Memory.readAll_of_read hholds.read (by simp; omega),
      List.drop_append_of_le_length (by omega), List.take_append_of_le_length (by simp; omega)]
  refine ⟨{ l' with rxState := .idle }, ?_, rfl, ⟨hholds.count, hholds.read, hholds.captured⟩⟩
  have hend : l'.endRecognised p l.rxCount = .ok true := by
    rw [h.count, Link.endRecognised_eq hholds.expected_eq]
    simp [hlen]
  rw [Link.step_of_end hawaiting (h.count ▸ hroom) hacc hend]
  simp [h.count, hlen, Link.endFrame, hvalid, hrxLen, hpayload, Link.finish]

/-! ### The bytes of a reply -/

/-- One byte of a reply that emits no outcome: the machine goes on with the next (R164; log 18). -/
theorem deliverReply_cons_silent {s : State} (hx : s.xchg = .awaitRead ∨ s.xchg = .awaitWrite) {b : Byte} {l : Link}
    (h : s.link.step s.params (.byte b) = .ok ⟨l, none, none⟩) (rest : List Byte) :
    deliverReply (b :: rest) s = deliverReply rest { s with link := l, lsmOut := none } := by
  simp [deliverReply, receive_waiting hx, processEvent_eq h]

/-- Bytes that are no recognised end markers are accumulated (R159, R163). -/
theorem deliverReply_accumulates {s : State} (hx : s.xchg = .awaitRead ∨ s.xchg = .awaitWrite) (bs : List Byte)
    {bytes : List Byte} {l : Link} (h : l.Holds bytes) (hawaiting : l.rxState = .awaitingEnd)
    (hroom : bytes.length + bs.length ≤ s.params.rxBufBytes)
    (hgo : ∀ before b after, bs = before ++ b :: after → GoesOn s.params (bytes ++ before) b) :
    ∃ l', l'.rxState = .awaitingEnd ∧ l'.Holds (bytes ++ bs) ∧ ∀ rest,
      deliverReply (bs ++ rest) { s with link := l, lsmOut := none } =
        deliverReply rest { s with link := l', lsmOut := none } := by
  induction bs generalizing bytes l with
  | nil => exact ⟨l, hawaiting, by simpa using h, fun rest => rfl⟩
  | cons b bs ih =>
    rw [List.length_cons] at hroom
    obtain ⟨l₁, hstep, hawaiting₁, h₁⟩ := h.step_goesOn hawaiting (p := s.params) (b := b) (by omega)
      (by simpa using hgo [] b bs rfl)
    obtain ⟨l', hawaiting', h', hrest⟩ := ih h₁ hawaiting₁ (by simp; omega) fun before c after hbs => by
      simpa using hgo (b :: before) c after (by rw [hbs]; rfl)
    refine ⟨l', hawaiting', by simpa using h', fun rest => ?_⟩
    rw [List.cons_append, deliverReply_cons_silent (s := { s with link := l, lsmOut := none }) hx hstep]
    exact hrest rest

/-- The start marker of a reply, in Idle (R154). -/
theorem deliverReply_sof {s : State} (hx : s.xchg = .awaitRead ∨ s.xchg = .awaitWrite) (hidle : s.link.rxState = .idle)
    (hp : 1 ≤ s.params.rxBufBytes) :
    ∃ l, l.rxState = .awaitingEnd ∧ l.Holds [Config.sof] ∧ ∀ rest,
      deliverReply (Config.sof :: rest) s = deliverReply rest { s with link := l, lsmOut := none } := by
  obtain ⟨l, hsof, hawaiting, hholds⟩ := s.link.acceptSof_holds hp
  refine ⟨l, hawaiting, hholds, deliverReply_cons_silent hx ?_⟩
  simp [Link.step, hidle, Link.idleByte, hsof]

/-- A byte of a reply that emits an outcome: the bytes behind it wait in the transport (R184, R186; log 18). -/
theorem deliverReply_cons_outcome {s t : State} (hx : s.xchg = .awaitRead ∨ s.xchg = .awaitWrite) {b : Byte} {l : Link}
    {o : LinkOutcome} (h : s.link.step s.params (.byte b) = .ok ⟨l, some o, none⟩)
    (ht : resolve o { s with link := l, lsmOut := some o } = .next t) (rest : List Byte) :
    deliverReply (b :: rest) s = .next { t with rxQueue := asEvents rest ++ t.rxQueue } := by
  obtain ⟨-, -, hout, -⟩ := resolve_sameLink ht
  simp [deliverReply, receive_waiting hx, processEvent_eq h, ht, hout, asEvents]

/-! ### A data frame -/

/-- The trailing bytes of a reply up to its first end marker (R169 f). -/
def keptTrailing (trailing : List Byte) : List Byte := trailing.takeWhile fun b => b ≠ Config.eof

/-- What stands behind that marker, the reply's own end marker included. -/
def unaskedTrailing (trailing : List Byte) : List Byte := (trailing ++ [Config.eof]).drop ((keptTrailing trailing).length + 1)

theorem trailing_eq_kept_unasked (trailing : List Byte) :
    trailing ++ [Config.eof] = keptTrailing trailing ++ Config.eof :: unaskedTrailing trailing := by
  unfold unaskedTrailing keptTrailing
  induction trailing with
  | nil => rfl
  | cons b rest ih =>
    by_cases hb : b = Config.eof
    · simp [hb]
    · simpa [hb] using ih

theorem keptTrailing_goesOn (p : Params) (bytes : List Byte) {trailing before after : List Byte} {b : Byte}
    (h : keptTrailing trailing = before ++ b :: after) : GoesOn p bytes b := by
  intro hb
  have hmem : b ∈ keptTrailing trailing := by simp [h]
  simpa [hb] using List.mem_takeWhile_imp hmem

/-- No byte of the header and the payload is a recognised end marker (R159, R169 e). -/
theorem headerAndPayload_goesOn {p : Params} {f n : Byte} {payload before after : List Byte} {b : Byte}
    (hmode : p.etxMode = .lengthQualified ∨ Config.eof ∉ f :: n :: payload) (hn : n.toNat = payload.length)
    (h : f :: n :: payload = before ++ b :: after) : GoesOn p ([Config.sof] ++ before) b := by
  intro hb
  have hmem : b ∈ f :: n :: payload := by simp [h]
  refine ⟨hmode.resolve_right (fun hnot => hnot (hb ▸ hmem)), ?_⟩
  have hlen := congrArg List.length h
  simp only [List.length_cons, List.length_append] at hlen
  by_cases hheader : before.length < 2
  · simp [Config.payloadIndex]; omega
  · have hbyte : lengthByte ([Config.sof] ++ before) = n := by
      have := congrArg (·[1]?) h
      simp only [lengthByte]
      grind
    rw [hbyte, hn]
    simp [Config.payloadIndex]; omega

/-- A reply data frame that fits the buffer leaves RXB holding it up to and with its first end marker behind the payload, in Idle,
and the exchange is answered with the payload (R160, R169). -/
theorem exec_data {s : State} {f : Byte} {payload : List Byte} (trailing : List Byte)
    (hx : s.xchg = .awaitRead ∨ s.xchg = .awaitWrite) (hidle : s.link.rxState = .idle)
    (hmode : s.params.etxMode = .lengthQualified ∨ Config.eof ∉ f :: BitVec.ofNat 8 payload.length :: payload)
    (hlen : payload.length ≤ 255) (hfits : 4 + payload.length + (keptTrailing trailing).length ≤ s.params.rxBufBytes) :
    ∃ l, l.rxState = .idle ∧
      l.Holds (Config.sof :: f :: BitVec.ofNat 8 payload.length :: (payload ++ keptTrailing trailing ++ [Config.eof])) ∧
      ∀ t, resolve (.frameComplete payload) { s with link := l, lsmOut := some (.frameComplete payload) } = .next t →
        exec (.data f payload trailing) s =
          .next { t with rxQueue := asEvents (unaskedTrailing trailing) ++ t.rxQueue } := by
  generalize hlenByte : BitVec.ofNat 8 payload.length = n at *
  have hn : n.toNat = payload.length := by rw [← hlenByte, BitVec.toNat_ofNat]; omega
  obtain ⟨l₀, hawaiting₀, h₀, hsof⟩ := deliverReply_sof hx hidle (by omega)
  obtain ⟨l₁, hawaiting₁, h₁, hhead⟩ := deliverReply_accumulates hx (f :: n :: payload) h₀ hawaiting₀ (by simp; omega)
    fun before b after => headerAndPayload_goesOn hmode hn
  obtain ⟨l₂, hawaiting₂, h₂, hkept⟩ := deliverReply_accumulates hx (keptTrailing trailing) h₁ hawaiting₁ (by simp; omega)
    fun before b after => keptTrailing_goesOn _ _
  have hbyte : lengthByte ([Config.sof] ++ f :: n :: payload ++ keptTrailing trailing) = n := rfl
  obtain ⟨l, hend, hidle', h⟩ := h₂.step_end (p := s.params) hawaiting₂ (by simp; omega)
    (by rw [hbyte, hn]; simp [Config.payloadIndex]; omega)
  have hpayload : (([Config.sof] ++ f :: n :: payload ++ keptTrailing trailing).drop Config.payloadIndex).take n.toNat =
      payload := by simp [Config.payloadIndex, hn]
  rw [hbyte, hpayload] at hend
  refine ⟨l, hidle', by simpa using h, fun t ht => ?_⟩
  have hbytes : (encode (.data f payload trailing)).bytes = Config.sof ::
      ((f :: n :: payload) ++ (keptTrailing trailing ++ Config.eof :: unaskedTrailing trailing)) := by
    rw [← trailing_eq_kept_unasked, ← hlenByte]; rfl
  calc exec (.data f payload trailing) s
      = deliverReply (encode (.data f payload trailing)).bytes s := rfl
    _ = deliverReply (Config.eof :: unaskedTrailing trailing) { s with link := l₂, lsmOut := none } := by
      rw [hbytes, hsof, hhead, hkept]
    _ = .next { t with rxQueue := asEvents (unaskedTrailing trailing) ++ t.rxQueue } :=
      deliverReply_cons_outcome (s := { s with link := l₂, lsmOut := none }) hx hend ht _

/-- READ_EXCHANGE returns the payload (R187). -/
theorem resolve_frameComplete_read {s : State} (hx : s.xchg = .awaitRead) (htask : s.task = .readExchange) (p : List Byte) :
    resolve (.frameComplete p) s =
      .next { s with xchg := .free, txIdx := 0, task := .idle, done := some ⟨.ok, .bytes p⟩ } := by
  simp [resolve, hx, resolveRead, htask, resumeRead, finishExchange]

/-- A pending write drops it and waits on (R189). -/
theorem resolve_frameComplete_write {s : State} (hx : s.xchg = .awaitWrite) (p : List Byte) :
    resolve (.frameComplete p) s = .next s := by
  simp [resolve, hx, resolveWrite]

/-- Settles O41: the reply leaves RXB holding its bytes up to that marker, and the exchange is answered with the payload. -/
theorem dataReplyIsReassembled : Obligations.DataReplyIsReassembled := by
  intro s f payload trailing hidle hwaits hmode hlen kept unasked hfits
  obtain ⟨l, hidle', hholds, hexec⟩ := exec_data trailing (hwaits.imp_left And.left) hidle hmode hlen hfits
  have hcount : l.rxCount = 4 + payload.length + (keptTrailing trailing).length := by
    rw [hholds.count]
    simp; omega
  have hread := hholds.readAll
  have hnone (k : Nat) (hk : l.rxCount ≤ k) : l.rxb.read k = none := hholds.read_none hk
  have hrxLen : l.readLen = .ok (BitVec.ofNat 8 payload.length) := hholds.readLen rfl
  rcases hwaits with ⟨hx, htask⟩ | hx
  · have hreturned := hexec _ (resolve_frameComplete_read
      (s := { s with link := l, lsmOut := some (.frameComplete payload) }) hx htask payload)
    exact ⟨_, hreturned, hidle', hcount, hread, hnone, hrxLen, fun _ => rfl, fun hx' => absurd (hx.symm.trans hx') nofun⟩
  · have hignored := hexec _ (resolve_frameComplete_write
      (s := { s with link := l, lsmOut := some (.frameComplete payload) }) hx payload)
    exact ⟨_, hignored, hidle', hcount, hread, hnone, hrxLen, fun hx' => absurd (hx.symm.trans hx') nofun, fun _ => rfl⟩

end Sys2Proof.Machine
end

section
/-! PROOFS. The two builds (40_frame_encoder.md): what a build does to the state (R100, R110), with the length check before it
(R101, R111), and the bytes and the shape of the frame it stores (R105, R113). -/

namespace Sys2Proof.Machine

/-! ### What a build does -/

/-- The state t is s with exactly these bytes in TXB and the operation completed (R24, R26, R100). -/
structure BuildStored (bytes : List Byte) (s t : State) : Prop where
  len    : t.txLen = bytes.length
  read   : ∀ k, t.txb.read k = bytes[k]?
  others : t = { s with txb := t.txb, txLen := t.txLen, task := .idle, done := some ⟨.ok, .none⟩ }

/-- What a build of these bytes does: InvalidLength on a length of zero, the bytes stored on any other (R100, R101). -/
structure BuildOutcome (n : Byte) (bytes : List Byte) (s : State) (r : Res) : Prop where
  invalidLength : n = 0#8 → r = .next { s with task := .idle, done := some ⟨.invalidLength, .none⟩ }
  stored        : n ≠ 0#8 → ∃ t, r = .next t ∧ BuildStored bytes s t

theorem build_outcome {n : Byte} {bytes : List Byte} {s : State} (hfits : bytes.length ≤ Config.txBufBytes) :
    BuildOutcome n bytes s (build n bytes { s with done := none } (complete .none)) where
  invalidLength := by rintro rfl; rw [build_zero]
  stored hn := ⟨_, by rw [build_ok hn hfits, complete_eq], rfl, storeFrame_read, rfl⟩

theorem exec_buildRead_outcome {s : State} (hs : s.xchg = .free) (cks : Bool) (n : Byte) (base : Word) (off : Byte) :
    BuildOutcome n (readFrame s.params.addrWidthMode cks n base off) s (exec (.buildRead cks n base off) s) := by
  rw [show exec (.buildRead cks n base off) s = execBuildRead cks n base off s from rfl, execBuildRead, issue_free hs]
  exact build_outcome (readFrame_fits ..)

theorem exec_buildWrite_outcome {s : State} (hs : s.xchg = .free) (cks : Bool) (n : Byte) (base : Word) (off : Byte)
    (value : Word) :
    BuildOutcome n (writeFrame s.params.addrWidthMode cks n base off value) s
      (exec (.buildWrite cks n base off value) s) := by
  rw [show exec (.buildWrite cks n base off value) s = execBuildWrite cks n base off value s from rfl, execBuildWrite,
    issue_free hs]
  exact build_outcome (writeFrame_fits ..)

/-! ### The host's view of what was stored -/

/-- The host reads any slice of the frame (R26). -/
theorem BuildStored.hostRead {bytes : List Byte} {s t : State} (h : BuildStored bytes s t) {i n : Nat}
    (hn : i + n ≤ bytes.length) : hostReadTxb t i n = .ok ((bytes.drop i).take n) := by
  rw [hostReadTxb, if_pos (h.len ▸ hn), memRead_ok_iff]
  exact Memory.readAll_of_read h.read hn

theorem BuildStored.hostRead_one {bytes : List Byte} {s t : State} (h : BuildStored bytes s t) {i : Nat} {b : Byte}
    (hb : bytes[i]? = some b) : hostReadTxb t i 1 = .ok [b] := by
  obtain ⟨hi, -⟩ := List.getElem?_eq_some_iff.mp hb
  rw [hostReadTxb, if_pos (h.len ▸ hi), memRead_one ((h.read i).trans hb)]

theorem BuildStored.hostRead_all {bytes : List Byte} {s t : State} (h : BuildStored bytes s t) :
    hostReadTxb t 0 t.txLen = .ok bytes := by
  have hread := h.hostRead (i := 0) (Nat.zero_add bytes.length).le
  rwa [List.drop_zero, List.take_length, ← h.len] at hread

theorem BuildStored.read_none {bytes : List Byte} {s t : State} (h : BuildStored bytes s t) {k : Nat} (hk : t.txLen ≤ k) :
    t.txb.read k = none := by
  rw [h.read, List.getElem?_eq_none (h.len ▸ hk)]

/-! ### The frame byte for byte -/

theorem addrExt_eq_false_iff {mode : AddrWidthMode} {a : Word} :
    addrExt mode a = false ↔ ¬ (mode = .intended ∧ 65536 ≤ a.toNat) := by
  rw [← addrExt_eq_true_iff, Bool.not_eq_true]

/-- The same in the host's terms: it reads the bytes whole, and no index above them holds a value (R24, R26). -/
theorem BuildOutcome.storesWhole {n : Byte} {bytes : List Byte} {s : State} {r : Res} (h : BuildOutcome n bytes s r) :
    (n = 0#8 → r = .next { s with task := .idle, done := some ⟨.invalidLength, .none⟩ }) ∧
      (n ≠ 0#8 → ∃ t, r = .next t ∧ t.txLen = bytes.length ∧ hostReadTxb t 0 t.txLen = .ok bytes ∧
        (∀ k, t.txLen ≤ k → t.txb.read k = none) ∧
        t = { s with txb := t.txb, txLen := t.txLen, task := .idle, done := some ⟨.ok, .none⟩ }) := by
  refine ⟨h.invalidLength, fun hn => ?_⟩
  obtain ⟨t, hr, hstored⟩ := h.stored hn
  exact ⟨t, hr, hstored.len, hstored.hostRead_all, fun _ => hstored.read_none, hstored.others⟩

/-- Settles O16: the frame of each of the four forms (R102), written out from its fields, is what the build stores. -/
theorem buildReadStoresItsFrame : Obligations.BuildReadStoresItsFrame := by
  intro s cks n base off hs a0 a1 a2 a3 bytes
  have hbytes : readFrame s.params.addrWidthMode cks n base off = bytes := by
    by_cases hext : s.params.addrWidthMode = .intended ∧ 65536 ≤ base.toNat
    case pos =>
      rw [readFrame, addrExt_eq_true_iff.mpr hext, show bytes = _ from if_pos hext]
      cases cks <;> rfl
    case neg =>
      rw [readFrame, addrExt_eq_false_iff.mpr hext, show bytes = _ from if_neg hext]
      cases cks <;> rfl
  exact hbytes ▸ (exec_buildRead_outcome hs cks n base off).storesWhole

/-- Settles O17: as for BUILD_READ, with the READ flag clear and the value behind the address (R112). -/
theorem buildWriteStoresItsFrame : Obligations.BuildWriteStoresItsFrame := by
  intro s cks n base off value hs a0 a1 a2 a3 v0 v1 v2 v3 bytes
  have hbytes : writeFrame s.params.addrWidthMode cks n base off value = bytes := by
    by_cases hext : s.params.addrWidthMode = .intended ∧ 65536 ≤ base.toNat
    case pos =>
      rw [writeFrame, addrExt_eq_true_iff.mpr hext, show bytes = _ from if_pos hext]
      cases cks <;> rfl
    case neg =>
      rw [writeFrame, addrExt_eq_false_iff.mpr hext, show bytes = _ from if_neg hext]
      cases cks <;> rfl
  exact hbytes ▸ (exec_buildWrite_outcome hs cks n base off value).storesWhole

/-! ### The length check -/

/-- The status alone: InvalidLength or Ok, by the length (R101, R111). -/
theorem BuildOutcome.raises_or_completes {n : Byte} {bytes : List Byte} {s : State} {r : Res} (h : BuildOutcome n bytes s r) :
    (n = 0#8 → r = .next { s with task := .idle, done := some ⟨.invalidLength, .none⟩ }) ∧
      (n ≠ 0#8 → ∃ t, r = .next t ∧ t.done = some ⟨.ok, .none⟩) := by
  refine ⟨h.invalidLength, fun hn => ?_⟩
  obtain ⟨t, hr, hstored⟩ := h.stored hn
  exact ⟨t, hr, congrArg State.done hstored.others⟩

/-- Settles O18: the length check is the only one, because every frame a build makes fits TXB. -/
theorem onlyZeroLengthFailsABuild : Obligations.OnlyZeroLengthFailsABuild := by
  intro s cks n base off value hs i hi
  simp only [List.mem_cons, List.not_mem_nil, or_false] at hi
  rcases hi with rfl | rfl
  · exact (exec_buildRead_outcome hs cks n base off).raises_or_completes
  · exact (exec_buildWrite_outcome hs cks n base off value).raises_or_completes

/-! ### The shape of a frame -/

/-- The last byte of a frame is the end marker (R70). -/
theorem frame_getElem?_last (flags n : Byte) (x : List Byte) (cks : Bool) :
    (frame flags n x cks)[(frame flags n x cks).length - 1]? = some Config.eof := by
  rw [← List.getLast?_eq_getElem?]
  simp [frame, List.getLast?_cons, List.getLast?_append]

/-- Behind the length byte stand the address and the data field, then the checksum and the end marker (R70). -/
theorem frame_drop_three (flags n : Byte) (x : List Byte) (cks : Bool) :
    (frame flags n x cks).drop 3 = x ++ ((if cks then [xorFold (flags :: n :: x)] else []) ++ [Config.eof]) := by
  simp [frame]

/-- A stored frame begins and ends with its markers, and its flags byte stands at index 1. -/
theorem BuildStored.markers {flags n : Byte} {x : List Byte} {cks : Bool} {s t : State}
    (h : BuildStored (frame flags n x cks) s t) :
    hostReadTxb t 0 1 = .ok [Config.sof] ∧ hostReadTxb t (t.txLen - 1) 1 = .ok [Config.eof] ∧
      hostReadTxb t 1 1 = .ok [flags] := by
  refine ⟨h.hostRead_one rfl, ?_, h.hostRead_one rfl⟩
  rw [h.len]
  exact h.hostRead_one (frame_getElem?_last ..)

/-- The READ bit of a packed flags byte is bit 3 (R74). -/
theorem flagsPack_getLsbD_read (read cks ext : Bool) : (flagsPack read cks ext).getLsbD 3 = read :=
  congrArg FlagBits.read (flagsUnpack_flagsPack read cks ext)

/-- The number of address bytes a build selects (R102). -/
theorem addrBytesCount_addrExt (mode : AddrWidthMode) (base : Word) :
    addrBytesCount (addrExt mode base) = if mode = .intended ∧ 65536 ≤ base.toNat then 4 else 2 :=
  if_congr addrExt_eq_true_iff rfl rfl

/-- The data field of a write frame stands behind the address (R110). -/
theorem writeFrame_data (mode : AddrWidthMode) (cks : Bool) (n : Byte) (base : Word) (off : Byte) (value : Word) :
    ((writeFrame mode cks n base off value).drop (3 + addrBytesCount (addrExt mode base))).take 4 = leBytes4 value := by
  rw [← List.drop_drop, writeFrame, frame_drop_three, List.append_assoc, List.drop_left' (addrBytes_length ..),
    List.take_left' (leBytes4_length value)]

/-- Settles O19: the lengths of the two frames, the markers and flags byte of any frame, and the data field read back (R13). -/
theorem builtFrameShape : Obligations.BuiltFrameShape := by
  intro s cks n base off value hs hn a c
  have ha : addrBytesCount (addrExt s.params.addrWidthMode base) = a := addrBytesCount_addrExt ..
  constructor
  case left =>
    obtain ⟨t, hexec, hstored⟩ := (exec_buildRead_outcome hs cks n base off).stored hn
    obtain ⟨hfirst, hlast, hflags⟩ := hstored.markers
    have hlen : t.txLen = 4 + a + c := by rw [hstored.len, readFrame_length, ha]
    exact ⟨t, hexec, hlen, hfirst, hlast, _, hflags, flagsPack_getLsbD_read ..⟩
  case right =>
    obtain ⟨t, hexec, hstored⟩ := (exec_buildWrite_outcome hs cks n base off value).stored hn
    obtain ⟨hfirst, hlast, hflags⟩ := hstored.markers
    have hlen : t.txLen = 8 + a + c := by rw [hstored.len, writeFrame_length, ha]
    have hdata : hostReadTxb t (3 + a) 4 = .ok (leBytes4 value) := by
      rw [hstored.hostRead (by rw [← hstored.len]; omega), ← ha, writeFrame_data]
    exact ⟨t, hexec, hlen, hfirst, hlast, ⟨_, hflags, flagsPack_getLsbD_read ..⟩, _, hdata, leValue_leBytes4 value⟩

end Sys2Proof.Machine
end

section
/-! PROOFS. The checksum (41_checksum.md): the laws of the exclusive-or fold (R121, R125), that a built frame folds to zero with its
checksum (R124), and what CHECKSUM completes with (R120, R122). -/

namespace Sys2Proof.Machine

/-! ### The fold -/

@[simp] theorem xorFold_nil : xorFold [] = 0#8 := rfl

/-- The direction of the fold does not matter (R121): the first byte comes out in front. -/
@[simp] theorem xorFold_cons (b : Byte) (s : List Byte) : xorFold (b :: s) = b ^^^ xorFold s := by
  rw [xorFold, List.foldl_cons, BitVec.xor_comm, List.foldl_assoc, xorFold]

/-- R125 (d). -/
theorem xorFold_append (s t : List Byte) : xorFold (s ++ t) = xorFold s ^^^ xorFold t := by
  induction s with
  | nil => simp
  | cons b s ih => rw [List.cons_append, xorFold_cons, xorFold_cons, ih, BitVec.xor_assoc]

/-- R125 (c): exclusive-or lets neighbours change places. -/
theorem xorFold_perm {s t : List Byte} (h : s.Perm t) : xorFold s = xorFold t :=
  h.foldl_eq 0#8

/-- R125 (e), for any change of one byte: the fold changes by the same bits. -/
theorem xorFold_change (s t : List Byte) (b d : Byte) :
    xorFold (s ++ (b ^^^ d) :: t) = xorFold (s ++ b :: t) ^^^ d := by
  simp only [xorFold_append, xorFold_cons]
  ac_rfl

/-- R122: one more byte turns the parity of a bit exactly when it has that bit. -/
theorem xorFold_getLsbD (s : List Byte) (k : Nat) :
    (xorFold s).getLsbD k = decide (s.countP (fun x => x.getLsbD k) % 2 = 1) := by
  induction s with
  | nil => simp
  | cons b s ih =>
    rw [xorFold_cons, BitVec.getLsbD_xor, ih, List.countP_cons, Bool.eq_iff_iff]
    cases b.getLsbD k with
    | false => simp
    | true => simp [Nat.succ_mod_two_eq_one_iff]

/-- Settles O26: each law is one of the rules above; the accumulator of (d) is the fold's own recursion. -/
theorem xorFoldLaws : Obligations.XorFoldLaws := by
  refine ⟨fun b => ?single, fun b => ?pair, fun _ _ => xorFold_perm, xorFold_append, fun _ => rfl,
    fun s t b k _ => xorFold_change s t b _⟩
  case single => simp
  case pair => simp

/-! ### Checksummed frames -/

/-- What stands between the two markers of a frame with a checksum: the covered bytes and their fold (R78, R123). -/
theorem frame_between_markers (flags n : Byte) (x : List Byte) :
    ((frame flags n x true).drop 1).take ((frame flags n x true).length - 2) =
      (flags :: n :: x) ++ [xorFold (flags :: n :: x)] := by
  have hframe : frame flags n x true =
      Config.sof :: (((flags :: n :: x) ++ [xorFold (flags :: n :: x)]) ++ [Config.eof]) := by
    rw [List.append_assoc]; rfl
  rw [hframe, List.drop_one, List.tail_cons]
  exact List.take_left' (by simp)

theorem xorFold_frame (flags n : Byte) (x : List Byte) :
    xorFold (((frame flags n x true).drop 1).take ((frame flags n x true).length - 2)) = 0#8 := by
  rw [frame_between_markers, xorFold_append_eq_zero]

/-- Settles O25: both builds make a frame of R70, and its checksum byte is the one that brings the fold to zero. -/
theorem checksummedFramesFoldToZero : Obligations.ChecksummedFramesFoldToZero := by
  refine ⟨fun B _ => (xorFold_append_eq_zero B _).mpr rfl, fun mode n base off value f hf => ?frames, by decide⟩
  case frames =>
    simp only [List.mem_cons, List.not_mem_nil, or_false] at hf
    rcases hf with rfl | rfl
    · exact xorFold_frame ..
    · exact xorFold_frame ..

/-! ### The operation -/

/-- CHECKSUM with no exchange in flight (R120). -/
theorem exec_checksum {s : State} (hs : s.xchg = .free) (bytes : List Byte) :
    exec (.checksum bytes) s = .next { s with
      task := .idle
      done := some (if bytes = [] then ⟨.emptyInput, .none⟩ else ⟨.ok, .byte (xorFold bytes)⟩) } := by
  rw [show exec (.checksum bytes) s = execChecksum bytes s from rfl, execChecksum, issue_free hs]
  cases bytes with
  | nil => rfl
  | cons b rest => rfl

/-- Settles O24: the byte CHECKSUM completes with is the fold, whose bits are parities. -/
theorem checksumBitsAreParities : Obligations.ChecksumBitsAreParities := by
  intro s hs
  refine ⟨fun b rest => ⟨xorFold (b :: rest), exec_checksum hs _, ?fold, fun k _ => xorFold_getLsbD _ k⟩, exec_checksum hs []⟩
  case fold => rw [xorFold, List.foldl_cons, BitVec.zero_xor]

end Sys2Proof.Machine
end

section
/-! PROOFS. The data field (42_data_field.md): a word and its four bytes (R130 to R132), the boolean in the first byte (R133, R135,
R136), and text (R134). -/

namespace Sys2Proof.Machine

/-- An operation whose body only computes a result completes with it and changes nothing else (00_scope.md section 7). -/
theorem issue_complete {s : State} (hs : s.xchg = .free) (r : State → OpResult) :
    issue (fun s' => complete (r s') s') s =
      .next { s with task := .idle, done := some ⟨.ok, r { s with done := none }⟩ } := by
  rw [issue_free hs, complete_eq]

/-! ### Integer fields -/

theorem leValue_lt (bytes : List Byte) : leValue bytes < 256 ^ bytes.length := by
  induction bytes with
  | nil => simp [leValue]
  | cons b bytes ih =>
    have hb : b.toNat < 256 := b.isLt
    rw [leValue, List.length_cons, Nat.pow_succ]
    omega

/-- R131: the sum over the first n bytes, those that are missing counting as zero (D21). -/
theorem leValue_take (n : Nat) (bytes : List Byte) :
    leValue (bytes.take n) = ∑ i ∈ Finset.range n, 256 ^ i * (bytes.getD i 0#8).toNat := by
  induction n generalizing bytes with
  | zero => simp [leValue]
  | succ n ih =>
    cases bytes with
    | nil => simp [leValue]
    | cons b bytes =>
      simp only [List.take_succ_cons, leValue, ih, Finset.sum_range_succ', List.getD_cons_succ, List.getD_cons_zero,
        pow_succ', mul_assoc, ← Finset.mul_sum]
      omega

/-- Four bytes always fit the word (R131). -/
theorem parseInt_toNat (bytes : List Byte) : (parseInt bytes).toNat = leValue (bytes.take 4) := by
  have hlt : leValue (bytes.take 4) < 256 ^ 4 :=
    (leValue_lt _).trans_le (Nat.pow_le_pow_right (by decide) (List.length_take_le 4 bytes))
  rw [parseInt, BitVec.toNat_ofNat]
  exact Nat.mod_eq_of_lt hlt

/-- PARSE_INT with no exchange in flight (R131). -/
theorem exec_parseInt {s : State} (hs : s.xchg = .free) (bytes : List Byte) :
    exec (.parseInt bytes) s = .next { s with task := .idle, done := some ⟨.ok, .word (parseInt bytes)⟩ } :=
  issue_complete hs fun _ => .word (parseInt bytes)

/-- Settles O27: the word's number is the sum of R131, written out for four bytes. -/
theorem parseIntReadsTheFirstFourBytes : Obligations.ParseIntReadsTheFirstFourBytes := by
  intro s bytes hs
  refine ⟨parseInt bytes, exec_parseInt hs bytes, ?value⟩
  case value => simp [parseInt_toNat, leValue_take, Finset.sum_range_succ]

/-- A field of a word is a quotient of its number. -/
theorem extractLsb'_eq_ofNat_div (v : Word) (i n : Nat) : v.extractLsb' i n = BitVec.ofNat n (v.toNat / 2 ^ i) := by
  rw [← Nat.shiftRight_eq_div_pow, BitVec.extractLsb']

/-- INT_TO_FIELD with no exchange in flight (R130). -/
theorem exec_intToField {s : State} (hs : s.xchg = .free) (v : Word) :
    exec (.intToField v) s = .next { s with task := .idle, done := some ⟨.ok, .bytes (intToField v)⟩ } :=
  issue_complete hs fun _ => .bytes (intToField v)

/-- Settles O28: the four fields of the word as quotients. -/
theorem intToFieldSplitsTheValue : Obligations.IntToFieldSplitsTheValue := by
  intro s v hs
  rw [exec_intToField hs, intToField, leBytes4]
  simp [extractLsb'_eq_ofNat_div]

/-- R132, from the word. -/
theorem parseInt_intToField (x : Word) : parseInt (intToField x) = x := by
  apply BitVec.eq_of_toNat_eq
  rw [parseInt_toNat, intToField, List.take_of_length_le (leBytes4_length x).le, leValue_leBytes4]

/-- R132, from the bytes. -/
theorem intToField_parseInt {b : List Byte} (h : b.length = 4) : intToField (parseInt b) = b := by
  match b, h with
  | [b0, b1, b2, b3], _ => exact leBytes4_word32 b0 b1 b2 b3

/-- Settles O29. -/
theorem integerFieldRoundTrip : Obligations.IntegerFieldRoundTrip :=
  ⟨parseInt_intToField, fun _ => intToField_parseInt⟩

/-! ### Boolean fields -/

/-- PARSE_BOOL of at least one byte, with no exchange in flight (R133). -/
theorem exec_parseBool_cons {s : State} (hs : s.xchg = .free) (b : Byte) (rest : List Byte) :
    exec (.parseBool (b :: rest)) s = .next { s with task := .idle, done := some ⟨.ok, .bool (decide (b = 1#8))⟩ } :=
  issue_complete hs fun _ => .bool (decide (b = 1#8))

/-- PARSE_BOOL of the empty span has no meaning (R133, D22). -/
theorem exec_parseBool_nil {s : State} (hs : s.xchg = .free) :
    exec (.parseBool []) s = .refused .parseBoolEmpty :=
  issue_free hs fun _ => .refused .parseBoolEmpty

/-- Settles O30: a byte is 0x01 exactly when its number is 1. -/
theorem parseBoolTestsTheWholeFirstByte : Obligations.ParseBoolTestsTheWholeFirstByte := by
  intro s hs
  refine ⟨fun b rest => ?first, exec_parseBool_nil hs⟩
  case first =>
    have hone : b = 1#8 ↔ b.toNat = 1 := BitVec.toNat_inj.symm
    rw [exec_parseBool_cons hs, decide_eq_decide.mpr hone]

/-- R135, bit by bit: bit 0 is the flag, every other bit is the old one. -/
theorem mergeBit0_getLsbD (b : Byte) (flag : Bool) (k : Nat) :
    (mergeBit0 b flag).getLsbD k = if k = 0 then flag else b.getLsbD k := by
  have hmask : ∀ k < 8, (0xFE#8).getLsbD k = decide (k ≠ 0) := by decide
  rw [mergeBit0, BitVec.getLsbD_or, BitVec.getLsbD_and, BitVec.getLsbD_setWidth, BitVec.getLsbD_ofBool]
  by_cases hk : k < 8
  · rw [hmask k hk]
    by_cases h0 : k = 0
    · simp [h0]
    · simp [h0]
  · rw [BitVec.getLsbD_of_ge b k (by omega)]
    simp [hk, show k ≠ 0 by omega]

/-- R135: merging the same flag again changes nothing. -/
theorem mergeBit0_mergeBit0 (b : Byte) (flag : Bool) : mergeBit0 (mergeBit0 b flag) flag = mergeBit0 b flag := by
  apply BitVec.eq_of_getLsbD_eq
  intro k _
  simp only [mergeBit0_getLsbD]
  split <;> rfl

/-- MERGE_BOOL with no exchange in flight (R135). -/
theorem exec_mergeBool {s : State} (hs : s.xchg = .free) (b0 b1 b2 b3 : Byte) (flag : Bool) :
    exec (.mergeBool b0 b1 b2 b3 flag) s =
      .next { s with task := .idle, done := some ⟨.ok, .bytes [mergeBit0 b0 flag, b1, b2, b3]⟩ } :=
  issue_complete hs fun _ => .bytes [mergeBit0 b0 flag, b1, b2, b3]

/-- Settles O31: the first byte is read off bit by bit, and the second merge finds the flag already there. -/
theorem mergeBoolSetsOneBit : Obligations.MergeBoolSetsOneBit := by
  intro s b0 b1 b2 b3 flag hs
  refine ⟨mergeBit0 b0 flag, exec_mergeBool hs .., ?flag, fun k hk => ?kept, ?again⟩
  case flag => rw [mergeBit0_getLsbD, if_pos rfl]
  case kept => rw [mergeBit0_getLsbD, if_neg hk.ne']
  case again => rw [exec_mergeBool hs, mergeBit0_mergeBit0]

/-- R136: merging true is "or 0x01". -/
theorem mergeBit0_true (b : Byte) : mergeBit0 b true = b ||| 1#8 := by
  apply BitVec.eq_of_getLsbD_eq
  intro k _
  rw [mergeBit0_getLsbD, BitVec.getLsbD_or, BitVec.getLsbD_one]
  by_cases h0 : k = 0
  · simp [h0]
  · simp [h0]

/-- R136: the byte with true merged in is 0x01 exactly when the other seven bits were zero. -/
theorem mergeBit0_true_eq_one_iff (b : Byte) : mergeBit0 b true = 1#8 ↔ ∀ k, 0 < k → b.getLsbD k = false := by
  refine ⟨fun h k hk => ?zero, fun h => BitVec.eq_of_getLsbD_eq fun k _ => ?one⟩
  case zero =>
    have hbit := mergeBit0_getLsbD b true k
    rw [h, if_neg hk.ne', BitVec.getLsbD_one] at hbit
    simpa [hk.ne'] using hbit.symm
  case one =>
    rw [mergeBit0_getLsbD, BitVec.getLsbD_one]
    by_cases h0 : k = 0
    · simp [h0]
    · rw [if_neg h0, h k (by omega)]; simp [h0]

/-- Settles O32: PARSE_BOOL compares with 0x01 the byte that MERGE_BOOL leaves. -/
theorem booleanReadAndMergeDisagree : Obligations.BooleanReadAndMergeDisagree := by
  refine ⟨fun b rest => ⟨mergeBit0 b true, rfl, mergeBit0_true b, ?parses⟩, by decide, by decide⟩
  case parses => rw [← mergeBit0_true_eq_one_iff, parseBool, Option.some_inj, decide_eq_true_iff]

/-! ### Text fields -/

/-- PARSE_TEXT with no exchange in flight (R134). -/
theorem exec_parseText {s : State} (hs : s.xchg = .free) (bytes : List Byte) :
    exec (.parseText bytes) s = .next { s with task := .idle, done := some ⟨.ok, .bytes (parseText s.params bytes)⟩ } :=
  issue_complete hs fun s' => .bytes (parseText s'.params bytes)

/-- Settles O33: the decoding in force decides what PARSE_TEXT gives (D7). -/
theorem parseTextDecodesTheSpan : Obligations.ParseTextDecodesTheSpan := by
  intro s bytes hs
  rw [exec_parseText hs]
  refine ⟨fun hidentity => ?identity, fun hcustom => ?custom⟩
  case identity => rw [parseText, hidentity]
  case custom => rw [parseText, hcustom]

end Sys2Proof.Machine
end

section
/-! PROOFS. The invariant of the whole machine (10_state.md R21 to R33; 43_link_state_machine.md R168; 44_exchange.md R182, R184,
R190): every shared operation keeps it, and with them every step and every instruction. -/

namespace Sys2Proof.Machine

/-! ### The sequencing state, by the state of the exchange -/

/-- With no exchange in flight no call is in progress, and the link state machine is in Idle (R27, R184). -/
theorem State.seqInv_of_free {s : State} (hx : s.xchg = .free) :
    s.SeqInv ↔ s.task = .idle ∧ s.txIdx = 0 ∧ s.link.rxState = .idle := by
  simp [State.SeqInv, hx]

/-- While the request is being sent a byte of it is left to send (R183). -/
theorem State.seqInv_of_sending {s : State} (hx : s.xchg = .sending) :
    s.SeqInv ↔ s.task ≠ .idle ∧ s.txIdx < s.txLen ∧ s.link.rxState = .idle := by
  simp only [State.SeqInv, hx, reduceCtorEq, false_iff, false_imp_iff, true_imp_iff, true_and, or_true, or_self, ne_eq,
    not_false_eq_true]
  exact and_congr_right fun _ => and_congr_right fun hi => and_iff_right (by omega)

/-- While an exchange waits for its reply the request is sent, and the link state machine is in either state (R33, R186). -/
theorem State.seqInv_of_waiting {s : State} (hx : s.xchg = .awaitRead ∨ s.xchg = .awaitWrite) :
    s.SeqInv ↔ s.task ≠ .idle ∧ s.txLen ≠ 0 ∧ s.xchg = s.task.awaits ∧ s.txIdx = s.txLen := by
  rcases hx with hx | hx <;> simp [State.SeqInv, hx]

/-! ### Starting and ending an exchange -/

/-- A call that ends where no exchange is in flight leaves none in progress (R190, R242). -/
theorem State.Inv.ended {s : State} (hs : s.Inv) (hx : s.xchg = .free) (c : Option Completion) :
    State.Inv { s with done := c, task := .idle } := by
  obtain ⟨hparams, htx, hlink, hseq⟩ := hs
  obtain ⟨-, hidx, hidle⟩ := (State.seqInv_of_free hx).mp hseq
  exact ⟨hparams, htx, hlink, Iff.mpr (State.seqInv_of_free hx) ⟨rfl, hidx, hidle⟩⟩

/-- R190: behind an exchange tx_idx is 0 and no call is in progress. -/
theorem finishExchange_inv {s : State} (hs : s.Inv) (hidle : s.link.rxState = .idle) : (finishExchange s).Inv := by
  obtain ⟨hparams, htx, hlink, -⟩ := hs
  exact ⟨hparams, htx, hlink, (State.seqInv_of_free rfl).mpr ⟨rfl, rfl, hidle⟩⟩

/-- R183: an exchange starts at the first byte of the frame that is built. -/
theorem beginExchange_inv {k : HostTask} (hk : k ≠ .idle) {s : State} (hs : s.Inv) (hx : s.xchg = .free)
    (hlen : s.txLen ≠ 0) : (beginExchange k s).Inv := by
  obtain ⟨hparams, htx, hlink, hseq⟩ := hs
  obtain ⟨-, -, hidle⟩ := (State.seqInv_of_free hx).mp hseq
  exact ⟨hparams, htx, hlink, (State.seqInv_of_sending rfl).mpr ⟨hk, Nat.pos_of_ne_zero hlen, hidle⟩⟩

theorem complete_inv {r : OpResult} {s t : State} (hs : s.Inv) (hx : s.xchg = .free) (h : complete r s = .next t) :
    t.Inv := by
  cases h; exact hs.ended hx _

theorem raiseError_inv {k : Status} {s t : State} (hs : s.Inv) (hx : s.xchg = .free) (h : raiseError k s = .next t) :
    t.Inv := by
  cases h; exact hs.ended hx _

/-! ### Builds -/

/-- A frame that a build makes, stored, is what TXB holds (R24, R26). -/
theorem storeFrame_inv {bytes : List Byte} {s : State} (hs : s.Inv) (hx : s.xchg = .free)
    (hfits : bytes.length ≤ Config.txBufBytes) (hbuilt : builtRequest s.params.addrWidthMode bytes ≠ none) :
    State.Inv { s with txb := (s.txb.writeAll 0 bytes).dropFrom bytes.length, txLen := bytes.length } := by
  obtain ⟨hparams, ⟨htxb, -, -⟩, hlink, hseq⟩ := hs
  have hseq' := (State.seqInv_of_free hx).mp hseq
  have hexact := storeFrame_exactly (bytes := bytes) (Memory.exactly_wf htxb)
  refine ⟨hparams, ⟨hexact, hfits, fun _ => ?_⟩, hlink, Iff.mpr (State.seqInv_of_free hx) hseq'⟩
  rwa [Memory.bytes_eq_of_exactly hexact storeFrame_read]

/-- No request frame is empty (R71, R85). -/
theorem length_ne_zero_of_builtRequest {mode : AddrWidthMode} {bytes : List Byte} (h : builtRequest mode bytes ≠ none) :
    bytes.length ≠ 0 := by
  intro hlen
  obtain rfl := List.length_eq_zero_iff.mp hlen
  exact h rfl

/-- A build of a request frame, and what goes on from the frame in TXB (R100, R110). -/
theorem build_inv {n : Byte} {bytes : List Byte} {f : State → Res} {s t : State} (hs : s.Inv) (hx : s.xchg = .free)
    (hbuilt : n ≠ 0#8 → builtRequest s.params.addrWidthMode bytes ≠ none)
    (hf : ∀ u : State, u.Inv → u.xchg = .free → u.txLen ≠ 0 → f u = .next t → t.Inv) (h : build n bytes s f = .next t) :
    t.Inv := by
  rcases build_eq_next.mp h with ⟨-, rfl⟩ | ⟨hn, hfits, h⟩
  · exact hs.ended hx _
  · have hstored := storeFrame_inv hs hx hfits (hbuilt hn)
    exact hf _ hstored hx (length_ne_zero_of_builtRequest (hbuilt hn)) h

theorem builtRequest_readFrame {mode : AddrWidthMode} {cks : Bool} {n : Byte} {base : Word} {off : Byte} (hn : n ≠ 0#8) :
    builtRequest mode (readFrame mode cks n base off) ≠ none :=
  builtRequest_of_madeByABuild ⟨cks, n, base, off, 0#32, hn, .inl rfl⟩

theorem builtRequest_writeFrame {mode : AddrWidthMode} {cks : Bool} {n : Byte} {base : Word} {off : Byte} {value : Word}
    (hn : n ≠ 0#8) : builtRequest mode (writeFrame mode cks n base off value) ≠ none :=
  builtRequest_of_madeByABuild ⟨cks, n, base, off, value, hn, .inr rfl⟩

theorem buildThenBegin_inv {n : Byte} {bytes : List Byte} {k : HostTask} {s t : State} (hs : s.Inv)
    (hx : s.xchg = .free) (hbuilt : n ≠ 0#8 → builtRequest s.params.addrWidthMode bytes ≠ none)
    (h : build n bytes s (fun s' => .next (beginExchange k s')) = .next t) (hk : k ≠ .idle) : t.Inv :=
  build_inv hs hx hbuilt (fun _ hu hxu hlen h => by cases h; exact beginExchange_inv hk hu hxu hlen) h

theorem startRead_inv {n : Byte} {a : Word} {o : Byte} {k : HostTask} {s t : State} (hs : s.Inv)
    (hx : s.xchg = .free) (h : startRead n a o k s = .next t) (hk : k ≠ .idle) : t.Inv :=
  buildThenBegin_inv hs hx builtRequest_readFrame h hk

theorem startWrite_inv {a v : Word} {k : HostTask} {s t : State} (hs : s.Inv) (hx : s.xchg = .free)
    (h : startWrite a v k s = .next t) (hk : k ≠ .idle) : t.Inv :=
  buildThenBegin_inv hs hx builtRequest_writeFrame h hk

theorem startSecondPhase_inv {z a : Word} {k : HostTask} {s t : State} (hs : s.Inv) (hx : s.xchg = .free)
    (h : startSecondPhase z a k s = .next t) (hk : k ≠ .idle) : t.Inv := by
  unfold startSecondPhase at h
  split at h
  · exact startRead_inv hs hx h hk
  · exact raiseError_inv hs hx h

/-! ### Resolving an exchange -/

theorem resumeRead_inv {k : HostTask} {p : List Byte} {s t : State} (hs : s.Inv) (hx : s.xchg = .free)
    (h : resumeRead k p s = .next t) : t.Inv := by
  cases k with
  | infoSize a =>
    refine startSecondPhase_inv ?_ ?_ h nofun
    · split <;> exact hs
    · split <;> exact hx
  | stringSize a => exact startSecondPhase_inv hs hx h nofun
  | boolRead a f => exact startWrite_inv hs hx h nofun
  | readBool =>
    simp only [resumeRead] at h
    split at h
    · exact complete_inv hs hx h
    · cases h
  | _ => exact complete_inv hs hx h

theorem resumeWrite_inv {k : HostTask} {ok : Bool} {s t : State} (hs : s.Inv) (hx : s.xchg = .free)
    (h : resumeWrite k ok s = .next t) : t.Inv := by
  cases k with
  | selectThen c =>
    simp only [resumeWrite] at h
    split at h
    · exact startWrite_inv hs hx h nofun
    · exact complete_inv hs hx h
  | _ => exact complete_inv hs hx h

/-- R189: from a machine in Idle, an outcome is ignored, ends the call, or starts its next exchange. -/
theorem resolve_inv {o : LinkOutcome} {s t : State} (hs : s.Inv) (hidle : s.link.rxState = .idle)
    (h : resolve o s = .next t) : t.Inv := by
  have hfinished := finishExchange_inv hs hidle
  have ignored (h : Host.Outcome.next s = (.next t : Res)) : t.Inv := by cases h; exact hs
  unfold resolve at h
  split at h
  · exact ignored h
  · exact ignored h
  · cases o with
    | frameComplete p => exact resumeRead_inv hfinished rfl h
    | acknowledged => exact ignored h
    | _ => exact raiseError_inv hfinished rfl h
  · cases o with
    | frameComplete p => exact ignored h
    | acknowledged => exact resumeWrite_inv hfinished rfl h
    | negativeAcknowledged => exact resumeWrite_inv hfinished rfl h
    | _ => exact raiseError_inv hfinished rfl h

/-- One receive event: R168 holds after its transition, and every outcome finds the machine in Idle (R168 c). -/
theorem receive_inv {e : RxEvent} {s t : State} (hs : s.Inv) (h : receive e s = .next t) : t.Inv := by
  obtain ⟨hx, h⟩ := receive_eq_next.mp h
  obtain ⟨hparams, htx, hlink, hseq⟩ := hs
  obtain ⟨r, hr⟩ := Link.step_total hparams hlink e
  have hs' : State.Inv { s with link := r.link, lsmOut := r.outcome, diag := s.diag ++ r.diag.toList } :=
    ⟨hparams, htx, Link.step_inv hlink hr, Iff.mpr (State.seqInv_of_waiting hx) ((State.seqInv_of_waiting hx).mp hseq)⟩
  rw [processEvent_eq hr] at h
  split at h
  · cases h; exact hs'
  · rename_i o ho
    exact resolve_inv hs' (Link.step_outcome_idle hr (by simp [ho])) h

/-! ### Transactions of the environment -/

/-- R183: behind its last byte a request is sent and its call waits; a failed byte ends the call. -/
theorem sendByte_inv {s t : State} (hs : s.Inv) (hx : s.xchg = .sending) (h : sendByte s = .next t) : t.Inv := by
  obtain ⟨hparams, htx, hlink, hseq⟩ := id hs
  obtain ⟨htask, hi, hidle⟩ := (State.seqInv_of_sending hx).mp hseq
  obtain ⟨b, -, ⟨-, rfl⟩ | ⟨rest, -, rfl⟩ | ⟨rest, -, rfl⟩⟩ := sendByte_cases h
  · exact hs
  · refine ⟨hparams, htx, hlink, ?_⟩
    by_cases hlast : s.txIdx + 1 < s.txLen
    · exact Iff.mpr (State.seqInv_of_sending (if_pos hlast)) ⟨htask, hlast, hidle⟩
    · rw [if_neg hlast]
      exact Iff.mpr (State.seqInv_of_waiting s.task.awaits_eq)
        ⟨htask, Nat.ne_zero_of_lt hi, rfl, Nat.le_antisymm hi (Nat.le_of_not_lt hlast)⟩
  · exact finishExchange_inv hs hidle

theorem tick_inv {s t : State} (hs : s.Inv) (h : tick s = .next t) : t.Inv := by
  rcases tick_cases h with ⟨-, rfl⟩ | ⟨hx, -, hsend⟩ | ⟨hx, hi, -⟩ | ⟨-, ⟨-, rfl⟩ | ⟨e, rest, -, hrecv⟩⟩
  · exact hs
  · exact sendByte_inv hs hx hsend
  · obtain ⟨-, -, -, hseq⟩ := hs
    obtain ⟨-, hi', -⟩ := (State.seqInv_of_sending hx).mp hseq
    exact absurd hi' hi
  · exact hs
  · exact receive_inv (s := { s with rxQueue := rest }) hs hrecv

theorem drain_inv {s t : State} (hs : s.Inv) (h : drain s = .next t) : t.Inv :=
  drainFor_keeps (P := State.Inv) (fun _ _ hu _ htick => tick_inv hu htick) _ _ _ hs h

theorem deliverReply_inv {bytes : List Byte} {s t : State} (hs : s.Inv) (h : deliverReply bytes s = .next t) : t.Inv := by
  induction bytes generalizing s with
  | nil => cases h; exact hs
  | cons b bs ih =>
    obtain ⟨u, hrecv, hrest⟩ := Res.andThen_eq_next.mp h
    have hu := receive_inv hs hrecv
    split at hrest
    · cases hrest; exact hu
    · exact ih hu hrest

/-! ### The operations -/

/-- An operation is taken with no exchange in flight, so its body need be followed from there only. -/
theorem issue_inv {f : State → Res} {s t : State} (hs : s.Inv) (h : issue f s = .next t)
    (hf : ∀ u : State, u.Inv → u.xchg = .free → f u = .next t → t.Inv) : t.Inv := by
  obtain ⟨hx, h⟩ := issue_eq_next.mp h
  exact hf { s with done := none } hs hx h

theorem AnswersAtOnce.inv {s t : State} {r : Res} (hr : AnswersAtOnce s r) (hs : s.Inv) (hx : s.xchg = .free)
    (h : r = .next t) : t.Inv := by
  cases hr with
  | completes o => exact complete_inv hs hx h
  | raises k => exact raiseError_inv hs hx h
  | refuses e => cases h

theorem issue_answer_inv {f : State → Res} (hf : ∀ u, AnswersAtOnce u (f u)) {s t : State} (hs : s.Inv)
    (h : issue f s = .next t) : t.Inv :=
  issue_inv hs h fun u => (hf u).inv

/-- TXB takes only what a build makes: a form is stored when it is one, and with the length byte 0 nothing is stored (R26,
R101). -/
theorem presentFrame_inv {n : Byte} {bytes : List Byte} {s t : State} (hs : s.Inv)
    (h : presentFrame n bytes s = .next t) : t.Inv :=
  issue_inv hs h fun u hu hx h => by
    split at h
    · cases h
    · split at h
      · cases h
      · rename_i hbuilt
        exact build_inv hu hx (fun hn hnone => hbuilt ⟨hn, hnone⟩) (fun _ hv hxv _ => complete_inv hv hxv) h

/-- R182: an exchange is taken only with a frame built. -/
theorem runExchange_inv {k : HostTask} {s t : State} (hs : s.Inv) (h : runExchange k s = .next t) (hk : k ≠ .idle) :
    t.Inv :=
  issue_inv hs h fun u hu hx h => by
    split at h
    · cases h
    · rename_i hlen; exact drain_inv (beginExchange_inv hk hu hx hlen) h

theorem readSequence_inv {a : Word} {k : HostTask} {s t : State} (hs : s.Inv)
    (h : readSequence a k s = .next t) (hk : k ≠ .idle) : t.Inv :=
  issue_inv hs h fun u hu hx h => by
    obtain ⟨v, hstart, hdrain⟩ := Res.andThen_eq_next.mp h
    exact drain_inv (startRead_inv hu hx hstart hk) hdrain

theorem startWrite_drain_inv {a v : Word} {k : HostTask} {s t : State} (hs : s.Inv) (hx : s.xchg = .free)
    (h : (startWrite a v k s).andThen drain = .next t) (hk : k ≠ .idle) : t.Inv := by
  obtain ⟨u, hstart, hdrain⟩ := Res.andThen_eq_next.mp h
  exact drain_inv (startWrite_inv hs hx hstart hk) hdrain

theorem writeSequence_inv {a v : Word} {k : HostTask} {s t : State} (hs : s.Inv)
    (h : writeSequence a v k s = .next t) (hk : k ≠ .idle) : t.Inv :=
  issue_inv hs h fun _ hu hx h => startWrite_drain_inv hu hx h hk

theorem selectSequence_inv {a : Word} {id : Int} {k : HostTask} {s t : State} (hs : s.Inv)
    (h : selectSequence a id k s = .next t) (hk : k ≠ .idle) : t.Inv :=
  issue_inv hs h fun u hu hx h => by
    split at h
    · exact startWrite_drain_inv hu hx h hk
    · exact raiseError_inv hu hx h

/-- R211, R212. -/
theorem selectOrWrite_inv {f : Bool} {selector a v : Word} {id : Int} {k k' : HostTask} {s t : State} (hs : s.Inv)
    (h : (if f then selectSequence selector id k s else writeSequence a v k' s) = .next t) (hk : k ≠ .idle)
    (hk' : k' ≠ .idle) : t.Inv := by
  split at h
  · exact selectSequence_inv hs h hk
  · exact writeSequence_inv hs h hk'

theorem execBuildRead_inv {c : Bool} {n : Byte} {a : Word} {o : Byte} {s t : State} (hs : s.Inv)
    (h : execBuildRead c n a o s = .next t) : t.Inv :=
  issue_inv hs h fun _ hu hx h =>
    build_inv hu hx builtRequest_readFrame (fun _ hv hxv _ => complete_inv hv hxv) h

theorem execBuildWrite_inv {c : Bool} {n : Byte} {a v : Word} {o : Byte} {s t : State} (hs : s.Inv)
    (h : execBuildWrite c n a o v s = .next t) : t.Inv :=
  issue_inv hs h fun _ hu hx h =>
    build_inv hu hx builtRequest_writeFrame (fun _ hv hxv _ => complete_inv hv hxv) h

theorem execChecksum_inv {bytes : List Byte} {s t : State} (hs : s.Inv) (h : execChecksum bytes s = .next t) : t.Inv :=
  issue_answer_inv (fun u => by split; exacts [.raises _, .completes _]) hs h

theorem execParseBool_inv {bytes : List Byte} {s t : State} (hs : s.Inv) (h : execParseBool bytes s = .next t) : t.Inv :=
  issue_answer_inv (fun u => by split; exacts [.completes _, .refuses _]) hs h

theorem execForm_inv {i : Instr} (hch : (encode i).ch = .frame) {s t : State} (hs : s.Inv) (h : exec i s = .next t) :
    t.Inv := by
  obtain ⟨r, k, e, hform⟩ := Instr.exists_isForm hch
  rw [hform.exec_eq] at h
  exact presentFrame_inv hs h

/-- By the kinds of instructions: forms, replies, receive events, builds, computations, exchanges and host sequences. -/
theorem exec_inv {i : Instr} {s t : State} (hs : s.Inv) (h : exec i s = .next t) : t.Inv := by
  cases i with
  | ack | nak | data => exact deliverReply_inv hs h
  | rxIdleSof | rxIdleAck | rxIdleNak | rxIdleOther | rxAwaitOverflow | rxAwaitData | rxAwaitEtx | rxAwaitEtxShort
  | rxTimeout | rxIoError => exact receive_inv hs h
  | buildRead => exact execBuildRead_inv hs h
  | buildWrite => exact execBuildWrite_inv hs h
  | checksum => exact execChecksum_inv hs h
  | parseBool => exact execParseBool_inv hs h
  | parseInt | parseText | intToField | mergeBool => exact issue_answer_inv (fun _ => .completes _) hs h
  | readExchange | writeExchange => exact runExchange_inv hs h nofun
  | opUnassigned => cases h
  | readEnum | readBool | readInfo | readString | writeBool | userSetGetCurrent | userSetGetDefault =>
    exact readSequence_inv hs h nofun
  | writeEnum | writeCommandReg => exact writeSequence_inv hs h nofun
  | userSetSelect | userSetDefaultSelect => exact selectSequence_inv hs h nofun
  | userSetLoad | userSetSave => exact selectOrWrite_inv hs h nofun nofun
  | _ => exact execForm_inv rfl hs h

/-- Settles O8: a step is an instruction on the state without its transaction, or one transaction of the environment. -/
theorem stepKeepsGoodState : Obligations.StepKeepsGoodState := by
  refine ⟨fun s t hs h => ?_, fun i s t hs h => exec_inv hs h⟩
  rcases step_cases s with ⟨before, tr, rest, i, -, hstep⟩ | ⟨e, hstep⟩ | hstep <;> rw [hstep] at h
  · exact exec_inv (s := { s with port := before ++ rest }) hs h
  · cases h
  · exact tick_inv hs h

end Sys2Proof.Machine
end

section
/-! PROOFS. The rows of the link state machine (43_link_state_machine.md R153 to R168) as an exchange that waits runs them: what
each stores and emits, and what its outcome does to the exchange (44_exchange.md R186 to R190). -/

namespace Sys2Proof.Machine

/-! ### The row of an event -/

/-- Running the row of an event is receiving the event (R83; log 19). -/
theorem exec_of_event {i : Instr} {e : RxEvent} (h : i.event = some e) : exec i = receive e := by
  cases i with
  | rxIdleSof | rxIdleAck | rxIdleNak | rxIdleOther | rxAwaitOverflow | rxAwaitData | rxAwaitEtx | rxAwaitEtxShort
  | rxTimeout | rxIoError => cases h; rfl
  | _ => cases h

theorem exec_classify (c : RxCtx) (e : RxEvent) : exec (classify c e) = receive e := by
  obtain ⟨henc, -, -⟩ := classify_eq_iff.mp (rfl : classify c e = classify c e)
  exact exec_of_event (Instr.event_of_encode henc)

/-- Settles O7: behind an event in the transport nothing presented is taken (R62), and the event's row receives it. -/
theorem waitingStepRunsTheEventsRow : Obligations.WaitingStepRunsTheEventsRow := by
  intro s e later hx hq
  have hnone (u : Transaction) : accepts s u = false := by rcases hx with hx | hx <;> simp [accepts, hx, hq]
  have htick : tick s = receive e { s with rxQueue := later } := by
    rcases hx with hx | hx <;> simp [tick, hx, takeEvent, hq]
  rw [step_of_accepts_none fun u _ => hnone u, htick, exec_classify]

/-! ### What an outcome does to the exchange that waits -/

/-- The exchange is over and its call has ended with this completion (R187, R190). -/
def State.endedWith (s : State) (c : Completion) : State :=
  { s with xchg := .free, txIdx := 0, task := .idle, done := some c }

/-- The error that an outcome ends a pending read and a pending write with alike (R189). -/
def LinkOutcome.failure : LinkOutcome → Option Status
  | .protocolError r e a => some (.protocolError r e a)
  | .timeout => some .timeout
  | .ioError => some .ioError
  | _ => none

theorem resolve_failure {s : State} (hx : s.xchg = .awaitRead ∨ s.xchg = .awaitWrite) {o : LinkOutcome} {k : Status}
    (ho : o.failure = some k) : resolve o s = .next (s.endedWith ⟨k, .none⟩) := by
  cases o with
  | protocolError | timeout | ioError => cases ho; rcases hx with hx | hx <;> simp only [resolve, hx] <;> rfl
  | _ => cases ho

/-- A pending read passes over an acknowledge (R189). -/
theorem resolve_acknowledged_read {s : State} (hx : s.xchg = .awaitRead) : resolve .acknowledged s = .next s := by
  simp only [resolve, hx, resolveRead]

/-- A negative-acknowledge ends it with Nak (R187). -/
theorem resolve_negativeAcknowledged_read {s : State} (hx : s.xchg = .awaitRead) :
    resolve .negativeAcknowledged s = .next (s.endedWith ⟨.nak, .none⟩) := by
  simp only [resolve, hx]; rfl

/-- WRITE_EXCHANGE returns true for an acknowledge and false for a negative-acknowledge (R188). -/
theorem resolve_acknowledged_write {s : State} (hx : s.xchg = .awaitWrite) (htask : s.task = .writeExchange) :
    resolve .acknowledged s = .next (s.endedWith ⟨.ok, .bool true⟩) := by
  simp only [resolve, hx, resolveWrite, htask]; rfl

theorem resolve_negativeAcknowledged_write {s : State} (hx : s.xchg = .awaitWrite) (htask : s.task = .writeExchange) :
    resolve .negativeAcknowledged s = .next (s.endedWith ⟨.ok, .bool false⟩) := by
  simp only [resolve, hx, resolveWrite, htask]; rfl

/-- A transition without an outcome changes the link state machine only (R62 b). -/
theorem receive_silent {s : State} (hx : s.xchg = .awaitRead ∨ s.xchg = .awaitWrite) {e : RxEvent} {l : Link}
    (h : s.link.step s.params e = .ok ⟨l, none, none⟩) : receive e s = .next { s with link := l, lsmOut := none } := by
  simp [receive_waiting hx, processEvent_eq h]

/-- One with an outcome hands it to the exchange (R240). -/
theorem receive_outcome {s : State} (hx : s.xchg = .awaitRead ∨ s.xchg = .awaitWrite) {e : RxEvent} {l : Link}
    {o : LinkOutcome} (h : s.link.step s.params e = .ok ⟨l, some o, none⟩) :
    receive e s = resolve o { s with link := l, lsmOut := some o } := by
  simp [receive_waiting hx, processEvent_eq h]

theorem receive_failure {s : State} (hx : s.xchg = .awaitRead ∨ s.xchg = .awaitWrite) {e : RxEvent} {l : Link}
    {o : LinkOutcome} {k : Status} (h : s.link.step s.params e = .ok ⟨l, some o, none⟩) (ho : o.failure = some k) :
    receive e s = .next (State.endedWith { s with link := l, lsmOut := some o } ⟨k, .none⟩) := by
  rw [receive_outcome hx h]
  exact resolve_failure (s := { s with link := l, lsmOut := some o }) hx ho

/-- Settles O38: in any state both events end the frame with their outcome, which is an error of the exchange. -/
theorem transportEventRows : Obligations.TransportEventRows :=
  fun _ hx => ⟨receive_failure (e := .timeout) hx rfl rfl, receive_failure (e := .ioError) hx rfl rfl⟩

/-! ### The rows of Idle -/

theorem Link.step_idle_sof {p : Params} (hp : 1 ≤ p.rxBufBytes) {l : Link} (h : l.rxState = .idle) :
    ∃ l', l.step p (.byte Config.sof) = .ok ⟨l', none, none⟩ ∧ l'.rxState = .awaitingEnd ∧ l'.Holds [Config.sof] := by
  obtain ⟨l', hsof, hstate, hholds⟩ := l.acceptSof_holds hp
  exact ⟨l', by simp [Link.step, h, Link.idleByte, hsof], hstate, hholds⟩

theorem Link.step_idle_ack (p : Params) {l : Link} (h : l.rxState = .idle) :
    l.step p (.byte Config.ack) = .ok ⟨l, some .acknowledged, none⟩ := by
  simp [Link.step, h, Link.idleByte, Link.finish, Link.idle_eta h]

theorem Link.step_idle_nak (p : Params) {l : Link} (h : l.rxState = .idle) :
    l.step p (.byte Config.nak) = .ok ⟨l, some .negativeAcknowledged, none⟩ := by
  simp [Link.step, h, Link.idleByte, Link.finish, Link.idle_eta h]

theorem Link.step_idle_noise (p : Params) {l : Link} (h : l.rxState = .idle) {b : Byte} (hsof : b ≠ Config.sof)
    (hack : b ≠ Config.ack) (hnak : b ≠ Config.nak) :
    l.step p (.byte b) = .ok ⟨l, none, some (.unexpectedByte b)⟩ := by
  simp [Link.step, h, Link.idleByte, hsof, hack, hnak, Link.noise, Link.idle_eta h]

theorem Link.rxLenValid_eq_false_iff {l : Link} : l.rxLenValid = false ↔ l.expected = none := by
  simp [Link.expected]

/-- Settles O34, row by row: the transition from Idle, and what its outcome does. -/
theorem idleByteRows : Obligations.IdleByteRows := by
  intro s hidle
  refine ⟨fun hx => ⟨fun hp => ?_, fun b hsof hack hnak => ?_⟩, fun hx => ⟨?_, ?_⟩, fun hx htask => ⟨?_, ?_⟩⟩
  · obtain ⟨l, hstep, hstate, hholds⟩ := Link.step_idle_sof hp hidle
    exact ⟨_, receive_silent hx hstep, hstate, hholds.count, Link.rxLenValid_eq_false_iff.mpr hholds.captured,
      hholds.read 0, fun k hk => hholds.read_none (hholds.count ▸ hk), rfl⟩
  · show receive (.byte b) s = _
    rw [receive_waiting hx, processEvent_eq (Link.step_idle_noise s.params hidle hsof hack hnak)]
    rfl
  · exact (receive_outcome (.inl hx) (Link.step_idle_ack s.params hidle)).trans (resolve_acknowledged_read hx)
  · exact (receive_outcome (.inl hx) (Link.step_idle_nak s.params hidle)).trans (resolve_negativeAcknowledged_read hx)
  · exact (receive_outcome (.inr hx) (Link.step_idle_ack s.params hidle)).trans (resolve_acknowledged_write hx htask)
  · exact (receive_outcome (.inr hx) (Link.step_idle_nak s.params hidle)).trans
      (resolve_negativeAcknowledged_write hx htask)

/-! ### The rows of AwaitingEnd -/

/-- What storing, counting and capturing a byte leaves (R159). -/
structure Link.Stored (l : Link) (b : Byte) (l' : Link) : Prop where
  state    : l'.rxState = l.rxState
  count    : l'.rxCount = l.rxCount + 1
  read_new : l'.rxb.read l.rxCount = some b
  read_old : ∀ k, k ≠ l.rxCount → l'.rxb.read k = l.rxb.read k
  captured : l.rxCount = 2 → l'.rxLen = b ∧ l'.rxLenValid = true
  kept     : l.rxCount ≠ 2 → l'.rxLen = l.rxLen ∧ l'.rxLenValid = l.rxLenValid

theorem Link.exists_stored {p : Params} {l : Link} (hroom : l.rxCount < p.rxBufBytes) (b : Byte) :
    ∃ l', l.accumulate p b = .ok l' ∧ l.Stored b l' :=
  ⟨_, Link.accumulate_ok_iff.mpr ⟨hroom, rfl⟩, rfl, rfl, Memory.read_write_same _ _ _,
    fun _ hk => Memory.read_write_other _ _ hk, fun h => ⟨if_pos h, if_pos h⟩, fun h => ⟨if_neg h, if_neg h⟩⟩

/-- Behind the header the captured length does not change (R31). -/
theorem Link.Stored.expected_eq {l l' : Link} {b : Byte} (h : l.Stored b l')
    (hvalid : 3 ≤ l.rxCount → l.rxLenValid = true) (hcount : 3 ≤ l.rxCount) : l'.expected = some l'.rxLen := by
  obtain ⟨-, hv⟩ := h.kept (by omega)
  exact Link.expected_eq_some.mpr ⟨hv.trans (hvalid hcount), rfl⟩

/-- The bytes below the count are still there. -/
theorem Link.Stored.readAll {l l' : Link} {b : Byte} (h : l.Stored b l') {i n : Nat} {bytes : List Byte}
    (hn : i + n ≤ l.rxCount) (hread : l.rxb.readAll i n = some bytes) : l'.rxb.readAll i n = some bytes := by
  rw [Memory.readAll_eq_some] at hread ⊢
  obtain ⟨hlen, hbytes⟩ := hread
  refine ⟨hlen, fun k hk => ?_⟩
  rw [h.read_old _ (by omega), hbytes k hk]

/-- Settles O35: the byte is stored, and the end-marker test of R159 does not recognise it. -/
theorem awaitDataRowStoresTheByte : Obligations.AwaitDataRowStoresTheByte := by
  intro s b hx hawaiting hroom hvalid hnotEnd
  obtain ⟨l, hacc, hstored⟩ := Link.exists_stored hroom b
  have hend (hb : b = Config.eof) : l.endRecognised s.params s.link.rxCount = .ok false := by
    obtain ⟨hmode, hbefore⟩ := hnotEnd.resolve_left (not_not_intro hb)
    have hshort : ¬ Config.payloadIndex + l.rxLen.toNat ≤ s.link.rxCount := by
      intro hle
      have hcount : 3 ≤ s.link.rxCount := Nat.le_of_add_right_le hle
      rw [(hstored.kept (by omega)).1] at hle
      rcases hbefore with hbefore | hbefore
      · omega
      · exact absurd hle (Nat.not_le_of_lt hbefore)
    rw [Link.endRecognised_eq (hstored.expected_eq hvalid)]
    simp [hmode, hshort]
  exact ⟨_, receive_silent hx (Link.step_of_not_end hawaiting hroom hacc hend), hstored.state.trans hawaiting,
    hstored.count, hstored.read_new, hstored.read_old, hstored.captured, hstored.kept, rfl⟩

/-- The end marker behind the payload ends the frame with the payload (R160). -/
theorem Link.step_end_payload {p : Params} {l l' : Link} {payload : List Byte} (hawaiting : l.rxState = .awaitingEnd)
    (hroom : l.rxCount < p.rxBufBytes) (hacc : l.accumulate p Config.eof = .ok l')
    (hvalid : l'.rxLenValid = true) (hlen : Config.payloadIndex + l'.rxLen.toNat ≤ l.rxCount)
    (hpayload : l'.rxb.readAll Config.payloadIndex l'.rxLen.toNat = some payload) :
    l.step p (.byte Config.eof) = .ok ⟨{ l' with rxState := .idle }, some (.frameComplete payload), none⟩ := by
  have hend : l'.endRecognised p l.rxCount = .ok true := by
    rw [Link.endRecognised_eq fun _ => Link.expected_eq_some.mpr ⟨hvalid, rfl⟩]
    simp [hlen]
  rw [Link.step_of_end hawaiting hroom hacc hend, Link.endFrame, if_pos ⟨hvalid, hlen⟩, memRead_ok_iff.mpr hpayload]
  rfl

/-- Under ANY_ETX an end marker before the payload is whole ends it with ProtocolError(ShortFrame) (R162). -/
theorem Link.step_end_short {p : Params} {l l' : Link} (hmode : p.etxMode = .anyEtx) (hawaiting : l.rxState = .awaitingEnd)
    (hroom : l.rxCount < p.rxBufBytes) (hacc : l.accumulate p Config.eof = .ok l') (hcount : l'.rxCount = l.rxCount + 1)
    (hshort : ¬ (l'.rxLenValid = true ∧ Config.payloadIndex + l'.rxLen.toNat ≤ l.rxCount)) :
    l.step p (.byte Config.eof) =
      .ok ⟨{ l' with rxState := .idle }, some (.protocolError .shortFrame l'.expected (l.rxCount + 1)), none⟩ := by
  have hend : l'.endRecognised p l.rxCount = .ok true := by simp [Link.endRecognised, hmode]
  rw [Link.step_of_end hawaiting hroom hacc hend, Link.endFrame, if_neg hshort, ← hcount]
  rfl

/-- With the buffer full a byte is dropped (R161). -/
theorem Link.step_overflow {p : Params} {l : Link} (hawaiting : l.rxState = .awaitingEnd)
    (hfull : l.rxCount = p.rxBufBytes) (b : Byte) :
    l.step p (.byte b) =
      .ok ⟨{ l with rxState := .idle }, some (.protocolError .overflow l.expected l.rxCount), none⟩ := by
  simp [Link.step, hawaiting, Link.awaitByte, hfull, Link.finish]

/-- Settles O36: the end marker is stored behind the payload, whose bytes and length it leaves as they were. -/
theorem endMarkerRowEmitsThePayload : Obligations.EndMarkerRowEmitsThePayload := by
  intro s payload hawaiting hroom hvalid hlen hpayload hx
  obtain ⟨l, hacc, hstored⟩ := Link.exists_stored hroom Config.eof
  obtain ⟨hrxLen, hrxLenValid⟩ := hstored.kept (by omega)
  have hstep := Link.step_end_payload hawaiting hroom hacc (hrxLenValid.trans hvalid) (hrxLen ▸ hlen)
    (hrxLen ▸ hstored.readAll hlen hpayload)
  have hlink : { l with rxState := .idle } =
      { s.link with rxState := .idle, rxb := l.rxb, rxCount := s.link.rxCount + 1 } := by
    simp only [hstored.count, hrxLen, hrxLenValid]
  rcases hx with hx | ⟨hx, htask⟩
  · have hexec := (receive_outcome (.inr hx) hstep).trans (resolve_frameComplete_write
      (s := { s with link := { l with rxState := .idle }, lsmOut := some (.frameComplete payload) }) hx payload)
    exact ⟨_, hexec, hlink, hstored.read_new, hstored.read_old, fun _ => rfl, fun hx' => absurd (hx.symm.trans hx') nofun⟩
  · have hexec := (receive_outcome (.inl hx) hstep).trans (resolve_frameComplete_read
      (s := { s with link := { l with rxState := .idle }, lsmOut := some (.frameComplete payload) }) hx htask payload)
    exact ⟨_, hexec, hlink, hstored.read_new, hstored.read_old, fun hx' => absurd (hx.symm.trans hx') nofun, fun _ => rfl⟩

/-- What a ProtocolError expects behind a stored byte: the byte itself at index 2, else the length captured before it (R152,
R162). -/
theorem Link.Stored.expected_or {l l' : Link} {b : Byte} (h : l.Stored b l') :
    l'.expected = if l.rxCount = 2 then some b else if l.rxLenValid then some l.rxLen else none := by
  by_cases hcount : l.rxCount = 2
  · obtain ⟨hlen, hvalid⟩ := h.captured hcount
    rw [if_pos hcount, Link.expected_eq_some.mpr ⟨hvalid, hlen⟩]
  · obtain ⟨hlen, hvalid⟩ := h.kept hcount
    rw [if_neg hcount, Link.expected, hlen, hvalid]

/-- Settles O37: both rows end the frame with a ProtocolError; the overflowing byte is dropped, the early end marker stored. -/
theorem protocolErrorRows : Obligations.ProtocolErrorRows := by
  intro s hx hawaiting raised
  refine ⟨fun hfull b => receive_failure hx (Link.step_overflow hawaiting hfull b) rfl, fun hmode hroom hnotSlice => ?_⟩
  obtain ⟨l, hacc, hstored⟩ := Link.exists_stored hroom Config.eof
  have hshort : ¬ (l.rxLenValid = true ∧ Config.payloadIndex + l.rxLen.toNat ≤ s.link.rxCount) := by
    rintro ⟨hvalid, hle⟩
    have hcount : s.link.rxCount ≠ 2 := by
      have := Nat.le_of_add_right_le hle
      simp only [Config.payloadIndex] at this
      omega
    obtain ⟨hrxLen, hrxLenValid⟩ := hstored.kept hcount
    exact hnotSlice ⟨hcount, hrxLenValid ▸ hvalid, hrxLen ▸ hle⟩
  have hstep := Link.step_end_short hmode hawaiting hroom hacc hstored.count hshort
  rw [hstored.expected_or] at hstep
  exact ⟨_, receive_failure hx hstep rfl, rfl, hstored.count, hstored.read_new, hstored.read_old, hstored.captured,
    hstored.kept⟩

/-! ### The invariants of R168 -/

/-- R168 (d): behind FrameComplete RXB begins with the start marker and ends with the end marker, the payload between them. -/
theorem Link.step_frameComplete {p : Params} {l : Link} {e : RxEvent} {r : LinkResult} (h : l.Inv p)
    (hstep : l.step p e = .ok r) {payload : List Byte} (hr : r.outcome = some (.frameComplete payload)) :
    r.link.rxb.read 0 = some Config.sof ∧ r.link.rxb.read (r.link.rxCount - 1) = some Config.eof ∧
      4 + r.link.rxLen.toNat ≤ r.link.rxCount := by
  obtain ⟨-, -, -, hsof, -, -⟩ := Link.step_inv h hstep
  rcases Link.step_cases hstep with ⟨-, rfl⟩ | ⟨-, rfl⟩ | ⟨b, -, -, hb⟩ | ⟨b, -, hawaiting, hb⟩
  · cases hr
  · cases hr
  · rcases hb with ⟨-, hacc⟩ | ⟨-, rfl⟩ | ⟨-, rfl⟩ | ⟨-, -, -, rfl⟩
    · obtain ⟨-, rfl⟩ := Link.acceptSof_ok_iff.mp hacc; cases hr
    · cases hr
    · cases hr
    · cases hr
  · rcases hb with ⟨-, rfl⟩ | ⟨-, l', hacc, rfl | ⟨rfl, -, hend⟩⟩
    · cases hr
    · cases hr
    · obtain ⟨-, rfl⟩ := Link.accumulate_ok_iff.mp hacc
      obtain ⟨o, rfl, ⟨q, -, -, hlen, -⟩ | ⟨rfl, -⟩⟩ := Link.endFrame_ok hend
      · refine ⟨hsof (Nat.le_add_left 1 l.rxCount), Memory.read_write_same _ _ _, ?_⟩
        simp only [Link.finish_link_rxLen, Link.finish_link_rxCount] at hlen ⊢
        omega
      · cases hr

/-- Settles O39: (a) and (b) are the kept invariant; (c) and (d) are what a transition with an outcome leaves. -/
theorem linkMachineInvariants : Obligations.LinkMachineInvariants := by
  intro s t e _ hs h
  obtain ⟨r, hstep, hlink, hout, hparams, -, -, -, -⟩ := receive_link h
  rw [hlink, hout, hparams]
  have hinv := Link.step_inv hs hstep
  obtain ⟨-, hroom, hcounted, hsof, hvalid, hcaptured⟩ := id hinv
  exact ⟨fun hawaiting => ⟨hcounted hawaiting, hroom, hsof (hcounted hawaiting)⟩, fun hv => ⟨hvalid.mp hv, hcaptured hv⟩,
    Link.step_outcome_idle hstep, fun _ => Link.step_frameComplete hs hstep, hinv⟩

/-! ### The replies (R165) -/

/-- A reply of one byte that emits an outcome is that event (R80). -/
theorem deliverReply_one {s t : State} (hx : s.xchg = .awaitRead ∨ s.xchg = .awaitWrite) {b : Byte} {l : Link}
    {o : LinkOutcome} (h : s.link.step s.params (.byte b) = .ok ⟨l, some o, none⟩)
    (ht : resolve o { s with link := l, lsmOut := some o } = .next t) : deliverReply [b] s = .next t :=
  deliverReply_cons_outcome hx h ht []

/-- Under ANY_ETX an end marker in the place of the header or the payload ends what is held with ProtocolError(ShortFrame), with
the length byte if it has come (R162). -/
theorem Link.Holds.step_early {l : Link} {bytes : List Byte} (h : l.Holds bytes) {p : Params} (hmode : p.etxMode = .anyEtx)
    (hawaiting : l.rxState = .awaitingEnd) (hroom : bytes.length < p.rxBufBytes)
    (hearly : ∀ n, (bytes ++ [Config.eof])[Config.lenIndex]? = some n → bytes.length < Config.payloadIndex + n.toNat) :
    ∃ l', l.step p (.byte Config.eof) = .ok ⟨l', some (.protocolError .shortFrame
        (bytes ++ [Config.eof])[Config.lenIndex]? (bytes.length + 1)), none⟩ ∧
      l'.rxState = .idle ∧ l'.Holds (bytes ++ [Config.eof]) := by
  obtain ⟨l', hacc, -, hholds⟩ := h.accumulate hroom Config.eof
  have hcount : l'.rxCount = l.rxCount + 1 := by rw [hholds.count, h.count, List.length_append]; rfl
  have hshort : ¬ (l'.rxLenValid = true ∧ Config.payloadIndex + l'.rxLen.toNat ≤ l.rxCount) := by
    rintro ⟨hvalid, hle⟩
    have hn := hearly l'.rxLen (hholds.captured.symm.trans (Link.expected_eq_some.mpr ⟨hvalid, rfl⟩))
    exact absurd (h.count ▸ hle) (Nat.not_le_of_lt hn)
  have hstep := Link.step_end_short hmode hawaiting (h.count ▸ hroom) hacc hcount hshort
  rw [hholds.captured, h.count] at hstep
  exact ⟨_, hstep, rfl, ⟨hholds.count, hholds.read, hholds.captured⟩⟩

theorem ne_eof_of_mem_keptTrailing {bytes : List Byte} {b : Byte} (h : b ∈ keptTrailing bytes) : b ≠ Config.eof := by
  simpa using List.mem_takeWhile_imp h

/-- An end marker among some bytes cuts them short. -/
theorem keptTrailing_length_lt {bytes : List Byte} (h : Config.eof ∈ bytes) : (keptTrailing bytes).length < bytes.length := by
  by_contra hle
  have hall : keptTrailing bytes = bytes := (List.takeWhile_prefix _).eq_of_length_le (Nat.le_of_not_lt hle)
  rw [← hall] at h
  exact ne_eof_of_mem_keptTrailing h rfl

/-- The bytes before the first end marker are the same with another one behind all. -/
theorem takeWhile_concat_eof (bytes : List Byte) :
    (bytes ++ [Config.eof]).takeWhile (fun b => b ≠ Config.eof) = keptTrailing bytes := by
  rw [trailing_eq_kept_unasked, List.takeWhile_append_of_pos fun b hb => by simpa using ne_eof_of_mem_keptTrailing hb]
  simp

/-- A reply whose bytes behind the start marker are these is, up to its first end marker, what is kept. -/
theorem reply_eq_kept_unasked (bytes : List Byte) :
    Config.sof :: (bytes ++ [Config.eof]) = Config.sof :: (keptTrailing bytes ++ [Config.eof]) ++ unaskedTrailing bytes := by
  rw [trailing_eq_kept_unasked]
  simp

theorem reply_take_kept (bytes : List Byte) :
    (Config.sof :: (bytes ++ [Config.eof])).take (2 + (keptTrailing bytes).length) =
      Config.sof :: (keptTrailing bytes ++ [Config.eof]) := by
  rw [reply_eq_kept_unasked, List.take_left' (by simp; omega)]

theorem reply_drop_kept (bytes : List Byte) :
    (Config.sof :: (bytes ++ [Config.eof])).drop (2 + (keptTrailing bytes).length) = unaskedTrailing bytes := by
  rw [reply_eq_kept_unasked, List.drop_left' (by simp; omega)]

/-- The length byte is captured unless the flags byte is the end marker. -/
theorem lengthByte_of_early (f n : Byte) (payload : List Byte) :
    (Config.sof :: (keptTrailing (f :: n :: payload) ++ [Config.eof]))[Config.lenIndex]? =
      if 2 + (keptTrailing (f :: n :: payload)).length = 2 then none else some n := by
  have hreply := congrArg (·[1]?) (trailing_eq_kept_unasked (f :: n :: payload))
  cases hkept : keptTrailing (f :: n :: payload) with
  | nil => rfl
  | cons b rest =>
    rw [hkept] at hreply
    cases rest <;> simpa using hreply.symm

theorem EtxMode.eq_anyEtx_of_ne {m : EtxMode} (h : m ≠ .lengthQualified) : m = .anyEtx := by
  cases m with
  | anyEtx => rfl
  | lengthQualified => exact absurd rfl h

/-- Under ANY_ETX a data frame with an end marker among flags, length and payload ends at the first of them with
ProtocolError(ShortFrame), and the bytes behind it wait in the transport (R162, R165; log 18). -/
theorem exec_data_early {s : State} {f : Byte} {payload : List Byte} (hx : s.xchg = .awaitRead ∨ s.xchg = .awaitWrite)
    (hidle : s.link.rxState = .idle) (hmode : s.params.etxMode = .anyEtx)
    (hmem : Config.eof ∈ f :: BitVec.ofNat 8 payload.length :: payload) (hlen : payload.length ≤ 255)
    (hfits : 4 + payload.length ≤ s.params.rxBufBytes) :
    let kept := keptTrailing (f :: BitVec.ofNat 8 payload.length :: payload)
    let count := 2 + kept.length
    let expected := if count = 2 then none else some (BitVec.ofNat 8 payload.length)
    ∃ l, l.rxState = .idle ∧ l.Holds (Config.sof :: (kept ++ [Config.eof])) ∧
      exec (.data f payload []) s = .next { State.endedWith
          { s with link := l, lsmOut := some (.protocolError .shortFrame expected count) }
          ⟨.protocolError .shortFrame expected count, .none⟩ with
        rxQueue := asEvents (unaskedTrailing (f :: BitVec.ofNat 8 payload.length :: payload)) ++ s.rxQueue } := by
  generalize hlenByte : BitVec.ofNat 8 payload.length = n at *
  intro kept count expected
  have hn : n.toNat = payload.length := by rw [← hlenByte, BitVec.toNat_ofNat]; omega
  have hkept : kept.length < payload.length + 2 := keptTrailing_length_lt hmem
  obtain ⟨l₀, hawaiting₀, h₀, hsof⟩ := deliverReply_sof hx hidle (by omega)
  obtain ⟨l₁, hawaiting₁, h₁, hbefore⟩ := deliverReply_accumulates hx kept h₀ hawaiting₀ (by simp; omega)
    fun before b after => keptTrailing_goesOn _ _
  have hexpected : ([Config.sof] ++ kept ++ [Config.eof])[Config.lenIndex]? = expected := lengthByte_of_early f n payload
  have hearly (m : Byte) (hm : expected = some m) :
      ([Config.sof] ++ kept).length < Config.payloadIndex + m.toNat := by
    obtain ⟨-, rfl⟩ : count ≠ 2 ∧ n = m := by simpa [expected] using hm
    simp [Config.payloadIndex]; omega
  have hcount : ([Config.sof] ++ kept).length + 1 = count := by simp [count]; omega
  obtain ⟨l, hend, hidle', h⟩ := h₁.step_early hmode hawaiting₁ (by simp; omega) (hexpected ▸ hearly)
  rw [hexpected, hcount] at hend
  have hbytes : (encode (.data f payload [])).bytes =
      Config.sof :: (kept ++ Config.eof :: unaskedTrailing (f :: n :: payload)) := by
    rw [← trailing_eq_kept_unasked, ← hlenByte]; rfl
  refine ⟨l, hidle', h, ?_⟩
  calc exec (.data f payload []) s
      = deliverReply (encode (.data f payload [])).bytes s := rfl
    _ = deliverReply (Config.eof :: unaskedTrailing (f :: n :: payload)) { s with link := l₁, lsmOut := none } := by
      rw [hbytes, hsof, hbefore]
    _ = _ := deliverReply_cons_outcome (s := { s with link := l₁, lsmOut := none }) hx hend
      (resolve_failure (s := { s with link := l, lsmOut := _ }) hx rfl) _

/-- Settles O40: a data frame with no early end is reassembled whole (O41), another one ends at its first end marker. -/
theorem repliesYieldTheirOutcomes : Obligations.RepliesYieldTheirOutcomes := by
  intro s hidle hp hwaits ended
  have hroom : 260 ≤ s.params.rxBufBytes := by simpa [Params.wf] using hp
  have hx : s.xchg = .awaitRead ∨ s.xchg = .awaitWrite := hwaits.imp And.left And.left
  have hack := Link.step_idle_ack s.params hidle
  have hnak := Link.step_idle_nak s.params hidle
  refine ⟨fun hr => ⟨?_, ?_⟩, fun hw => ?_, fun f p hlen => ?_⟩
  · exact deliverReply_one (.inl hr) hack (resolve_acknowledged_read hr)
  · exact deliverReply_one (.inl hr) hnak (resolve_negativeAcknowledged_read hr)
  · have htask : s.task = .writeExchange := by
      rcases hwaits with ⟨hr, -⟩ | ⟨-, htask⟩
      · cases hr.symm.trans hw
      · exact htask
    exact ⟨deliverReply_one (.inr hw) hack (resolve_acknowledged_write hw htask),
      deliverReply_one (.inr hw) hnak (resolve_negativeAcknowledged_write hw htask)⟩
  · by_cases hwhole : s.params.etxMode = .lengthQualified ∨ Config.eof ∉ f :: BitVec.ofNat 8 p.length :: p
    · obtain ⟨t, hexec, hidle', -, -, -, -, hread, hwrite⟩ :=
        dataReplyIsReassembled s f p [] hidle (hwaits.imp_right And.left) hwhole hlen (by simp; omega)
      have hout : t.lsmOut = some (.frameComplete p) :=
        hx.elim (fun h => congrArg State.lsmOut (hread h)) (fun h => congrArg State.lsmOut (hwrite h))
      exact ⟨t, hexec, hidle', fun _ => hout, fun hany => iff_of_true hout (hwhole.resolve_left (by simp [hany])),
        fun _ => ⟨hread, hwrite⟩, fun hne => absurd hout hne⟩
    · obtain ⟨hmode, hmem⟩ := not_or.mp hwhole
      have hany := EtxMode.eq_anyEtx_of_ne hmode
      obtain ⟨l, hidle', hholds, hexec⟩ := exec_data_early hx hidle hany (not_not.mp hmem) hlen (by omega)
      refine ⟨_, hexec, hidle', fun h => absurd h hmode, fun _ => iff_of_false nofun hmem, nofun, fun _ => ?_⟩
      intro reply count expected
      have hcount : count = 2 + (keptTrailing (f :: BitVec.ofNat 8 p.length :: p)).length :=
        congrArg (2 + ·.length) (takeWhile_concat_eof (f :: BitVec.ofNat 8 p.length :: p))
      have htake := reply_take_kept (f :: BitVec.ofNat 8 p.length :: p)
      have hdrop := reply_drop_kept (f :: BitVec.ofNat 8 p.length :: p)
      rw [← hcount] at htake hdrop
      have hrxCount : l.rxCount = count := by rw [hholds.count, hcount]; simp; omega
      refine ⟨hrxCount, ?_, ?_⟩
      · exact (hrxCount ▸ hholds.readAll).trans (congrArg some htake.symm)
      · rw [show reply.drop count = _ from hdrop]
        simp only [expected, hcount]
        rfl

end Sys2Proof.Machine
end

section
/-! PROOFS. The exchange (44_exchange.md) up to its reply: what is refused (R182, R186), the table of outcomes (R189), and the
serialiser, with what a byte that the transport fails does to each operation (R183, R192, R201). -/

namespace Sys2Proof.Machine

/-! ### What is refused -/

theorem presentFrame_busy {n : Byte} {bytes : List Byte} {s : State} (hx : s.xchg ≠ .free) :
    presentFrame n bytes s = .refused .operationInProgress :=
  issue_busy hx _

theorem runExchange_busy {k : HostTask} {s : State} (hx : s.xchg ≠ .free) :
    runExchange k s = .refused .operationInProgress :=
  issue_busy hx _

theorem readSequence_busy {a : Word} {k : HostTask} {s : State} (hx : s.xchg ≠ .free) :
    readSequence a k s = .refused .operationInProgress :=
  issue_busy hx _

theorem writeSequence_busy {a v : Word} {k : HostTask} {s : State} (hx : s.xchg ≠ .free) :
    writeSequence a v k s = .refused .operationInProgress :=
  issue_busy hx _

theorem selectSequence_busy {a : Word} {id : Int} {k : HostTask} {s : State} (hx : s.xchg ≠ .free) :
    selectSequence a id k s = .refused .operationInProgress :=
  issue_busy hx _

/-- R211, R212: with or without its select, loading and saving a user set is an operation that is issued. -/
theorem selectOrWrite_busy {f : Bool} {selector a v : Word} {id : Int} {k k' : HostTask} {s : State} (hx : s.xchg ≠ .free) :
    (if f then selectSequence selector id k s else writeSequence a v k' s) = .refused .operationInProgress := by
  split
  · exact selectSequence_busy hx
  · exact writeSequence_busy hx

/-- With an exchange in flight the host is refused whatever it issues (R23, R182; log 16). -/
theorem exec_busy {i : Instr} {s : State} (hx : s.xchg ≠ .free)
    (hch : (encode i).ch = .op ∨ (encode i).ch = .host ∨ (encode i).ch = .frame) (hi : ∀ code, i ≠ .opUnassigned code) :
    exec i s = .refused .operationInProgress := by
  cases i with
  | ack | nak | data | rxIdleSof | rxIdleAck | rxIdleNak | rxIdleOther | rxAwaitOverflow | rxAwaitData | rxAwaitEtx
  | rxAwaitEtxShort | rxTimeout | rxIoError => simp [encode, encodeEvent] at hch
  | opUnassigned code => exact absurd rfl (hi code)
  | rdS | rdSC | rdX | rdXC | wrS | wrSC | wrX | wrXC => exact presentFrame_busy hx
  | readExchange | writeExchange => exact runExchange_busy hx
  | readEnum | readBool | readInfo | readString | writeBool | userSetGetCurrent | userSetGetDefault =>
    exact readSequence_busy hx
  | writeEnum | writeCommandReg => exact writeSequence_busy hx
  | userSetSelect | userSetDefaultSelect => exact selectSequence_busy hx
  | userSetLoad | userSetSave => exact selectOrWrite_busy hx
  | _ => dsimp only [exec]; exact issue_busy hx _

/-- With no exchange waiting a reply is refused at its first byte (R186). -/
theorem deliverReply_unrequested {s : State} (hx : s.xchg = .free ∨ s.xchg = .sending) (b : Byte) (bs : List Byte) :
    deliverReply (b :: bs) s = .refused .eventNotRequested := by
  rw [deliverReply, receive_unrequested hx, Res.andThen_refused]

theorem exec_unrequested {i : Instr} {s : State} (hx : s.xchg = .free ∨ s.xchg = .sending)
    (hch : (encode i).ch = .rx ∨ (encode i).ch = .reply) : exec i s = .refused .eventNotRequested := by
  rcases hch with hch | hch
  · obtain ⟨e, he, -⟩ := i.exists_event hch
    rw [exec_of_event he, receive_unrequested hx]
  · cases i with
    | ack | nak | data => exact deliverReply_unrequested hx _ _
    | _ => simp [encode, encodeEvent] at hch

/-- READ_EXCHANGE and WRITE_EXCHANGE start the blocking call when a frame is built (R182). -/
theorem runExchange_eq_drain {k : HostTask} {s : State} (hx : s.xchg = .free) (hlen : s.txLen ≠ 0) :
    runExchange k s = drain (beginExchange k { s with done := none }) := by
  rw [runExchange, issue_free hx, if_neg hlen]

theorem runExchange_noFrame {k : HostTask} {s : State} (hx : s.xchg = .free) (hlen : s.txLen = 0) :
    runExchange k s = .refused .noFrameBuilt := by
  rw [runExchange, issue_free hx, if_pos hlen]

/-- Settles O42, clause by clause. -/
theorem refusedOperations : Obligations.RefusedOperations :=
  ⟨fun _ hx hlen => ⟨runExchange_noFrame hx hlen, runExchange_noFrame hx hlen⟩, fun _ _ => exec_busy, fun _ _ => rfl,
    fun _ _ => exec_unrequested⟩

/-! ### The table of outcomes -/

/-- Settles O48: a failure ends both exchanges alike; the other outcomes are taken one by one. -/
theorem outcomesResolveAsTabled : Obligations.OutcomesResolveAsTabled :=
  fun _ => ⟨fun hx htask => ⟨resolve_frameComplete_read hx htask, resolve_acknowledged_read hx,
      resolve_negativeAcknowledged_read hx, fun _ _ _ => resolve_failure (.inl hx) rfl, resolve_failure (.inl hx) rfl,
      resolve_failure (.inl hx) rfl⟩,
    fun hx htask => ⟨resolve_frameComplete_write hx, resolve_acknowledged_write hx htask,
      resolve_negativeAcknowledged_write hx htask, fun _ _ _ => resolve_failure (.inr hx) rfl, resolve_failure (.inr hx) rfl,
      resolve_failure (.inr hx) rfl⟩⟩

/-! ### The serialiser -/

theorem Memory.readAll_cons_iff {m : Memory} {i n : Nat} {b : Byte} {bs : List Byte} :
    m.readAll i (n + 1) = some (b :: bs) ↔ m.read i = some b ∧ m.readAll (i + 1) n = some bs := by
  rw [Memory.readAll]
  cases m.read i <;> cases m.readAll (i + 1) n <;> simp

/-- The first bytes of a slice are the shorter slice. -/
theorem Memory.readAll_take {m : Memory} {i n k : Nat} {bytes : List Byte} (h : m.readAll i n = some bytes) (hk : k ≤ n) :
    m.readAll i k = some (bytes.take k) := by
  obtain ⟨hlen, hread⟩ := Memory.readAll_eq_some.mp h
  refine Memory.readAll_eq_some.mpr ⟨by rw [List.length_take]; omega, fun j hj => ?_⟩
  rw [hread j (by rw [List.length_take] at hj; omega), List.getElem_take]

/-- An accepted byte is counted, and behind the last one the exchange waits for its reply (R183). -/
theorem tick_accepted {s : State} {b : Byte} {rest : List TxAnswer} (hx : s.xchg = .sending) (hi : s.txIdx < s.txLen)
    (hb : s.txb.read s.txIdx = some b) (ha : s.txAnswers = .accepted :: rest) :
    tick s = .next { s with
      txAnswers := rest, txWire := s.txWire ++ [b], txIdx := s.txIdx + 1
      xchg := if s.txIdx + 1 < s.txLen then .sending else s.task.awaits } := by
  simp only [tick, hx, if_pos hi, sendByte, memRead_one hb, ha]

/-- A failed byte is not sent and ends the exchange with IoError (R183; log 24). -/
theorem tick_failed {s : State} {b : Byte} {rest : List TxAnswer} (hx : s.xchg = .sending) (hi : s.txIdx < s.txLen)
    (hb : s.txb.read s.txIdx = some b) (ha : s.txAnswers = .failed :: rest) :
    tick s = .next (State.endedWith { s with txAnswers := rest } ⟨.ioError, .none⟩) := by
  simp only [tick, hx, if_pos hi, sendByte, memRead_one hb, ha]
  rfl

/-- The serialiser at tx_idx, with an accepting transport: the next bytes of TXB go out in index order, and behind the last one
the exchange waits. -/
theorem drainFor_sends {s : State} {bytes : List Byte} {answers : List TxAnswer} (hx : s.xchg = .sending)
    (hi : s.txIdx < s.txLen) (hroom : s.txIdx + bytes.length ≤ s.txLen)
    (hread : s.txb.readAll s.txIdx bytes.length = some bytes)
    (ha : s.txAnswers = List.replicate bytes.length TxAnswer.accepted ++ answers) :
    drainFor bytes.length s = .next { s with
      txAnswers := answers, txWire := s.txWire ++ bytes, txIdx := s.txIdx + bytes.length
      xchg := if s.txIdx + bytes.length < s.txLen then .sending else s.task.awaits } := by
  induction bytes generalizing s with
  | nil =>
    obtain rfl : s.txAnswers = answers := ha
    simp [drainFor_zero, hi, ← hx]
  | cons b bs ih =>
    rw [List.length_cons] at hroom hread ha ⊢
    obtain ⟨hb, hbs⟩ := Memory.readAll_cons_iff.mp hread
    rw [drainFor_succ_eq, tick_accepted hx hi hb ha, Res.andThen_next]
    by_cases hlast : s.txIdx + 1 < s.txLen
    · rw [ih (if_pos hlast) hlast (by dsimp only; omega) hbs rfl]
      simp [Nat.add_assoc, Nat.add_comm 1]
    · obtain rfl : bs = [] := List.eq_nil_of_length_eq_zero (by omega)
      simp [drainFor_zero]

/-- The request has gone out and its exchange waits for the reply. -/
def State.awaitingReply (s : State) (k : HostTask) (bytes : List Byte) (answers : List TxAnswer) : State :=
  { s with txAnswers := answers, txWire := s.txWire ++ bytes, txIdx := s.txLen, task := k, xchg := k.awaits }

/-- Settles O43: the serialiser from index 0. -/
theorem serialiserSendsTheFrameInOrder : Obligations.SerialiserSendsTheFrameInOrder := by
  intro s k bytes answers hlen hread ha
  obtain ⟨hbytes, -⟩ := Memory.readAll_eq_some.mp hread
  rw [← hbytes] at hread ha hlen ⊢
  have hsends := drainFor_sends (s := beginExchange k s) rfl (show 0 < s.txLen by omega) (by simp [hbytes]) hread ha
  simpa [hbytes] using hsends

/-- Where no exchange was in flight before the call, the end of its exchange writes tx_idx and the completion only. -/
theorem State.endedWith_of_free {s : State} (hx : s.xchg = .free) (c : Completion) :
    s.endedWith c = { s with txIdx := 0, task := .idle, done := some c } := by
  rw [State.endedWith, ← hx]

/-- The bytes before the failed one are sent, and the call has ended with IoError (R183, R192 f). -/
theorem drainFor_failedSend {s : State} (call : HostTask) {k : Nat} {bytes : List Byte} {answers : List TxAnswer}
    (hk : k < s.txLen) (hread : s.txb.readAll 0 s.txLen = some bytes)
    (ha : s.txAnswers = List.replicate k TxAnswer.accepted ++ .failed :: answers) :
    drainFor (k + 1) (beginExchange call s) =
      .next (State.endedWith { s with txAnswers := answers, txWire := s.txWire ++ bytes.take k } ⟨.ioError, .none⟩) := by
  obtain ⟨hbytes, hbyte⟩ := Memory.readAll_eq_some.mp hread
  have htake : (bytes.take k).length = k := by rw [List.length_take]; omega
  have hsends := drainFor_sends (s := beginExchange call s) (bytes := bytes.take k) (answers := .failed :: answers) rfl
    (show 0 < s.txLen by omega) (by simp; omega) (by rw [htake]; exact Memory.readAll_take hread hk.le)
    (by rw [htake]; exact ha)
  rw [htake] at hsends
  have hnext : s.txb.read (0 + k) = some bytes[k] := hbyte k (by omega)
  rw [drainFor_add, hsends, Res.andThen_next, drainFor_succ_eq,
    tick_failed (by simp [hk]) (by simpa using hk) hnext rfl]
  rfl

/-- A call that has returned after some turns is what `drain` answers, if the listed answers reach that far. -/
theorem drain_eq_of_returns {s t : State} {n : Nat} (h : drainFor n s = .next t) (hx : t.xchg = .free)
    (hn : n ≤ s.unusedAnswers) : drain s = .next t := by
  obtain ⟨m, hm⟩ := Nat.exists_eq_add_of_le hn
  show drainFor s.unusedAnswers s = .next t
  rw [hm, drainFor_add, h, Res.andThen_next, drainFor_free hx]

theorem drain_failedSend {s : State} (hx : s.xchg = .free) (call : HostTask) {k : Nat} {bytes : List Byte}
    {answers : List TxAnswer} (hk : k < s.txLen) (hread : s.txb.readAll 0 s.txLen = some bytes)
    (ha : s.txAnswers = List.replicate k TxAnswer.accepted ++ .failed :: answers) :
    drain (beginExchange call s) = .next { s with
      txAnswers := answers, txWire := s.txWire ++ bytes.take k, txIdx := 0, task := .idle
      done := some ⟨.ioError, .none⟩ } := by
  have hreturns := drain_eq_of_returns (drainFor_failedSend call hk hread ha) rfl (by simp [State.unusedAnswers, ha]; omega)
  rw [State.endedWith_of_free] at hreturns
  exacts [hreturns, hx]

/-! ### The first request of a host sequence -/

/-- The state with a frame stored in TXB (R24, R100, R110). -/
def State.withFrame (s : State) (bytes : List Byte) : State :=
  { s with txb := (s.txb.writeAll 0 bytes).dropFrom bytes.length, txLen := bytes.length }

/-- The operation begins by building this request and sending it. -/
def SendsFirst (i : Instr) (bytes : List Byte) (s : State) : Prop :=
  ∃ k, exec i s = drain (beginExchange k (State.withFrame { s with done := none } bytes))

theorem readSequence_eq_drain {s : State} (hx : s.xchg = .free) (a : Word) (k : HostTask) :
    readSequence a k s = drain (beginExchange k (State.withFrame { s with done := none }
      (readFrame s.params.addrWidthMode s.params.useChecksum 4#8 a Config.fieldOffset))) := by
  rw [readSequence, issue_free hx, startRead, build_ok (by decide) (readFrame_fits ..)]
  rfl

theorem startWrite_eq (a v : Word) (k : HostTask) (s : State) :
    startWrite a v k s = .next (beginExchange k (s.withFrame
      (writeFrame s.params.addrWidthMode s.params.useChecksum 4#8 a Config.fieldOffset v))) := by
  rw [startWrite, build_ok (by decide) (writeFrame_fits ..)]
  rfl

theorem writeSequence_eq_drain {s : State} (hx : s.xchg = .free) (a v : Word) (k : HostTask) :
    writeSequence a v k s = drain (beginExchange k (State.withFrame { s with done := none }
      (writeFrame s.params.addrWidthMode s.params.useChecksum 4#8 a Config.fieldOffset v))) := by
  rw [writeSequence, issue_free hx, startWrite_eq, Res.andThen_next]

/-- R209, R210: an id in range is written to the selector. -/
theorem selectSequence_eq_drain {s : State} (hx : s.xchg = .free) (selector : Word) {id : Int} (k : HostTask)
    (hmin : 0 ≤ id) (hmax : id ≤ 3) :
    selectSequence selector id k s = drain (beginExchange k (State.withFrame { s with done := none }
      (writeFrame s.params.addrWidthMode s.params.useChecksum 4#8 selector Config.fieldOffset (BitVec.ofInt 32 id)))) := by
  have hrange : userSetInRange id = true := by simp [userSetInRange, hmin, hmax]
  rw [selectSequence, issue_free hx, if_pos hrange, startWrite_eq, Res.andThen_next]

/-- A failed byte of the first request ends the sequence with IoError (R201), with the request in TXB. -/
theorem SendsFirst.failedSend {i : Instr} {bytes : List Byte} {s : State} (h : SendsFirst i bytes s) {k : Nat}
    {answers : List TxAnswer} (hx : s.xchg = .free) (hk : k < bytes.length)
    (ha : s.txAnswers = List.replicate k TxAnswer.accepted ++ .failed :: answers) :
    ∃ t, exec i s = .next t ∧ hostReadTxb t 0 t.txLen = .ok bytes ∧
      t = { s with
        txb := t.txb, txLen := bytes.length, txIdx := 0, task := .idle, done := some ⟨.ioError, .none⟩
        txAnswers := answers, txWire := s.txWire ++ bytes.take k } := by
  obtain ⟨call, hexec⟩ := h
  have hread : ((s.txb.writeAll 0 bytes).dropFrom bytes.length).readAll 0 bytes.length = some bytes := storeFrame_readAll
  have hfails := drain_failedSend (s := State.withFrame { s with done := none } bytes) hx call hk hread ha
  exact ⟨_, hexec.trans hfails, (if_pos (Nat.zero_add bytes.length).le).trans (memRead_ok_iff.mpr hread), rfl⟩

/-- Settles O44: the send of any call fails alike, and each sequence begins with the send of its first request. -/
theorem failedSendRaisesIoError : Obligations.FailedSendRaisesIoError := by
  intro s k answers ha
  refine ⟨fun bytes hk hread => ⟨fun hx => ?_, fun call => drainFor_failedSend call hk hread ha⟩, ?_⟩
  · have hends (call : HostTask) := (runExchange_eq_drain (k := call) hx (by omega)).trans
      (drain_failedSend (s := { s with done := none }) hx call hk hread ha)
    rw [List.forall_mem_cons, List.forall_mem_singleton]
    exact ⟨hends .readExchange, hends .writeExchange⟩
  · intro a v flag id anyId hx hmin hmax read write e he hk
    refine SendsFirst.failedSend ?_ hx hk ha
    have hread (a : Word) (k : HostTask) := readSequence_eq_drain hx a k
    have hwrite (a v : Word) (k : HostTask) := writeSequence_eq_drain hx a v k
    have hselect (a : Word) (k : HostTask) := selectSequence_eq_drain hx a k hmin hmax
    clear hk
    revert e
    simp only [List.forall_mem_cons]
    exact ⟨⟨_, hread ..⟩, ⟨_, hread ..⟩, ⟨_, hread ..⟩, ⟨_, hread ..⟩, ⟨_, hread ..⟩, ⟨_, hread ..⟩, ⟨_, hread ..⟩,
      ⟨_, hwrite ..⟩, ⟨_, hwrite ..⟩, ⟨_, hselect ..⟩, ⟨_, hselect ..⟩, ⟨_, hselect ..⟩, ⟨_, hselect ..⟩, ⟨_, hwrite ..⟩,
      ⟨_, hwrite ..⟩, List.forall_mem_nil _⟩

end Sys2Proof.Machine
end

section
/-! PROOFS. The reply of an exchange (44_exchange.md R186 to R189): what an exchange waits through, the events that end it, and a
data frame in the transport, which does what its row of the instruction table does (43_link_state_machine.md R165). -/

namespace Sys2Proof.Machine

/-! ### What an exchange waits through -/

/-- In Idle a byte that an exchange passes over (R189): noise, and in a read an acknowledge. -/
def XchgState.PassesOver (x : XchgState) (b : Byte) : Prop :=
  b ≠ Config.sof ∧ b ≠ Config.nak ∧ (b = Config.ack → x = .awaitRead)

theorem noiseDiags_cons (b : Byte) (bs : List Byte) : noiseDiags (b :: bs) = noiseDiags [b] ++ noiseDiags bs := by
  rw [noiseDiags, noiseDiags, noiseDiags, ← List.map_append, ← List.filter_append]
  rfl

/-- A byte passed over shows in the last outcome and the diagnostics only (R157, R158, R189). -/
theorem receive_passedOver {s : State} (hx : s.xchg = .awaitRead ∨ s.xchg = .awaitWrite) (hidle : s.link.rxState = .idle)
    {b : Byte} (hb : s.xchg.PassesOver b) :
    ∃ o, receive (.byte b) s = .next { s with lsmOut := o, diag := s.diag ++ noiseDiags [b] } := by
  obtain ⟨hsof, hnak, hread⟩ := hb
  by_cases hack : b = Config.ack
  · obtain rfl := hack
    have hackd := (receive_outcome hx (Link.step_idle_ack s.params hidle)).trans (resolve_acknowledged_read (hread rfl))
    exact ⟨some .acknowledged, by rw [hackd]; simp [noiseDiags]⟩
  · refine ⟨none, ?_⟩
    rw [receive_waiting hx, processEvent_eq (Link.step_idle_noise s.params hidle hsof hack hnak)]
    simp [noiseDiags, hack]

/-- An exchange that waits takes the next listed event (R164). -/
theorem tick_waiting {s : State} (hx : s.xchg = .awaitRead ∨ s.xchg = .awaitWrite) {e : RxEvent} {rest : List RxEvent}
    (hq : s.rxQueue = e :: rest) : tick s = receive e { s with rxQueue := rest } := by
  rcases hx with hx | hx <;> simp only [tick, hx, takeEvent, hq]

theorem drainFor_one (s : State) : drainFor 1 s = tick s := by
  rw [drainFor_succ_eq]
  cases tick s <;> rfl

/-- The state behind bytes passed over, with the events behind them still to come. -/
def State.passedOver (s : State) (before : List Byte) (rest : List RxEvent) (o : Option LinkOutcome) : State :=
  { s with rxQueue := rest, lsmOut := o, diag := s.diag ++ noiseDiags before }

theorem drainFor_passesOver {s : State} {before : List Byte} {rest : List RxEvent}
    (hx : s.xchg = .awaitRead ∨ s.xchg = .awaitWrite) (hidle : s.link.rxState = .idle)
    (hbefore : ∀ b ∈ before, s.xchg.PassesOver b) (hq : s.rxQueue = asEvents before ++ rest) :
    ∃ o, drainFor before.length s = .next (s.passedOver before rest o) := by
  induction before generalizing s with
  | nil =>
    obtain rfl : s.rxQueue = rest := hq
    exact ⟨s.lsmOut, by simp [drainFor_zero, State.passedOver, noiseDiags]⟩
  | cons b bs ih =>
    rw [List.forall_mem_cons] at hbefore
    obtain ⟨o, hrecv⟩ := receive_passedOver (s := { s with rxQueue := asEvents bs ++ rest }) hx hidle hbefore.1
    obtain ⟨o', hrest⟩ := ih (s := { s with
      rxQueue := asEvents bs ++ rest, lsmOut := o, diag := s.diag ++ noiseDiags [b] }) hx hidle hbefore.2 rfl
    refine ⟨o', ?_⟩
    rw [List.length_cons, drainFor_succ_eq, tick_waiting hx (rest := asEvents bs ++ rest) hq, hrecv,
      Res.andThen_next, hrest]
    simp only [State.passedOver, List.append_assoc, ← noiseDiags_cons]

/-- The call waits, with its request sent and what came before the reply passed over. -/
def State.atReply (s : State) (k : HostTask) (bytes : List Byte) (answers : List TxAnswer) (before : List Byte)
    (rest : List RxEvent) (o : Option LinkOutcome) : State :=
  (State.awaitingReply { s with done := none } k bytes answers).passedOver before rest o

/-- An exchange sends its request and passes over what comes before the reply; if it returns within the events of the reply, that
is how the call ends. -/
theorem runExchange_of_reply {s : State} {k : HostTask} {bytes before : List Byte} {answers : List TxAnswer}
    {events later : List RxEvent} (hx : s.xchg = .free) (hidle : s.link.rxState = .idle) (hlen : s.txLen ≠ 0)
    (hread : s.txb.readAll 0 s.txLen = some bytes) (hbefore : ∀ b ∈ before, k.awaits.PassesOver b)
    (hscript : scripted s s.txLen answers (asEvents before ++ events) later) :
    ∃ o, ∀ n t, n ≤ events.length → t.xchg = .free →
      drainFor n (s.atReply k bytes answers before (events ++ later) o) = .next t → runExchange k s = .next t := by
  obtain ⟨ha, hq⟩ := hscript
  have hsent : drainFor s.txLen (beginExchange k { s with done := none }) =
      .next (State.awaitingReply { s with done := none } k bytes answers) :=
    serialiserSendsTheFrameInOrder { s with done := none } k bytes answers hlen hread ha
  obtain ⟨o, hpassed⟩ := drainFor_passesOver (s := State.awaitingReply { s with done := none } k bytes answers)
    (rest := events ++ later) k.awaits_eq hidle hbefore (hq.trans (List.append_assoc ..))
  refine ⟨o, fun n t hn ht hreply => ?_⟩
  rw [runExchange_eq_drain hx hlen]
  refine drain_eq_of_returns (n := s.txLen + (before.length + n)) ?_ ht ?_
  · rw [drainFor_add, hsent, Res.andThen_next, drainFor_add, hpassed, Res.andThen_next]
    exact hreply
  · simp [State.unusedAnswers, ha, hq, asEvents]; omega

/-! ### A reply of one event -/

theorem Link.step_idle_timeout (p : Params) {l : Link} (h : l.rxState = .idle) :
    l.step p .timeout = .ok ⟨l, some .timeout, none⟩ := by
  simp [Link.step, Link.finish, Link.idle_eta h]

theorem Link.step_idle_ioError (p : Params) {l : Link} (h : l.rxState = .idle) :
    l.step p .ioError = .ok ⟨l, some .ioError, none⟩ := by
  simp [Link.step, Link.finish, Link.idle_eta h]

/-- Received in Idle by the call k that waits, the event emits o and ends the call with c. -/
def EndsCall (k : HostTask) (e : RxEvent) (c : Completion) (o : LinkOutcome) : Prop :=
  ∀ u : State, u.xchg = k.awaits → u.task = k → u.link.rxState = .idle →
    receive e u = .next (State.endedWith { u with lsmOut := some o } c)

theorem endsCall_timeout (k : HostTask) : EndsCall k .timeout ⟨.timeout, .none⟩ .timeout :=
  fun u hx _ hidle => receive_failure (hx ▸ k.awaits_eq) (Link.step_idle_timeout u.params hidle) rfl

theorem endsCall_ioError (k : HostTask) : EndsCall k .ioError ⟨.ioError, .none⟩ .ioError :=
  fun u hx _ hidle => receive_failure (hx ▸ k.awaits_eq) (Link.step_idle_ioError u.params hidle) rfl

theorem endsCall_nak_read : EndsCall .readExchange (.byte Config.nak) ⟨.nak, .none⟩ .negativeAcknowledged :=
  fun u hx _ hidle =>
    (receive_outcome (.inl hx) (Link.step_idle_nak u.params hidle)).trans (resolve_negativeAcknowledged_read hx)

theorem endsCall_ack_write : EndsCall .writeExchange (.byte Config.ack) ⟨.ok, .bool true⟩ .acknowledged :=
  fun u hx htask hidle =>
    (receive_outcome (.inr hx) (Link.step_idle_ack u.params hidle)).trans (resolve_acknowledged_write hx htask)

theorem endsCall_nak_write : EndsCall .writeExchange (.byte Config.nak) ⟨.ok, .bool false⟩ .negativeAcknowledged :=
  fun u hx htask hidle =>
    (receive_outcome (.inr hx) (Link.step_idle_nak u.params hidle)).trans (resolve_negativeAcknowledged_write hx htask)

/-- Behind noise an event that ends the call is how the exchange returns; nothing of the link state machine changes. -/
theorem EndsCall.runExchange_eq {k : HostTask} {e : RxEvent} {c : Completion} {out : LinkOutcome} (he : EndsCall k e c out)
    {s : State} {bytes before : List Byte} {answers : List TxAnswer} {later : List RxEvent} (hx : s.xchg = .free)
    (hidle : s.link.rxState = .idle) (hlen : s.txLen ≠ 0) (hread : s.txb.readAll 0 s.txLen = some bytes)
    (hbefore : ∀ b ∈ before, k.awaits.PassesOver b) (hscript : scripted s s.txLen answers (asEvents before ++ [e]) later) :
    runExchange k s = .next { s with
      txIdx := 0, task := .idle, done := some c, txAnswers := answers, txWire := s.txWire ++ bytes
      rxQueue := later, lsmOut := some out, diag := s.diag ++ noiseDiags before } := by
  obtain ⟨o, hreturns⟩ := runExchange_of_reply hx hidle hlen hread hbefore hscript
  have hturn := (drainFor_one _).trans
    (tick_waiting (s := s.atReply k bytes answers before ([e] ++ later) o) k.awaits_eq rfl)
  have hends := he (s.atReply k bytes answers before later o) rfl rfl hidle
  refine (hreturns 1 _ (Nat.le_refl 1) (by rfl) (hturn.trans hends)).trans ?_
  exact congrArg _ (State.endedWith_of_free (s := { s with
    txAnswers := answers, txWire := s.txWire ++ bytes, rxQueue := later, lsmOut := some out
    diag := s.diag ++ noiseDiags before }) hx c)

theorem passesOver_read {b : Byte} (h : b ≠ Config.sof ∧ b ≠ Config.nak) : XchgState.awaitRead.PassesOver b := by
  obtain ⟨hsof, hnak⟩ := h
  exact ⟨hsof, hnak, fun _ => rfl⟩

theorem passesOver_write {b : Byte} (h : b ≠ Config.sof ∧ b ≠ Config.ack ∧ b ≠ Config.nak) :
    XchgState.awaitWrite.PassesOver b := by
  obtain ⟨hsof, hack, hnak⟩ := h
  exact ⟨hsof, hnak, fun h => absurd h hack⟩

/-- Settles O46, by the event behind the noise. -/
theorem readExchangeRaisesWhatItMeets : Obligations.ReadExchangeRaisesWhatItMeets := by
  intro s bytes before answers later hx hidle hlen hread hbefore
  have hpass (b : Byte) (hb : b ∈ before) := passesOver_read (hbefore b hb)
  simp only [List.forall_mem_cons]
  exact ⟨endsCall_nak_read.runExchange_eq hx hidle hlen hread hpass,
    (endsCall_timeout _).runExchange_eq hx hidle hlen hread hpass,
    (endsCall_ioError _).runExchange_eq hx hidle hlen hread hpass, List.forall_mem_nil _⟩

/-- Settles O47, by the event behind the noise. -/
theorem writeExchangeReturnsTheAnswer : Obligations.WriteExchangeReturnsTheAnswer := by
  intro s bytes before answers later hx hidle hlen hread hbefore
  have hpass (b : Byte) (hb : b ∈ before) := passesOver_write (hbefore b hb)
  simp only [List.forall_mem_cons]
  exact ⟨endsCall_ack_write.runExchange_eq hx hidle hlen hread hpass,
    endsCall_nak_write.runExchange_eq hx hidle hlen hread hpass,
    (endsCall_timeout _).runExchange_eq hx hidle hlen hread hpass,
    (endsCall_ioError _).runExchange_eq hx hidle hlen hread hpass, List.forall_mem_nil _⟩

/-! ### Receiving does not look at the events behind (R62) -/

/-- The state with other events in the transport. -/
def State.withQueue (s : State) (q : List RxEvent) : State := { s with rxQueue := q }

/-- What is answered, with other events behind it. -/
def Res.withQueue (r : Res) (q : List RxEvent) : Res := r.andThen fun t => .next (t.withQueue q)

theorem build_withQueue {n : Byte} {bytes : List Byte} {f : State → Res} {q : List RxEvent}
    (hf : ∀ u : State, f (u.withQueue q) = (f u).withQueue q) (s : State) :
    build n bytes (s.withQueue q) f = (build n bytes s f).withQueue q := by
  by_cases hn : n = 0#8
  · rw [hn, build_zero, build_zero]; rfl
  · rw [build, build, if_neg hn, if_neg hn, storeFrame, storeFrame, show (s.withQueue q).txb = s.txb from rfl]
    cases memWrite Config.txBufBytes s.txb 0 bytes with
    | ok m => exact hf { s with txb := m.dropFrom bytes.length, txLen := bytes.length }
    | error e => rfl

theorem startRead_withQueue (n : Byte) (a : Word) (o : Byte) (k : HostTask) (s : State) (q : List RxEvent) :
    startRead n a o k (s.withQueue q) = (startRead n a o k s).withQueue q :=
  build_withQueue (fun _ => rfl) s

theorem startWrite_withQueue (a v : Word) (k : HostTask) (s : State) (q : List RxEvent) :
    startWrite a v k (s.withQueue q) = (startWrite a v k s).withQueue q :=
  build_withQueue (fun _ => rfl) s

theorem startSecondPhase_withQueue (z a : Word) (k : HostTask) (s : State) (q : List RxEvent) :
    startSecondPhase z a k (s.withQueue q) = (startSecondPhase z a k s).withQueue q := by
  unfold startSecondPhase
  split
  · exact startRead_withQueue ..
  · rfl

theorem resumeRead_withQueue (k : HostTask) (p : List Byte) (s : State) (q : List RxEvent) :
    resumeRead k p (s.withQueue q) = (resumeRead k p s).withQueue q := by
  cases k with
  | infoSize a =>
    simp only [resumeRead]
    split
    · exact startSecondPhase_withQueue _ _ _ { s with diag := _ } q
    · exact startSecondPhase_withQueue ..
  | stringSize a => exact startSecondPhase_withQueue ..
  | boolRead a f => exact startWrite_withQueue ..
  | readBool => cases p <;> rfl
  | _ => rfl

theorem resumeWrite_withQueue (k : HostTask) (ok : Bool) (s : State) (q : List RxEvent) :
    resumeWrite k ok (s.withQueue q) = (resumeWrite k ok s).withQueue q := by
  cases k with
  | selectThen c =>
    cases ok with
    | true => exact startWrite_withQueue ..
    | false => rfl
  | _ => rfl

theorem resolve_withQueue (o : LinkOutcome) (s : State) (q : List RxEvent) :
    resolve o (s.withQueue q) = (resolve o s).withQueue q := by
  rw [resolve, resolve, show (s.withQueue q).xchg = s.xchg from rfl]
  cases s.xchg with
  | free | sending => rfl
  | awaitRead =>
    cases o with
    | frameComplete p => exact resumeRead_withQueue s.task p (finishExchange s) q
    | _ => rfl
  | awaitWrite =>
    cases o with
    | acknowledged | negativeAcknowledged => exact resumeWrite_withQueue s.task _ (finishExchange s) q
    | _ => rfl

theorem processEvent_withQueue (e : RxEvent) (s : State) (q : List RxEvent) :
    processEvent e (s.withQueue q) = (processEvent e s).withQueue q := by
  rw [processEvent, processEvent, show (s.withQueue q).link.step (s.withQueue q).params e = s.link.step s.params e from rfl]
  cases s.link.step s.params e with
  | error f => rfl
  | ok r =>
    obtain ⟨l, o, d⟩ := r
    cases o with
    | none => rfl
    | some o => exact resolve_withQueue o { s with link := l, lsmOut := some o, diag := s.diag ++ d.toList } q

theorem receive_withQueue (e : RxEvent) (s : State) (q : List RxEvent) :
    receive e (s.withQueue q) = (receive e s).withQueue q := by
  rw [receive, receive, show (s.withQueue q).xchg = s.xchg from rfl]
  cases s.xchg with
  | free | sending => rfl
  | awaitRead | awaitWrite => exact processEvent_withQueue e s q

/-- Everything one receive event can do: a transition without an outcome leaves the exchange as it was, and one with an outcome
has it resolved (R62 b, R240). -/
theorem receive_cases {e : RxEvent} {s t : State} (h : receive e s = .next t) :
    ∃ (l : Link) (d : List Diag),
      t = { s with link := l, lsmOut := none, diag := d } ∨
        ∃ o, resolve o { s with link := l, lsmOut := some o, diag := d } = .next t := by
  obtain ⟨hx, h⟩ := receive_eq_next.mp h
  obtain ⟨⟨l, out, d⟩, hstep, -⟩ := receive_link ((receive_waiting hx e).trans h)
  rw [processEvent_eq hstep] at h
  refine ⟨l, s.diag ++ d.toList, ?_⟩
  cases out with
  | none => cases h; exact .inl rfl
  | some o => exact .inr ⟨o, h⟩

theorem receive_xchg_of_silent {e : RxEvent} {s t : State} (h : receive e s = .next t) (hout : t.lsmOut = none) :
    t.xchg = s.xchg := by
  obtain ⟨l, d, rfl | ⟨o, ho⟩⟩ := receive_cases h
  · rfl
  · obtain ⟨-, -, hsame, -⟩ := resolve_sameLink ho
    cases hsame.symm.trans hout

/-- A reply put to the framer whole is what a waiting call makes of its bytes up to the first outcome, when the transport lists
them (R164; log 18). -/
theorem exists_drainFor_eq_deliverReply {bytes : List Byte} {s : State} (hx : s.xchg = .awaitRead ∨ s.xchg = .awaitWrite) :
    ∃ n ≤ bytes.length, drainFor n (s.withQueue (asEvents bytes ++ s.rxQueue)) = deliverReply bytes s := by
  induction bytes generalizing s with
  | nil => exact ⟨0, Nat.le_refl 0, rfl⟩
  | cons b bs ih =>
    have hturn : tick (s.withQueue (asEvents (b :: bs) ++ s.rxQueue)) =
        (receive (.byte b) s).withQueue (asEvents bs ++ s.rxQueue) :=
      (tick_waiting (s := s.withQueue (asEvents (b :: bs) ++ s.rxQueue)) hx rfl).trans
        (receive_withQueue (.byte b) s (asEvents bs ++ s.rxQueue))
    rw [deliverReply]
    cases hrecv : receive (.byte b) s with
    | fault e => exact ⟨1, by simp, by rw [drainFor_one, hturn, hrecv]; rfl⟩
    | refused e => exact ⟨1, by simp, by rw [drainFor_one, hturn, hrecv]; rfl⟩
    | next u =>
      obtain ⟨-, -, -, -, -, -, hqueue, -, -⟩ := receive_link hrecv
      rw [hrecv, ← hqueue] at hturn
      rw [← hqueue, Res.andThen_next]
      split
      · exact ⟨1, by simp, (drainFor_one _).trans hturn⟩
      · rename_i hsilent
        have hxu := receive_xchg_of_silent hrecv (by simpa using hsilent)
        obtain ⟨n, hn, hrest⟩ := ih (hxu ▸ hx)
        refine ⟨n + 1, by simpa using hn, ?_⟩
        rw [drainFor_succ_eq, hturn, ← hrest]
        rfl

/-! ### A data frame as the reply -/

/-- A data frame without trailing bytes is its bytes (R81). -/
theorem exec_data_eq (f : Byte) (payload : List Byte) : exec (.data f payload []) = deliverReply (dataFrame f payload) := by
  have hbytes : (encode (.data f payload [])).bytes = dataFrame f payload := by simp [encode, dataFrame]
  rw [← hbytes]
  rfl

/-- Settles O45: behind what is passed over, the events of the data frame are its row (O41). -/
theorem readExchangeReturnsThePayload : Obligations.ReadExchangeReturnsThePayload := by
  intro s bytes before f payload answers later hx hidle hp hmode hlen hread hpayload hbefore hscript
  have hpass (b : Byte) (hb : b ∈ before) := passesOver_read (hbefore b hb)
  have hroom : 260 ≤ s.params.rxBufBytes := by simpa [Params.wf] using hp
  have hscript' : scripted s s.txLen answers (asEvents before ++ asEvents (dataFrame f payload)) later := by
    simpa [scripted, asEvents] using hscript
  obtain ⟨o, hreturns⟩ := runExchange_of_reply (k := .readExchange) hx hidle hlen hread hpass hscript'
  have hx' : (s.atReply .readExchange bytes answers before later o).xchg = .awaitRead := rfl
  obtain ⟨t, hexec, hidle', hcount, hreply, -, -, hended, -⟩ := dataReplyIsReassembled
    (s.atReply .readExchange bytes answers before later o) f payload [] hidle (.inl ⟨hx', rfl⟩) (.inl hmode) hpayload
    ((show 4 + payload.length ≤ 260 by omega).trans hroom)
  obtain ⟨n, hn, hrun⟩ := exists_drainFor_eq_deliverReply (bytes := dataFrame f payload) (.inl hx')
  rw [← exec_data_eq, hexec] at hrun
  have ht := hended hx'
  have hdone : t.done = some ⟨.ok, .bytes payload⟩ := congrArg State.done ht
  refine ⟨t, hreturns n t (by simpa [asEvents] using hn) (congrArg State.xchg ht) hrun, hdone, hidle', hcount, ?_, ?_⟩
  · simpa [dataFrame] using hreply
  · rw [hdone]
    exact ht.trans (State.endedWith_of_free (s := { s with
      link := t.link, txAnswers := answers, txWire := s.txWire ++ bytes, rxQueue := later
      lsmOut := some (.frameComplete payload), diag := s.diag ++ noiseDiags before }) hx _)

end Sys2Proof.Machine
end

section
/-! PROOFS. How an exchange ends (44_exchange.md R190, R247; 60_exceptions.md R242): it starts no further
request, so its frame stays in TXB. -/

namespace Sys2Proof.Machine

/-- READ_EXCHANGE and WRITE_EXCHANGE, which start no further request (R187, R188). -/
def HostTask.IsExchange (k : HostTask) : Prop := k = .readExchange ∨ k = .writeExchange

theorem HostTask.IsExchange.resumeRead_eq {k : HostTask} (hk : k.IsExchange) (p : List Byte) (s : State) :
    resumeRead k p s = complete (.bytes p) s := by
  rcases hk with rfl | rfl <;> rfl

theorem HostTask.IsExchange.resumeWrite_eq {k : HostTask} (hk : k.IsExchange) (ok : Bool) (s : State) :
    resumeWrite k ok s = complete (.bool ok) s := by
  rcases hk with rfl | rfl <;> rfl

/-- The frame stays in TXB, and what is in flight, if anything, is the one exchange. -/
structure State.KeepsFrame (s t : State) : Prop where
  txb      : t.txb = s.txb
  txLen    : t.txLen = s.txLen
  inFlight : t.xchg ≠ .free → t.task.IsExchange

theorem State.KeepsFrame.trans {s t u : State} (h : s.KeepsFrame t) (h' : t.KeepsFrame u) : s.KeepsFrame u :=
  ⟨h'.txb.trans h.txb, h'.txLen.trans h.txLen, h'.inFlight⟩

theorem resolve_keepsFrame {o : LinkOutcome} {s t : State} (hk : s.task.IsExchange) (h : resolve o s = .next t) :
    s.KeepsFrame t := by
  have ignored (h : Host.Outcome.next s = (.next t : Res)) : s.KeepsFrame t := by cases h; exact ⟨rfl, rfl, fun _ => hk⟩
  have completed {r : OpResult} (h : complete r (finishExchange s) = .next t) : s.KeepsFrame t := by
    cases h; exact ⟨rfl, rfl, fun hx => absurd rfl hx⟩
  have raised {k : Status} (h : raiseError k (finishExchange s) = .next t) : s.KeepsFrame t := by
    cases h; exact ⟨rfl, rfl, fun hx => absurd rfl hx⟩
  unfold resolve at h
  split at h
  · exact ignored h
  · exact ignored h
  · cases o with
    | frameComplete p => exact completed ((hk.resumeRead_eq p _).symm.trans h)
    | acknowledged => exact ignored h
    | _ => exact raised h
  · cases o with
    | frameComplete p => exact ignored h
    | acknowledged | negativeAcknowledged => exact completed ((hk.resumeWrite_eq _ _).symm.trans h)
    | _ => exact raised h

theorem receive_keepsFrame {e : RxEvent} {s t : State} (hk : s.task.IsExchange) (h : receive e s = .next t) :
    s.KeepsFrame t := by
  obtain ⟨l, d, rfl | ⟨o, ho⟩⟩ := receive_cases h
  · exact ⟨rfl, rfl, fun _ => hk⟩
  · have hkeeps := resolve_keepsFrame (s := { s with link := l, lsmOut := some o, diag := d }) hk ho
    exact ⟨hkeeps.txb, hkeeps.txLen, hkeeps.inFlight⟩

theorem tick_keepsFrame {s t : State} (hk : s.task.IsExchange) (h : tick s = .next t) : s.KeepsFrame t := by
  rcases tick_cases h with ⟨-, rfl⟩ | ⟨-, -, hsend⟩ | ⟨-, -, rfl⟩ | ⟨-, ⟨-, rfl⟩ | ⟨e, rest, -, hrecv⟩⟩
  · exact ⟨rfl, rfl, fun _ => hk⟩
  · obtain ⟨b, -, ⟨-, rfl⟩ | ⟨rest, -, rfl⟩ | ⟨rest, -, rfl⟩⟩ := sendByte_cases hsend
    · exact ⟨rfl, rfl, fun _ => hk⟩
    · exact ⟨rfl, rfl, fun _ => hk⟩
    · exact ⟨rfl, rfl, fun hx => absurd rfl hx⟩
  · exact ⟨rfl, rfl, fun _ => hk⟩
  · exact ⟨rfl, rfl, fun _ => hk⟩
  · have hkeeps := receive_keepsFrame (s := { s with rxQueue := rest }) hk hrecv
    exact ⟨hkeeps.txb, hkeeps.txLen, hkeeps.inFlight⟩

theorem drain_keepsFrame {s t : State} (hk : s.task.IsExchange) (h : drain s = .next t) : s.KeepsFrame t :=
  drainFor_keeps (P := s.KeepsFrame) (fun _ _ hu hx htick => hu.trans (tick_keepsFrame (hu.inFlight hx) htick)) _ _ _
    ⟨rfl, rfl, fun _ => hk⟩ h

theorem runExchange_keepsFrame {k : HostTask} (hk : k.IsExchange) {s t : State} (h : runExchange k s = .next t) :
    t.txb = s.txb ∧ t.txLen = s.txLen := by
  obtain ⟨-, h⟩ := issue_eq_next.mp h
  split at h
  · cases h
  · have hkeeps := drain_keepsFrame (s := beginExchange k _) hk h
    exact ⟨hkeeps.txb, hkeeps.txLen⟩

/-- Settles O49: an exchange has returned or is blocked (O50), and the invariant (O8) says what that leaves. -/
theorem exchangeEndsCleanOrIsBlocked : Obligations.ExchangeEndsCleanOrIsBlocked := by
  intro i hi s t hs h
  obtain ⟨k, hk, hrun⟩ : ∃ k : HostTask, k.IsExchange ∧ runExchange k s = .next t := by
    simp only [List.mem_cons, List.not_mem_nil, or_false] at hi
    rcases hi with rfl | rfl
    · exact ⟨.readExchange, .inl rfl, h⟩
    · exact ⟨.writeExchange, .inr rfl, h⟩
  obtain ⟨htxb, hlen⟩ := runExchange_keepsFrame hk hrun
  obtain ⟨-, -, -, hseq⟩ := exec_inv hs h
  refine ⟨htxb, hlen, ?_⟩
  rcases runExchange_returned_or_blocked hrun with ⟨hx, hd⟩ | ⟨hd, hblocked⟩
  · obtain ⟨-, hidx, hidle⟩ := (State.seqInv_of_free hx).mp hseq
    exact ⟨fun _ => ⟨hx, hidx, hidle⟩, fun hd' => absurd hd' hd⟩
  · refine ⟨fun hd' => absurd hd hd', fun _ => hblocked.imp_right fun ⟨hx, hq⟩ => ?_⟩
    obtain ⟨-, -, -, hidx⟩ := (State.seqInv_of_waiting hx).mp hseq
    exact ⟨hx, hidx, hq⟩

end Sys2Proof.Machine
end

section
/-! PROOFS. The host layer (45_register_sequences.md): a sequence is one exchange behind another, each with its own part of what the
environment answers, and the continuation of its call between them (R202 to R214). -/

namespace Sys2Proof.Machine

/-! ### A blocking call, exchange by exchange -/

theorem drain_free {s : State} (hx : s.xchg = .free) : drain s = .next s :=
  drainFor_free hx _

/-- A call that waits takes the next listed event, and goes on (R164). -/
theorem drain_waiting {s : State} (hx : s.xchg = .awaitRead ∨ s.xchg = .awaitWrite) {e : RxEvent} {rest : List RxEvent}
    (hq : s.rxQueue = e :: rest) : drain s = (receive e (s.withQueue rest)).andThen drain := by
  have hturns : drain s = drainFor (s.txAnswers.length + rest.length + 1) s := by rw [drain, hq]; rfl
  have hturn : tick s = receive e (s.withQueue rest) := tick_waiting hx hq
  rw [hturns, drainFor_succ_eq, hturn]
  cases hrecv : receive e (s.withQueue rest) with
  | next t =>
    obtain ⟨-, -, -, -, -, hanswers, hqueue, -⟩ := receive_link hrecv
    have hleft : drain t = drainFor (s.txAnswers.length + rest.length) t := by rw [drain, hanswers, hqueue]; rfl
    exact hleft.symm
  | fault e | refused e => rfl

/-- A reply in the transport is the reply put to the framer whole, and the call goes on behind it (R164; log 18). -/
theorem drain_reply {bytes : List Byte} {later : List RxEvent} {s : State}
    (hx : s.xchg = .awaitRead ∨ s.xchg = .awaitWrite) (hq : s.rxQueue = asEvents bytes ++ later) :
    drain s = (deliverReply bytes (s.withQueue later)).andThen drain := by
  induction bytes generalizing s with
  | nil => rw [deliverReply, Res.andThen_next, State.withQueue, ← show s.rxQueue = later from hq]
  | cons b bs ih =>
    have hbehind : receive (.byte b) (s.withQueue (asEvents bs ++ later)) =
        (receive (.byte b) (s.withQueue later)).withQueue (asEvents bs ++ later) :=
      receive_withQueue (.byte b) (s.withQueue later) (asEvents bs ++ later)
    rw [drain_waiting hx (rest := asEvents bs ++ later) hq, hbehind, deliverReply]
    cases hrecv : receive (.byte b) (s.withQueue later) with
    | fault e | refused e => rfl
    | next u =>
      obtain ⟨-, -, -, -, -, -, hqueue, -⟩ := receive_link hrecv
      obtain rfl : u.rxQueue = later := hqueue
      rw [Res.andThen_next]
      split
      · rfl
      · rename_i hsilent
        have hxu := receive_xchg_of_silent (s := s.withQueue u.rxQueue) hrecv (by simpa using hsilent)
        exact ih (s := u.withQueue (asEvents bs ++ u.rxQueue)) (hxu ▸ hx) rfl

/-- The transport accepts the request, and the call goes on behind its last byte (R183). -/
theorem drain_sends {s : State} (k : HostTask) {request : List Byte} {answers : List TxAnswer} (hne : request ≠ [])
    (ha : s.txAnswers = List.replicate request.length TxAnswer.accepted ++ answers) :
    drain (beginExchange k (s.withFrame request)) = drain ((s.withFrame request).awaitingReply k request answers) := by
  have hsent : drainFor request.length (beginExchange k (s.withFrame request)) =
      .next ((s.withFrame request).awaitingReply k request answers) :=
    serialiserSendsTheFrameInOrder (s.withFrame request) k request answers
      (List.length_pos_of_ne_nil hne).ne' storeFrame_readAll ha
  have hturns : drain (beginExchange k (s.withFrame request)) =
      drainFor (request.length + (answers.length + s.rxQueue.length)) (beginExchange k (s.withFrame request)) := by
    rw [drain]
    congr 1
    simp [State.withFrame, ha, Nat.add_assoc]
  rw [hturns, drainFor_add, hsent]
  rfl

/-! ### A data frame as the reply -/

/-- A reply of one byte is that event (R80). -/
theorem deliverReply_singleton (b : Byte) (s : State) : deliverReply [b] s = receive (.byte b) s := by
  rw [deliverReply]
  cases receive (.byte b) s with
  | next t => simp [deliverReply]
  | fault e | refused e => rfl

/-- The machine is in Idle and RXB holds this data frame (R30, R190). -/
structure Link.Received (l : Link) (f : Byte) (p : List Byte) : Prop where
  idle  : l.rxState = .idle
  count : l.rxCount = 4 + p.length
  reply : l.rxb.readAll 0 l.rxCount = some (dataFrame f p)

/-- A session that receives every data frame whole: LENGTH_QUALIFIED, with room for the longest (R7). -/
structure TakesDataFrames (p : Params) : Prop where
  mode : p.etxMode = .lengthQualified
  room : 260 ≤ p.rxBufBytes

theorem takesDataFrames {p : Params} (hwf : p.wf = true) (hmode : p.etxMode = .lengthQualified) : TakesDataFrames p :=
  ⟨hmode, by simpa [Params.wf] using hwf⟩

/-- A data frame is received whole, and its payload is handed to the exchange that waits (R160, R169), whatever that answers: unlike
`exec_data` this covers a payload that is refused (D22). -/
theorem deliverReply_dataFrame {s : State} {f : Byte} {p : List Byte} (hx : s.xchg = .awaitRead ∨ s.xchg = .awaitWrite)
    (hidle : s.link.rxState = .idle) (htakes : TakesDataFrames s.params) (hlen : p.length ≤ 255) :
    ∃ l, l.Received f p ∧
      deliverReply (dataFrame f p) s =
        resolve (.frameComplete p) { s with link := l, lsmOut := some (.frameComplete p) } := by
  obtain ⟨hmode, hroom⟩ := htakes
  have hn : (BitVec.ofNat 8 p.length).toNat = p.length := by rw [BitVec.toNat_ofNat]; omega
  obtain ⟨l₀, hawaiting₀, h₀, hsof⟩ := deliverReply_sof hx hidle (by omega)
  obtain ⟨l₁, hawaiting₁, h₁, hbody⟩ := deliverReply_accumulates hx (f :: BitVec.ofNat 8 p.length :: p) h₀ hawaiting₀
    (by simp; omega) fun before b after => headerAndPayload_goesOn (.inl hmode) hn
  have hbyte : lengthByte ([Config.sof] ++ f :: BitVec.ofNat 8 p.length :: p) = BitVec.ofNat 8 p.length := rfl
  obtain ⟨l, hend, hidle', h⟩ := h₁.step_end (p := s.params) hawaiting₁ (by simp; omega)
    (by rw [hbyte, hn]; simp [Config.payloadIndex]; omega)
  have hpayload : (([Config.sof] ++ f :: BitVec.ofNat 8 p.length :: p).drop Config.payloadIndex).take p.length = p := by
    simp [Config.payloadIndex]
  rw [hbyte, hn, hpayload] at hend
  have hreply := h.readAll
  refine ⟨l, ⟨hidle', by rw [h.count]; simp; omega, by simpa [dataFrame] using hreply⟩, ?_⟩
  calc deliverReply (dataFrame f p) s
      = deliverReply [Config.eof] { s with link := l₁, lsmOut := none } := by
        rw [← hbody, ← hsof]; rfl
    _ = receive (.byte Config.eof) { s with link := l₁, lsmOut := none } := deliverReply_singleton ..
    _ = resolve (.frameComplete p) { s with link := l, lsmOut := some (.frameComplete p) } :=
        receive_outcome (s := { s with link := l₁, lsmOut := none }) hx hend

/-! ### One exchange of a sequence -/

/-- The exchange of this request is over (R190): the request was sent and stands in TXB, the outcome o left the link state machine
as l, and the environment has not been asked for the rest of its answers. -/
def State.exchanged (s : State) (request : List Byte) (answers : List TxAnswer) (l : Link) (o : LinkOutcome)
    (later : List RxEvent) : State :=
  { s.withFrame request with
    txIdx := 0, task := .idle, link := l, txAnswers := answers, txWire := s.txWire ++ request, rxQueue := later
    lsmOut := some o }

theorem asEvents_append (first second : List Byte) : asEvents (first ++ second) = asEvents first ++ asEvents second :=
  List.map_append

/-- The script of a sequence is that of its first exchange, with the rest behind it. -/
theorem scripted_append {s : State} {m n : Nat} {answers : List TxAnswer} {first second later : List RxEvent}
    (h : scripted s (m + n) answers (first ++ second) later) :
    scripted s m (List.replicate n .accepted ++ answers) first (second ++ later) := by
  obtain ⟨ha, hq⟩ := h
  exact ⟨by rw [ha, List.replicate_add, List.append_assoc], by rw [hq, List.append_assoc]⟩

theorem finishExchange_awaitingReply {s : State} (hx : s.xchg = .free) (k : HostTask) (request : List Byte)
    (answers : List TxAnswer) (l : Link) (o : LinkOutcome) (later : List RxEvent) :
    finishExchange { (s.withFrame request).awaitingReply k request answers with
      link := l, lsmOut := some o, rxQueue := later } = s.exchanged request answers l o later := by
  rw [finishExchange, ← hx]
  rfl

/-- The host reads back the frame that was stored last (R26). -/
theorem hostReadTxb_stored {t : State} {m : Memory} {request : List Byte}
    (htxb : t.txb = (m.writeAll 0 request).dropFrom request.length) (hlen : t.txLen = request.length) :
    hostReadTxb t 0 t.txLen = .ok request := by
  rw [hostReadTxb, if_pos (Nat.zero_add t.txLen).le, memRead_ok_iff, htxb, hlen]
  exact storeFrame_readAll

/-- A call that reads sends its request, receives the data frame and goes on with the payload (R187, R202 to R206). -/
theorem drain_readExchange {s : State} {k : HostTask} {request : List Byte} {f : Byte} {p : List Byte}
    {answers : List TxAnswer} {later : List RxEvent} (hk : k.awaits = .awaitRead) (hne : request ≠ [])
    (hx : s.xchg = .free) (hidle : s.link.rxState = .idle) (htakes : TakesDataFrames s.params) (hlen : p.length ≤ 255)
    (hscript : scripted s request.length answers (asEvents (dataFrame f p)) later) :
    ∃ l, l.Received f p ∧
      drain (beginExchange k (s.withFrame request)) =
        (resumeRead k p (s.exchanged request answers l (.frameComplete p) later)).andThen drain := by
  obtain ⟨ha, hq⟩ := hscript
  have hwaits : ((s.withFrame request).awaitingReply k request answers).xchg = .awaitRead := hk
  obtain ⟨l, hl, hreply⟩ := deliverReply_dataFrame (f := f)
    (s := ((s.withFrame request).awaitingReply k request answers).withQueue later) (.inl hwaits) hidle htakes hlen
  have hresolve : resolve (.frameComplete p) { ((s.withFrame request).awaitingReply k request answers).withQueue later with
      link := l, lsmOut := some (.frameComplete p) } =
      resumeRead k p (s.exchanged request answers l (.frameComplete p) later) := by
    rw [← finishExchange_awaitingReply hx k]
    simp only [resolve, State.withQueue, hwaits]
    rfl
  exact ⟨l, hl, by rw [drain_sends k hne ha, drain_reply (.inl hwaits) hq, hreply, hresolve]⟩

/-- The two answers to a write: the byte, the result it stands for and the outcome it emits (R188). -/
abbrev writeAnswers : List (Byte × Bool × LinkOutcome) :=
  [(0x06#8, true, .acknowledged), (0x15#8, false, .negativeAcknowledged)]

theorem receive_writeAnswer {e : Byte × Bool × LinkOutcome} (he : e ∈ writeAnswers) {s : State} (hx : s.xchg = .awaitWrite)
    (hidle : s.link.rxState = .idle) :
    receive (.byte e.1) s = resumeWrite s.task e.2.1 (finishExchange { s with lsmOut := some e.2.2 }) := by
  simp only [List.mem_cons, List.not_mem_nil, or_false] at he
  rcases he with rfl | rfl
  · rw [receive_outcome (.inr hx) (Link.step_idle_ack s.params hidle)]
    simp only [resolve, hx, resolveWrite]
  · rw [receive_outcome (.inr hx) (Link.step_idle_nak s.params hidle)]
    simp only [resolve, hx, resolveWrite]

/-- A call that writes sends its request and goes on with the answer, with the link state machine as it was (R188, R205 to R212). -/
theorem drain_writeExchange {s : State} {k : HostTask} {request : List Byte} {e : Byte × Bool × LinkOutcome}
    {answers : List TxAnswer} {later : List RxEvent} (hk : k.awaits = .awaitWrite) (hne : request ≠ [])
    (hx : s.xchg = .free) (hidle : s.link.rxState = .idle) (he : e ∈ writeAnswers)
    (hscript : scripted s request.length answers [.byte e.1] later) :
    drain (beginExchange k (s.withFrame request)) =
      (resumeWrite k e.2.1 (s.exchanged request answers s.link e.2.2 later)).andThen drain := by
  obtain ⟨ha, hq⟩ := hscript
  have hwaits : ((s.withFrame request).awaitingReply k request answers).xchg = .awaitWrite := hk
  rw [drain_sends k hne ha, drain_waiting (.inr hwaits) (rest := later) hq, ← finishExchange_awaitingReply hx k]
  exact congrArg (·.andThen drain) (receive_writeAnswer he
    (s := ((s.withFrame request).awaitingReply k request answers).withQueue later) hwaits hidle)

end Sys2Proof.Machine
end

section
/-! PROOFS. The register sequences (45_register_sequences.md): the sequences of one read (R202, R203, R213, R214), the two-phase
reads (R204, R207), the writes (R205, R208 to R212), and writeBool (R206). -/

namespace Sys2Proof.Machine

theorem readFrame_ne_nil {m : AddrWidthMode} {c : Bool} {n : Byte} {a : Word} {o : Byte} : readFrame m c n a o ≠ [] :=
  List.cons_ne_nil _ _

theorem writeFrame_ne_nil {m : AddrWidthMode} {c : Bool} {n : Byte} {a : Word} {o : Byte} {v : Word} :
    writeFrame m c n a o v ≠ [] :=
  List.cons_ne_nil _ _

/-- A sequence that completes between exchanges has returned (R22, R201). -/
theorem eq_of_completes {x : Res} {u : State} {r : OpResult} (h : x = (complete r u).andThen drain) (hx : u.xchg = .free) :
    x = .next { u with done := some ⟨.ok, r⟩, task := .idle } :=
  h.trans (drain_free hx)

/-- So has one that raises an error (R242). -/
theorem eq_of_raises {x : Res} {u : State} {k : Status} (h : x = (raiseError k u).andThen drain) (hx : u.xchg = .free) :
    x = .next { u with done := some ⟨k, .none⟩, task := .idle } :=
  h.trans (drain_free hx)

/-! ### The sequences of one read -/

/-- A sequence that begins with the read of the field at offset 4 goes on with the payload of the reply. -/
theorem readSequence_of_reply {s : State} {k : HostTask} {a : Word} {f : Byte} {p : List Byte} {answers : List TxAnswer}
    {later : List RxEvent} (hk : k.awaits = .awaitRead) (hx : s.xchg = .free) (hidle : s.link.rxState = .idle)
    (htakes : TakesDataFrames s.params) (hlen : p.length ≤ 255)
    (hscript : scripted s (readFrame s.params.addrWidthMode s.params.useChecksum 4#8 a 4#8).length answers
      (asEvents (dataFrame f p)) later) :
    ∃ l, l.Received f p ∧
      readSequence a k s = (resumeRead k p (State.exchanged { s with done := none }
        (readFrame s.params.addrWidthMode s.params.useChecksum 4#8 a 4#8) answers l (.frameComplete p) later)).andThen drain := by
  rw [readSequence_eq_drain hx]
  exact drain_readExchange (s := { s with done := none }) hk readFrame_ne_nil hx hidle htakes hlen hscript

/-- Settles O53: each of the three is the read of one field, whose payload is decoded as an integer. -/
theorem readEnumDecodesTheReply : Obligations.ReadEnumDecodesTheReply := by
  intro s i a f p answers later hi hx hidle hwf hmode hlen request hscript
  have hseq : exec i s = readSequence a .readEnum s := by
    rcases hi with rfl | ⟨rfl, rfl⟩ | ⟨rfl, rfl⟩ <;> rfl
  obtain ⟨l, hl, hrun⟩ := readSequence_of_reply (k := .readEnum) rfl hx hidle (takesDataFrames hwf hmode) hlen hscript
  have hdone := eq_of_completes (hseq.trans hrun) hx
  exact ⟨_, hdone, rfl, hostReadTxb_stored rfl rfl, hl.idle, hl.count, hl.reply, rfl⟩

/-- Settles O54, by the payload: its first byte decides, and without one there is nothing to decode (D22). -/
theorem readBoolDecodesTheReply : Obligations.ReadBoolDecodesTheReply := by
  intro s a f p answers later hx hidle hwf hmode hlen request hscript
  obtain ⟨l, hl, hrun⟩ := readSequence_of_reply (k := .readBool) rfl hx hidle (takesDataFrames hwf hmode) hlen hscript
  refine ⟨?_, ?_⟩
  · rintro b rest rfl
    have hone : b = 1#8 ↔ b.toNat = 1 := BitVec.toNat_inj.symm
    rw [← decide_eq_decide.mpr hone]
    exact ⟨_, eq_of_completes hrun hx, rfl, hostReadTxb_stored rfl rfl, hl.idle, hl.count, hl.reply, rfl⟩
  · rintro rfl
    exact hrun

/-! ### The two-phase reads -/

/-- The SizeWarning of readInfo (R204). -/
def sizeWarnings (size : Word) : List Diag := if 4 < size.toNat then [.sizeWarning size] else []

/-- The calls of a two-phase read: the first phase warns as `warnings` says and goes on with the second (R204). -/
structure TwoPhaseRead (a : Word) (first second : HostTask) (warnings : Word → List Diag) : Prop where
  awaits_first  : first.awaits = .awaitRead
  awaits_second : second.awaits = .awaitRead
  resume_first  : ∀ z s,
    resumeRead first z s = startSecondPhase (parseInt z) a second { s with diag := s.diag ++ warnings (parseInt z) }

theorem twoPhaseRead_info (a : Word) : TwoPhaseRead a (.infoSize a) .infoData sizeWarnings where
  awaits_first := rfl
  awaits_second := rfl
  resume_first z s := by
    rw [resumeRead, sizeWarnings]
    split
    · rfl
    · rw [List.append_nil]

theorem twoPhaseRead_string (a : Word) : TwoPhaseRead a (.stringSize a) .stringData fun _ => [] where
  awaits_first := rfl
  awaits_second := rfl
  resume_first z s := by rw [resumeRead, List.append_nil]

theorem sizeFits_iff {size : Word} : sizeFits size = true ↔ 1 ≤ size.toNat ∧ size.toNat ≤ 255 := by
  rw [sizeFits, Bool.and_eq_true, decide_eq_true_iff, decide_eq_true_iff]
  omega

/-- A size that fits starts the read of that many bytes at offset 8 (R204). -/
theorem startSecondPhase_of_fits {size : Word} (hmin : 1 ≤ size.toNat) (hmax : size.toNat ≤ 255) (a : Word) (k : HostTask)
    (s : State) :
    startSecondPhase size a k s = .next (beginExchange k (s.withFrame
      (readFrame s.params.addrWidthMode s.params.useChecksum (BitVec.ofNat 8 size.toNat) a 8#8))) := by
  have hlength : BitVec.ofNat 8 size.toNat ≠ 0#8 := by
    rw [ne_eq, ← BitVec.toNat_inj, BitVec.toNat_ofNat, Nat.mod_eq_of_lt (by omega)]
    exact Nat.one_le_iff_ne_zero.mp hmin
  rw [startSecondPhase, if_pos (sizeFits_iff.mpr ⟨hmin, hmax⟩), startRead, ← BitVec.ofNat_toNat,
    build_ok hlength (readFrame_fits ..)]
  rfl

/-- One that does not raises InvalidLength (R207). -/
theorem startSecondPhase_of_not_fits {size : Word} (h : size.toNat = 0 ∨ 255 < size.toNat) (a : Word) (k : HostTask)
    (s : State) : startSecondPhase size a k s = raiseError .invalidLength s := by
  rw [startSecondPhase, if_neg (by rw [sizeFits_iff]; omega)]

/-- The state between the two phases of a read (R204): the reply with the size is in, and the warnings are out. -/
def State.sized (s : State) (request : List Byte) (answers : List TxAnswer) (l : Link) (z : List Byte)
    (warnings : List Diag) (later : List RxEvent) : State :=
  { State.exchanged { s with done := none } request answers l (.frameComplete z) later with diag := s.diag ++ warnings }

/-- A two-phase read with a size that fits goes on, behind the second exchange, with its payload (R204). -/
theorem TwoPhaseRead.readSequence_eq {a : Word} {first second : HostTask} {warnings : Word → List Diag}
    (h : TwoPhaseRead a first second warnings) {s : State} {f1 f2 : Byte} {z p : List Byte} {answers : List TxAnswer}
    {later : List RxEvent} (hx : s.xchg = .free) (hidle : s.link.rxState = .idle) (htakes : TakesDataFrames s.params)
    (hz : z.length ≤ 255) (hp : p.length ≤ 255) (hmin : 1 ≤ (parseInt z).toNat) (hmax : (parseInt z).toNat ≤ 255) :
    let request1 := readFrame s.params.addrWidthMode s.params.useChecksum 4#8 a 4#8
    let request2 := readFrame s.params.addrWidthMode s.params.useChecksum (BitVec.ofNat 8 (parseInt z).toNat) a 8#8
    scripted s (request1.length + request2.length) answers (asEvents (dataFrame f1 z ++ dataFrame f2 p)) later →
    ∃ l1 l2, l2.Received f2 p ∧
      let between := s.sized request1 (List.replicate request2.length .accepted ++ answers) l1 z (warnings (parseInt z))
        (asEvents (dataFrame f2 p) ++ later)
      readSequence a first s =
        (resumeRead second p (between.exchanged request2 answers l2 (.frameComplete p) later)).andThen drain := by
  intro request1 request2 hscript
  rw [asEvents_append] at hscript
  obtain ⟨l1, hl1, hfirst⟩ := readSequence_of_reply h.awaits_first hx hidle htakes hz (scripted_append hscript)
  rw [h.resume_first, startSecondPhase_of_fits hmin hmax, Res.andThen_next] at hfirst
  obtain ⟨l2, hl2, hsecond⟩ := drain_readExchange (f := f2) (p := p) (answers := answers) (later := later)
    (s := s.sized request1 (List.replicate request2.length .accepted ++ answers) l1 z (warnings (parseInt z))
      (asEvents (dataFrame f2 p) ++ later)) (request := request2) h.awaits_second readFrame_ne_nil hx hl1.idle htakes hp
    ⟨rfl, rfl⟩
  exact ⟨l1, l2, hl2, hfirst.trans hsecond⟩

/-- Settles O55: the two phases of each, and what the second does with its payload. -/
theorem twoPhaseReadsTheSizedValue : Obligations.TwoPhaseReadsTheSizedValue := by
  intro s a f1 f2 z p answers later hx hidle hwf hmode hz hp hmin hmax first second hscript
  have htakes := takesDataFrames hwf hmode
  refine ⟨?info, ?string⟩
  case info =>
    obtain ⟨_, l, hl, hrun⟩ := (twoPhaseRead_info a).readSequence_eq hx hidle htakes hz hp hmin hmax hscript
    exact ⟨_, eq_of_completes hrun hx, rfl, hostReadTxb_stored rfl rfl, hl.idle, hl.count, hl.reply, rfl⟩
  case string =>
    obtain ⟨_, l, hl, hrun⟩ := (twoPhaseRead_string a).readSequence_eq hx hidle htakes hz hp hmin hmax hscript
    have hdone := eq_of_completes hrun hx
    rw [State.sized, List.append_nil] at hdone
    exact ⟨_, hdone, rfl, hostReadTxb_stored rfl rfl, hl.idle, hl.count, hl.reply, rfl⟩

/-- A two-phase read with a size that does not fit ends behind its first exchange, after the warnings (R207, R241 c). -/
theorem TwoPhaseRead.readSequence_invalidLength {a : Word} {first second : HostTask} {warnings : Word → List Diag}
    (h : TwoPhaseRead a first second warnings) {s : State} {f : Byte} {z : List Byte} {answers : List TxAnswer}
    {later : List RxEvent} (hx : s.xchg = .free) (hidle : s.link.rxState = .idle) (htakes : TakesDataFrames s.params)
    (hz : z.length ≤ 255) (hsize : (parseInt z).toNat = 0 ∨ 255 < (parseInt z).toNat) :
    let request := readFrame s.params.addrWidthMode s.params.useChecksum 4#8 a 4#8
    scripted s request.length answers (asEvents (dataFrame f z)) later →
    ∃ l, l.Received f z ∧
      readSequence a first s =
        .next { s.sized request answers l z (warnings (parseInt z)) later with done := some ⟨.invalidLength, .none⟩ } := by
  intro request hscript
  obtain ⟨l, hl, hfirst⟩ := readSequence_of_reply h.awaits_first hx hidle htakes hz hscript
  rw [h.resume_first, startSecondPhase_of_not_fits hsize] at hfirst
  exact ⟨l, hl, eq_of_raises hfirst hx⟩

theorem sizeWarnings_of_not_fits {size : Word} (h : size.toNat = 0 ∨ 255 < size.toNat) :
    sizeWarnings size = if 255 < size.toNat then [.sizeWarning size] else [] := by
  have hsame : 4 < size.toNat ↔ 255 < size.toNat := by omega
  rw [sizeWarnings, if_congr hsame rfl rfl]

/-- Settles O56: both reads end behind the first exchange; only readInfo warns. -/
theorem sizeThatDoesNotFitRaisesInvalidLength : Obligations.SizeThatDoesNotFitRaisesInvalidLength := by
  intro s a f z answers later hx hidle hwf hmode hz hsize first hscript
  have htakes := takesDataFrames hwf hmode
  simp only [List.forall_mem_cons]
  refine ⟨?info, ?string, List.forall_mem_nil _⟩
  case info =>
    obtain ⟨l, hl, hrun⟩ := (twoPhaseRead_info a).readSequence_invalidLength hx hidle htakes hz hsize hscript
    rw [sizeWarnings_of_not_fits hsize] at hrun
    exact ⟨_, hrun, hostReadTxb_stored rfl rfl, hl.idle, hl.count, hl.reply, rfl⟩
  case string =>
    obtain ⟨l, hl, hrun⟩ := (twoPhaseRead_string a).readSequence_invalidLength hx hidle htakes hz hsize hscript
    exact ⟨_, hrun, hostReadTxb_stored rfl rfl, hl.idle, hl.count, hl.reply, rfl⟩

/-! ### The writes -/

/-- The last exchange of a sequence that ends with a write: the answer is its result (R205, R206, R208 to R212). -/
theorem drain_writeFinal {s : State} {request : List Byte} {e : Byte × Bool × LinkOutcome} {answers : List TxAnswer}
    {later : List RxEvent} (hne : request ≠ []) (hx : s.xchg = .free) (hidle : s.link.rxState = .idle)
    (he : e ∈ writeAnswers) (hscript : scripted s request.length answers [.byte e.1] later) :
    drain (beginExchange .writeFinal (s.withFrame request)) =
      .next { s.exchanged request answers s.link e.2.2 later with done := some ⟨.ok, .bool e.2.1⟩ } :=
  eq_of_completes (drain_writeExchange rfl hne hx hidle he hscript) hx

/-- Settles O57: each is the one write of its register, with its value. -/
theorem singleWritesSendTheirFrame : Obligations.SingleWritesSendTheirFrame := by
  intro s i a v id answers later hi hx hidle request e he hscript
  have hseq : exec i s = drain (beginExchange .writeFinal (State.withFrame { s with done := none } request)) := by
    rcases hi with rfl | ⟨rfl, rfl⟩ | ⟨rfl, rfl, rfl, hmin, hmax⟩ | ⟨rfl, rfl, rfl, hmin, hmax⟩ | ⟨rfl, rfl, rfl⟩ |
      ⟨rfl, rfl, rfl⟩
    · exact writeSequence_eq_drain hx ..
    · exact writeSequence_eq_drain hx ..
    · exact selectSequence_eq_drain hx _ _ hmin hmax
    · exact selectSequence_eq_drain hx _ _ hmin hmax
    · exact writeSequence_eq_drain hx ..
    · exact writeSequence_eq_drain hx ..
  have hrun := drain_writeFinal (s := { s with done := none }) writeFrame_ne_nil hx hidle he hscript
  exact ⟨_, hseq.trans hrun, hostReadTxb_stored rfl rfl, rfl⟩

/-- Settles O59: the select is an exchange of its own, and its answer decides whether the command is written. -/
theorem loadAndSaveSelectFirst : Obligations.LoadAndSaveSelectFirst := by
  intro s i command id answers later hi hmin hmax hx hidle select go
  have hseq : exec i s = drain (beginExchange (.selectThen command) (State.withFrame { s with done := none } select)) := by
    rcases hi with ⟨rfl, rfl⟩ | ⟨rfl, rfl⟩
    · exact selectSequence_eq_drain hx _ _ hmin hmax
    · exact selectSequence_eq_drain hx _ _ hmin hmax
  have hselect {e : Byte × Bool × LinkOutcome} {answers : List TxAnswer} {later : List RxEvent} (he : e ∈ writeAnswers)
      (hscript : scripted s select.length answers [.byte e.1] later) :=
    hseq.trans (drain_writeExchange (s := { s with done := none }) (k := .selectThen command) rfl writeFrame_ne_nil hx
      hidle he hscript)
  refine ⟨fun e he hscript => ?acknowledged, fun hscript => ?refused⟩
  case acknowledged =>
    have hsplit := scripted_append (first := [.byte 0x06#8]) (second := [.byte e.1]) hscript
    have hfirst := hselect (e := (0x06#8, true, .acknowledged)) (by simp) hsplit
    rw [resumeWrite, if_pos rfl, startWrite_eq, Res.andThen_next] at hfirst
    have hgo := drain_writeFinal (s := State.exchanged { s with done := none } select
      (List.replicate go.length .accepted ++ answers) s.link .acknowledged ([.byte e.1] ++ later)) (request := go)
      (answers := answers) (later := later) writeFrame_ne_nil hx hidle he ⟨rfl, rfl⟩
    exact ⟨_, hfirst.trans hgo, hostReadTxb_stored rfl rfl, rfl⟩
  case refused =>
    have hfirst := hselect (e := (0x15#8, false, .negativeAcknowledged)) (by simp) hscript
    exact ⟨_, eq_of_completes hfirst hx, hostReadTxb_stored rfl rfl, rfl⟩

/-! ### writeBool -/

/-- The byte at the lowest index holds bits 7 to 0 of the value (R13). -/
theorem leValue_cons_testBit (b : Byte) (bs : List Byte) (k : Nat) :
    (leValue (b :: bs)).testBit k = if k < 8 then b.getLsbD k else (leValue bs).testBit (k - 8) := by
  rw [leValue, Nat.add_comm, show 256 = 2 ^ 8 from rfl, Nat.testBit_two_pow_mul_add _ b.isLt, BitVec.testBit_toNat]

/-- MERGE_BOOL on a field, read as an integer: bit 0 becomes the flag, every other bit stays (R135). -/
theorem parseInt_mergeBool_getLsbD {field : List Byte} (hne : field ≠ []) (flag : Bool) (k : Nat) :
    (parseInt (mergeBool field flag)).getLsbD k = if k = 0 then flag else (parseInt field).getLsbD k := by
  obtain ⟨b, rest, rfl⟩ := List.exists_cons_of_ne_nil hne
  rw [mergeBool, parseInt, parseInt, BitVec.getLsbD_ofNat, BitVec.getLsbD_ofNat, List.take_succ_cons, List.take_succ_cons,
    leValue_cons_testBit, leValue_cons_testBit, mergeBit0_getLsbD]
  by_cases h0 : k = 0
  · simp [h0]
  · simp [h0]

/-- The word that writeBool writes back for the word it read (R206). -/
def boolWritten (w : Word) (flag : Bool) : Word := parseInt (mergeBool (intToField w) flag)

/-- R206, bit by bit. -/
theorem boolWritten_getLsbD (w : Word) (flag : Bool) (k : Nat) :
    (boolWritten w flag).getLsbD k = if k = 0 then flag else w.getLsbD k := by
  have hne : intToField w ≠ [] := List.cons_ne_nil _ _
  rw [boolWritten, parseInt_mergeBool_getLsbD hne, parseInt_intToField]

/-- Settles O60: the read, the word with bit 0 set to the flag, and the write of that word. -/
theorem writeBoolChangesOneBit : Obligations.WriteBoolChangesOneBit := by
  intro s a flag f p answers later hx hidle hwf hmode hlen
  refine ⟨boolWritten (parseInt p) flag, ?flag, fun k hk => ?kept, ?run⟩
  case flag => rw [boolWritten_getLsbD, if_pos rfl]
  case kept => rw [boolWritten_getLsbD, if_neg hk.ne']
  case run =>
    intro read write e he hscript
    obtain ⟨l, hl, hread⟩ := readSequence_of_reply (k := .boolRead a flag) rfl hx hidle (takesDataFrames hwf hmode) hlen
      (scripted_append hscript)
    rw [resumeRead, startWrite_eq, Res.andThen_next] at hread
    have hwrite := drain_writeFinal (s := State.exchanged { s with done := none } read
      (List.replicate write.length .accepted ++ answers) l (.frameComplete p) ([.byte e.1] ++ later)) (request := write)
      (answers := answers) (later := later) writeFrame_ne_nil hx hl.idle he ⟨rfl, rfl⟩
    exact ⟨_, hread.trans hwrite, hostReadTxb_stored rfl rfl, hl.idle, hl.count, hl.reply, rfl⟩

end Sys2Proof.Machine
end

section
/-! PROOFS. Errors and diagnostics (60_exceptions.md): an id out of range is raised before anything is done (R233), and no meaning
looks at the diagnostics emitted so far (R250). -/

namespace Sys2Proof.Machine

/-! ### An id out of range -/

/-- R209, R210, R233: the range check comes first, and an id that fails it raises OutOfRange. -/
theorem selectSequence_of_outOfRange {s : State} (hx : s.xchg = .free) (selector : Word) {id : Int} (k : HostTask)
    (hid : id < 0 ∨ 3 < id) :
    selectSequence selector id k s = .next { s with task := .idle, done := some ⟨.outOfRange, .none⟩ } := by
  have hrange : ¬ userSetInRange id = true := by
    simp only [userSetInRange, Config.userSetMin, Config.userSetMax, Bool.and_eq_true, decide_eq_true_eq]
    omega
  rw [selectSequence, issue_free hx, if_neg hrange, raiseError_eq]

/-- Settles O58: each of the four is a select of the id. -/
theorem userSetOutOfRangeTouchesNothing : Obligations.UserSetOutOfRangeTouchesNothing := by
  intro s id hx hid i hi
  simp only [List.mem_cons, List.not_mem_nil, or_false] at hi
  rcases hi with rfl | rfl | rfl | rfl <;> exact selectSequence_of_outOfRange hx _ _ hid

/-! ### Meanings that do not look at the log -/

/-- The state with more diagnostics in front of its log. -/
def State.afterLog (s : State) (d : List Diag) : State := { s with diag := d ++ s.diag }

/-- What is answered, with more diagnostics in front of its log. -/
def Res.afterLog (r : Res) (d : List Diag) : Res := r.andThen fun t => .next (t.afterLog d)

theorem Res.afterLog_eq_next {r : Res} {d : List Diag} {t : State} :
    r.afterLog d = .next t ↔ ∃ u, r = .next u ∧ u.afterLog d = t := by
  cases r <;> simp [Res.afterLog]

theorem Res.afterLog_eq_fault {r : Res} {d : List Diag} {e : Fault} : r.afterLog d = .fault e ↔ r = .fault e := by
  cases r <;> simp [Res.afterLog]

theorem Res.afterLog_eq_refused {r : Res} {d : List Diag} {e : Refusal} : r.afterLog d = .refused e ↔ r = .refused e := by
  cases r <;> simp [Res.afterLog]

/-- R250: diagnostics in front of the log stay there and change nothing else. -/
def LogBlind (f : State → Res) : Prop := ∀ s d, f (s.afterLog d) = (f s).afterLog d

/-- What is emitted goes behind the log, whatever stands in front of it. -/
theorem State.afterLog_emit (s : State) (d added : List Diag) :
    { s.afterLog d with diag := (s.afterLog d).diag ++ added } = State.afterLog { s with diag := s.diag ++ added } d :=
  congrArg (fun log => { s with diag := log }) (List.append_assoc ..)

theorem LogBlind.andThen {f g : State → Res} (hf : LogBlind f) (hg : LogBlind g) : LogBlind fun s => (f s).andThen g := by
  intro s d
  dsimp only
  rw [hf s d]
  cases f s with
  | next t => exact hg t d
  | fault e => rfl
  | refused e => rfl

/-- What is answered from any log is one answer, behind that log. -/
theorem LogBlind.exists_afterLog {f : State → Res} (hf : LogBlind f) (s : State) :
    ∃ r : Res, ∀ d, f { s with diag := d } = r.afterLog d :=
  ⟨f { s with diag := [] }, fun d => by simpa [State.afterLog] using hf { s with diag := [] } d⟩

theorem complete_logBlind (r : OpResult) : LogBlind (complete r) := fun _ _ => rfl

theorem raiseError_logBlind (k : Status) : LogBlind (raiseError k) := fun _ _ => rfl

theorem issue_logBlind {f : State → Res} (hf : LogBlind f) : LogBlind (issue f) := by
  intro s d
  by_cases hx : s.xchg = .free
  · rw [issue_free (s := s.afterLog d) hx, issue_free hx]
    exact hf { s with done := none } d
  · rw [issue_busy (s := s.afterLog d) hx, issue_busy hx]
    rfl

theorem build_logBlind (n : Byte) {bytes : State → List Byte} {f : State → Res}
    (hbytes : ∀ s d, bytes (s.afterLog d) = bytes s) (hf : LogBlind f) : LogBlind fun s => build n (bytes s) s f := by
  intro s d
  dsimp only
  rw [hbytes s d]
  by_cases hn : n = 0#8
  · rw [hn, build_zero, build_zero]
    rfl
  · rw [build, build, if_neg hn, if_neg hn, storeFrame, storeFrame, show (s.afterLog d).txb = s.txb from rfl]
    cases memWrite Config.txBufBytes s.txb 0 (bytes s) with
    | ok m => exact hf { s with txb := m.dropFrom (bytes s).length, txLen := (bytes s).length } d
    | error e => rfl

theorem startRead_logBlind (n : Byte) (a : Word) (o : Byte) (k : HostTask) : LogBlind (startRead n a o k) :=
  build_logBlind n (fun _ _ => rfl) fun _ _ => rfl

theorem startWrite_logBlind (a v : Word) (k : HostTask) : LogBlind (startWrite a v k) :=
  build_logBlind _ (fun _ _ => rfl) fun _ _ => rfl

theorem startSecondPhase_logBlind (z a : Word) (k : HostTask) : LogBlind (startSecondPhase z a k) := by
  intro s d
  unfold startSecondPhase
  split
  · exact startRead_logBlind _ _ _ _ s d
  · exact raiseError_logBlind _ s d

/-! ### The sequencer -/

/-- readInfo's SizeWarning goes behind whatever the log holds (R204, R207). -/
theorem resumeRead_logBlind (k : HostTask) (p : List Byte) : LogBlind (resumeRead k p) := by
  intro s d
  cases k with
  | infoSize a =>
    simp only [resumeRead]
    split
    · rw [State.afterLog_emit]
      exact startSecondPhase_logBlind _ _ _ { s with diag := _ } d
    · exact startSecondPhase_logBlind _ _ _ s d
  | stringSize a => exact startSecondPhase_logBlind _ _ _ s d
  | boolRead a f => exact startWrite_logBlind _ _ _ s d
  | readBool => cases p <;> rfl
  | _ => rfl

theorem resumeWrite_logBlind (k : HostTask) (ok : Bool) : LogBlind (resumeWrite k ok) := by
  intro s d
  cases k with
  | selectThen c =>
    cases ok with
    | true => exact startWrite_logBlind _ _ _ s d
    | false => rfl
  | _ => rfl

theorem resolve_logBlind (o : LinkOutcome) : LogBlind (resolve o) := by
  intro s d
  rw [resolve, resolve, show (s.afterLog d).xchg = s.xchg from rfl]
  cases s.xchg with
  | free | sending => rfl
  | awaitRead =>
    cases o with
    | frameComplete p => exact resumeRead_logBlind s.task p (finishExchange s) d
    | _ => rfl
  | awaitWrite =>
    cases o with
    | acknowledged | negativeAcknowledged => exact resumeWrite_logBlind s.task _ (finishExchange s) d
    | _ => rfl

/-- The diagnostic of a transition goes behind whatever the log holds (R150, R158). -/
theorem processEvent_logBlind (e : RxEvent) : LogBlind (processEvent e) := by
  intro s d
  rw [processEvent, processEvent, show (s.afterLog d).link.step (s.afterLog d).params e = s.link.step s.params e from rfl]
  cases s.link.step s.params e with
  | error f => rfl
  | ok r =>
    obtain ⟨l, o, added⟩ := r
    have hlog := State.afterLog_emit { s with link := l, lsmOut := o } d added.toList
    cases o with
    | none => exact congrArg Host.Outcome.next hlog
    | some o => exact (congrArg (resolve o) hlog).trans (resolve_logBlind o _ d)

theorem receive_logBlind (e : RxEvent) : LogBlind (receive e) := by
  intro s d
  rw [receive, receive, show (s.afterLog d).xchg = s.xchg from rfl]
  cases s.xchg with
  | free | sending => rfl
  | awaitRead | awaitWrite => exact processEvent_logBlind e s d

theorem sendByte_logBlind : LogBlind sendByte := by
  intro s d
  rw [sendByte, sendByte, show memRead (s.afterLog d).txb (s.afterLog d).txIdx 1 = memRead s.txb s.txIdx 1 from rfl,
    show (s.afterLog d).txAnswers = s.txAnswers from rfl]
  cases memRead s.txb s.txIdx 1 with
  | error f => rfl
  | ok bytes =>
    cases s.txAnswers with
    | nil => rfl
    | cons a rest => cases a <;> rfl

theorem takeEvent_logBlind : LogBlind takeEvent := by
  intro s d
  rw [takeEvent, takeEvent, show (s.afterLog d).rxQueue = s.rxQueue from rfl]
  cases s.rxQueue with
  | nil => rfl
  | cons e rest => exact receive_logBlind e { s with rxQueue := rest } d

theorem tick_logBlind : LogBlind tick := by
  intro s d
  rw [tick, tick, show (s.afterLog d).xchg = s.xchg from rfl]
  cases s.xchg with
  | free => rfl
  | sending =>
    by_cases hi : s.txIdx < s.txLen
    · rw [if_pos hi, if_pos (show (s.afterLog d).txIdx < (s.afterLog d).txLen from hi)]
      exact sendByte_logBlind s d
    · rw [if_neg hi, if_neg (show ¬ (s.afterLog d).txIdx < (s.afterLog d).txLen from hi)]
      rfl
  | awaitRead | awaitWrite => exact takeEvent_logBlind s d

theorem drainFor_logBlind (n : Nat) : LogBlind (drainFor n) := by
  induction n with
  | zero => exact fun _ _ => rfl
  | succ n ih =>
    rw [funext (drainFor_succ_eq n)]
    exact tick_logBlind.andThen ih

theorem drain_logBlind : LogBlind drain := fun s d => drainFor_logBlind (s.txAnswers.length + s.rxQueue.length) s d

theorem deliverReply_logBlind (bytes : List Byte) : LogBlind (deliverReply bytes) := by
  induction bytes with
  | nil => exact fun _ _ => rfl
  | cons b bs ih =>
    refine (receive_logBlind (.byte b)).andThen fun s d => ?_
    by_cases hout : s.lsmOut.isSome = true
    · rw [if_pos hout, if_pos (show (s.afterLog d).lsmOut.isSome = true from hout)]
      rfl
    · rw [if_neg hout, if_neg (show ¬ (s.afterLog d).lsmOut.isSome = true from hout)]
      exact ih s d

/-! ### The instructions -/

theorem presentFrame_logBlind (n : Byte) (bytes : List Byte) : LogBlind (presentFrame n bytes) :=
  issue_logBlind fun s d => by
    rw [show (s.afterLog d).params = s.params from rfl]
    split
    · rfl
    · split
      · rfl
      · exact build_logBlind n (bytes := fun _ => bytes) (fun _ _ => rfl) (complete_logBlind .none) s d

theorem runExchange_logBlind (k : HostTask) : LogBlind (runExchange k) :=
  issue_logBlind fun s d => by
    rw [show (s.afterLog d).txLen = s.txLen from rfl]
    split
    · rfl
    · exact drain_logBlind (beginExchange k s) d

theorem readSequence_logBlind (a : Word) (k : HostTask) : LogBlind (readSequence a k) :=
  issue_logBlind ((startRead_logBlind _ _ _ _).andThen drain_logBlind)

theorem writeSequence_logBlind (a v : Word) (k : HostTask) : LogBlind (writeSequence a v k) :=
  issue_logBlind ((startWrite_logBlind _ _ _).andThen drain_logBlind)

theorem selectSequence_logBlind (selector : Word) (id : Int) (k : HostTask) : LogBlind (selectSequence selector id k) :=
  issue_logBlind fun s d => by
    split
    · exact (startWrite_logBlind _ _ _).andThen drain_logBlind s d
    · exact raiseError_logBlind _ s d

theorem selectOrWrite_logBlind (f : Bool) (selector a v : Word) (id : Int) (k k' : HostTask) :
    LogBlind fun s => if f then selectSequence selector id k s else writeSequence a v k' s := by
  cases f with
  | true => exact selectSequence_logBlind selector id k
  | false => exact writeSequence_logBlind a v k'

theorem exec_logBlind_of_frame {i : Instr} (h : (encode i).ch = .frame) : LogBlind (exec i) := by
  obtain ⟨r, k, e, hform⟩ := Instr.exists_isForm h
  rw [hform.exec_eq]
  exact presentFrame_logBlind _ _

/-- R250, for every instruction. -/
theorem exec_logBlind (i : Instr) : LogBlind (exec i) := by
  cases i with
  | ack | nak | data => exact deliverReply_logBlind _
  | rxIdleSof | rxIdleAck | rxIdleNak | rxIdleOther | rxAwaitOverflow | rxAwaitData | rxAwaitEtx | rxAwaitEtxShort
  | rxTimeout | rxIoError => exact receive_logBlind _
  | buildRead c n a o =>
    exact issue_logBlind (build_logBlind n (bytes := fun s => readFrame s.params.addrWidthMode c n a o) (fun _ _ => rfl)
      (complete_logBlind .none))
  | buildWrite c n a o v =>
    exact issue_logBlind (build_logBlind n (bytes := fun s => writeFrame s.params.addrWidthMode c n a o v) (fun _ _ => rfl)
      (complete_logBlind .none))
  | checksum bytes =>
    cases bytes with
    | nil => exact issue_logBlind (raiseError_logBlind .emptyInput)
    | cons b rest => exact issue_logBlind (complete_logBlind (.byte (xorFold (b :: rest))))
  | parseBool bytes =>
    cases bytes with
    | nil => exact issue_logBlind (f := fun _ => .refused .parseBoolEmpty) fun _ _ => rfl
    | cons b rest => exact issue_logBlind (complete_logBlind (.bool (decide (b = 1#8))))
  | parseText bytes => exact issue_logBlind (f := fun s => complete (.bytes (parseText s.params bytes)) s) fun _ _ => rfl
  | parseInt | intToField | mergeBool => exact issue_logBlind (complete_logBlind _)
  | readExchange | writeExchange => exact runExchange_logBlind _
  | opUnassigned => exact fun _ _ => rfl
  | readEnum | readBool | readInfo | readString | writeBool | userSetGetCurrent | userSetGetDefault =>
    exact readSequence_logBlind _ _
  | writeEnum | writeCommandReg => exact writeSequence_logBlind _ _ _
  | userSetSelect | userSetDefaultSelect => exact selectSequence_logBlind _ _ _
  | userSetLoad | userSetSave => exact selectOrWrite_logBlind _ _ _ _ _ _ _
  | _ => exact exec_logBlind_of_frame rfl

/-! ### The step -/

/-- Which transaction is taken does not depend on the log (R39). -/
theorem takeFirst_afterLog (s : State) (d : List Diag) (l : List Transaction) :
    takeFirst (s.afterLog d) l = takeFirst s l := by
  induction l with
  | nil => rfl
  | cons t l ih => rw [takeFirst, takeFirst, ih]; rfl

theorem fetch_afterLog (s : State) (d : List Diag) :
    fetch (s.afterLog d) = (fetch s).map fun taken => (taken.1, taken.2.afterLog d) := by
  rw [fetch, fetch, takeFirst_afterLog, show (s.afterLog d).port = s.port from rfl]
  cases takeFirst s s.port <;> rfl

theorem step_logBlind : LogBlind step := by
  intro s d
  rw [step, step, fetch_afterLog]
  cases fetch s with
  | none => exact tick_logBlind s d
  | some taken =>
    obtain ⟨e | i, s'⟩ := taken
    · rfl
    · exact exec_logBlind _ s' d

/-- Settles O14: from every log the step gives one answer, behind that log. -/
theorem diagnosticsChangeNothingElse : Obligations.DiagnosticsChangeNothingElse := by
  intro s d
  obtain ⟨r, hr⟩ := step_logBlind.exists_afterLog s
  have hs : step s = r.afterLog s.diag := hr s.diag
  rw [hs, hr d]
  refine ⟨fun t h => ?next, fun e h => ?fault, fun e h => ?refused⟩
  case next =>
    obtain ⟨u, rfl, rfl⟩ := Res.afterLog_eq_next.mp h
    exact ⟨u.diag, rfl, rfl⟩
  case fault => exact Res.afterLog_eq_fault.mpr (Res.afterLog_eq_fault.mp h)
  case refused => exact Res.afterLog_eq_refused.mpr (Res.afterLog_eq_refused.mp h)

end Sys2Proof.Machine
end

section
/-! PROOFS. Reset and forward progress (70_reset_and_hazards.md): what reset leaves, at power-up and in a machine that has run
(R260), and a read exchange that meets noise and acknowledges alone (R280). -/

namespace Sys2Proof.Machine

/-! ### Reset -/

/-- Power-up is a reset too: what holds behind `hardReset` holds of the state the machine begins in. -/
theorem hardReset_reset : hardReset State.reset = State.reset := rfl

theorem Link.reset_inv (p : Params) : Link.reset.Inv p := by
  refine ⟨rfl, Nat.zero_le _, ?awaiting, ?marker, ?valid, ?captured⟩ <;> simp [Link.reset]

/-- Reset gives a good state from any state, good or not; the parameters are not its to mend (R38; log 22). -/
theorem hardReset_inv {s : State} (hparams : s.params.wf = true) : (hardReset s).Inv :=
  ⟨hparams, ⟨rfl, Nat.zero_le _, fun hbuilt => absurd rfl hbuilt⟩, Link.reset_inv s.params,
    (State.seqInv_of_free rfl).mpr ⟨rfl, rfl, rfl⟩⟩

/-- Settles O9: the defaults of R7 are parameters R7 allows. -/
theorem resetIsGoodState : Obligations.ResetIsGoodState :=
  ⟨hardReset_inv (s := State.reset) rfl, State.reset_txb_wf, State.reset_rxb_wf⟩

theorem tick_free {s : State} (hx : s.xchg = .free) : tick s = .next s := by
  rw [tick, hx]

/-- Between operations a framer with nothing presented waits (R260). -/
theorem step_free_of_port_nil {s : State} (hx : s.xchg = .free) (hport : s.port = []) : step s = .next s :=
  (step_of_accepts_none (by simp [hport])).trans (tick_free hx)

/-- Settles O10: power-up is the reset of a state as any other. -/
theorem resetLeavesTheStatedValues : Obligations.ResetLeavesTheStatedValues := by
  intro s r hr
  obtain ⟨u, rfl⟩ : ∃ u, r = hardReset u := by
    rw [List.mem_pair] at hr
    obtain rfl | rfl := hr
    exacts [⟨State.reset, hardReset_reset.symm⟩, ⟨s, rfl⟩]
  exact ⟨rfl, rfl, rfl, rfl, rfl, rfl, fun _ => rfl, fun _ => rfl, rfl, step_free_of_port_nil rfl⟩

/-! ### No forward progress on noise (R164, R247, R280) -/

/-- An exchange that waits is blocked until the environment gives an event (R247). -/
theorem tick_blocked {s : State} (hx : s.xchg = .awaitRead ∨ s.xchg = .awaitWrite) (hq : s.rxQueue = []) :
    tick s = .next s := by
  rcases hx with hx | hx <;> simp only [tick, hx, takeEvent, hq]

/-- A call whose request is accepted and whose transport begins with bytes it passes over comes to wait behind them. -/
theorem drainFor_atReply {s : State} {k : HostTask} {bytes before : List Byte} {answers : List TxAnswer}
    {rest : List RxEvent} (hidle : s.link.rxState = .idle) (hlen : s.txLen ≠ 0)
    (hread : s.txb.readAll 0 s.txLen = some bytes) (hbefore : ∀ b ∈ before, k.awaits.PassesOver b)
    (hscript : scripted s s.txLen answers (asEvents before) rest) :
    ∃ o, drainFor (s.txLen + before.length) (beginExchange k { s with done := none }) =
      .next (s.atReply k bytes answers before rest o) := by
  obtain ⟨ha, hq⟩ := hscript
  have hsent := serialiserSendsTheFrameInOrder { s with done := none } k bytes answers hlen hread ha
  obtain ⟨o, hpassed⟩ := drainFor_passesOver (s := State.awaitingReply { s with done := none } k bytes answers)
    k.awaits_eq hidle hbefore hq
  refine ⟨o, ?_⟩
  rw [drainFor_add, hsent]
  exact hpassed

/-- With nothing in the transport but bytes it passes over, an exchange sends its request, uses those bytes up and waits on: the
transport's further answers give it nothing to do. -/
theorem runExchange_of_noise {s : State} {k : HostTask} {bytes noise : List Byte} {answers : List TxAnswer}
    (hx : s.xchg = .free) (hidle : s.link.rxState = .idle) (hlen : s.txLen ≠ 0)
    (hread : s.txb.readAll 0 s.txLen = some bytes) (hnoise : ∀ b ∈ noise, k.awaits.PassesOver b)
    (hscript : scripted s s.txLen answers (asEvents noise) []) :
    ∃ o, runExchange k s = .next (s.atReply k bytes answers noise [] o) := by
  obtain ⟨o, hwaits⟩ := drainFor_atReply hidle hlen hread hnoise hscript
  have hblocked : tick (s.atReply k bytes answers noise [] o) = .next (s.atReply k bytes answers noise [] o) :=
    tick_blocked k.awaits_eq rfl
  have hturns : (beginExchange k { s with done := none }).unusedAnswers = s.txLen + noise.length + answers.length := by
    obtain ⟨ha, hq⟩ := hscript
    simp [State.unusedAnswers, ha, hq, asEvents, Nat.add_right_comm]
  refine ⟨o, ?_⟩
  calc runExchange k s
    _ = drainFor (s.txLen + noise.length + answers.length) (beginExchange k { s with done := none }) := by
      rw [runExchange_eq_drain hx hlen, ← hturns]; rfl
    _ = drainFor answers.length (s.atReply k bytes answers noise [] o) := by rw [drainFor_add, hwaits, Res.andThen_next]
    _ = .next (s.atReply k bytes answers noise [] o) := drainFor_of_tick_eq hblocked _

/-- Settles O51: the state the exchange waits in differs from the one before in what was sent, used up and emitted. -/
theorem noiseAloneResolvesNoRead : Obligations.NoiseAloneResolvesNoRead := by
  intro s bytes noise answers hx hidle hlen hread hnoise hscript
  obtain ⟨o, hwaits⟩ := runExchange_of_noise (k := .readExchange) hx hidle hlen hread
    (fun b hb => passesOver_read (hnoise b hb)) hscript
  exact ⟨_, hwaits, rfl, rfl, rfl, rfl, rfl, rfl⟩

end Sys2Proof.Machine
end
